-- ==== Sys2Proof/Word.lean ====
section
/-! DEFINITION. The machine's words: XLEN = 32 (00_scope.md R7), bytes of memory (10_state.md R31), the numbers of
the 32 integer registers (10_state.md R21). -/

namespace Sys2Proof

/-- A 32-bit value: a register, the pc, an address, an instruction word (00_scope.md R7, R10). -/
abbrev Word := BitVec 32

/-- The addressable unit of memory (10_state.md R31). -/
abbrev Byte := BitVec 8

/-- A register number: a 5-bit field, so every instruction can name every register (10_state.md R21). -/
abbrev Reg := BitVec 5

end Sys2Proof
end

