-- ==== Sys2Proof/Config.lean ====
section
/-! DEFINITION. What an implementation or its environment fixes: the record Config of 00_scope.md R8, and the free values,
constants with no body that stand for what the spec leaves open. A Config is plain data; State carries it unchanged because
the step's type is fixed (10_state.md R36; log 1). -/

namespace Sys2Proof

/-- Byte order of data accesses (00_scope.md R8, 20_memory.md R43). -/
inductive Endian where
  | little
  | big
  deriving DecidableEq, Repr

/-- The three outcomes 20_memory.md R48 allows a load or store that is not naturally aligned. -/
inductive MisalignedOutcome where
  /-- it raises the address-misaligned exception -/
  | trapMisaligned
  /-- it raises the access-fault exception -/
  | trapAccessFault
  /-- it completes -/
  | support
  deriving DecidableEq, Repr

/-- The parameter MISALIGNED (00_scope.md R8): one outcome for every access, or the environment's choice "per address and
per access", "non-deterministic among the three" (20_memory.md R48; log 11). -/
inductive Misaligned where
  | always (o : MisalignedOutcome)
  | perAccess
  deriving DecidableEq, Repr

/-- What a reserved or out-of-scope encoding does: the one value the spec defines (30_encoding.md R92). -/
inductive Reserved where
  | illegalInstruction
  deriving DecidableEq, Repr

/-- What the environment does with a trap (00_scope.md R8, 60_exceptions.md R232, R236). -/
inductive TrapMode where
  /-- every trap halts the hart -/
  | fatal
  /-- ECALL is serviced; every other trap halts the hart -/
  | service
  deriving DecidableEq, Repr

/-- What the hart asks of an address (20_memory.md R52). -/
inductive Access where
  | fetch
  | load
  | store
  deriving DecidableEq, Repr

/-- Main memory or device I/O (20_memory.md R52, R54). -/
inductive RegionKind where
  | main
  | io
  deriving DecidableEq, Repr

/-- One region of MEMMAP (20_memory.md R52): the bytes base to base + size - 1, its kind, the accesses it permits and the
widths (1, 2, 4 bytes) it supports. -/
structure Region where
  base : Nat
  size : Nat
  kind : RegionKind
  fetch : Bool
  load : Bool
  store : Bool
  width1 : Bool
  width2 : Bool
  width4 : Bool
  deriving DecidableEq, Repr

/-- The privilege modes the PLIC chapter names for hart contexts and local interrupts (60_exceptions.md R244, R247). The
hart of the model has one mode and no mode state. -/
inductive Mode where
  | machine
  | supervisor
  | user
  deriving DecidableEq, Repr

/-- A source's gateway (60_exceptions.md R260 to R262). A message-signalled source is handled as edge-triggered. -/
inductive Gateway where
  | level
  /-- edge-triggered; edges between request and completion are lost -/
  | edgeIgnoring
  /-- edge-triggered; edges between request and completion are counted -/
  | edgeCounting
  deriving DecidableEq, Repr

/-- The legal values of a WARL register, as two masks: the bits hardwired to 1 and the bits hardwired to 0
(60_exceptions.md R254). -/
structure WarlMask where
  ones : Word
  zeros : Word
  deriving DecidableEq, Repr

/-- The parameters of one PLIC source (60_exceptions.md R250, R253, R254, R261). -/
structure SourceParams where
  gateway : Gateway
  prio : WarlMask
  deriving DecidableEq, Repr

/-- The values from `low` to `high`, as unsigned numbers. -/
structure ValueRange where
  low : Word
  high : Word
  deriving DecidableEq, Repr

/-- The parameters of one PLIC target: the hart context it notifies, if it is one of this hart's (60_exceptions.md R244),
its threshold's legal values, any set, as ranges (R250, R256), and the sources whose IE bit is hardwired to 1 and to 0
(R255). -/
structure TargetParams where
  context : Option Mode
  thr : List ValueRange
  ieOnes : List Nat
  ieZeros : List Nat
  deriving DecidableEq, Repr

/-- What a PLIC register address names (60_exceptions.md R268): a source's priority; the pending bits, or a target's enable
bits, of `count` sources from source `first` on, bit 0 of the register being source `first` (R255: "packed together as a bit
vector"; log 21); a target's threshold; a target's claim/complete register. -/
inductive PlicReg where
  | priority (source : Nat)
  | pending (first count : Nat)
  | enable (target first count : Nat)
  | threshold (target : Nat)
  | claimComplete (target : Nat)
  deriving DecidableEq, Repr

/-- One entry of the platform's PLIC register map (60_exceptions.md R268: "a model with PLIC_PRESENT = true takes the
register map as an argument"): an access of `width` bytes at `addr` reaches `reg` (log 18). -/
structure PlicEntry where
  addr : Nat
  width : Nat
  reg : PlicReg
  deriving DecidableEq, Repr

/-- A PLIC instance (60_exceptions.md R250). Source IDs run from 1 (R252): the first of `sources` is source 1. Targets
count from 0. -/
structure PlicParams where
  sources : List SourceParams
  targets : List TargetParams
  registers : List PlicEntry
  deriving DecidableEq, Repr

/-- The parameters the sources leave to the environment, the platform or the implementation (00_scope.md R8). `plic = none`
is PLIC_PRESENT = false. ECALL_SERVICE is `Config.ecallService`, since a relation is no plain data. -/
structure Config where
  endian : Endian
  misaligned : Misaligned
  reserved : Reserved
  memMap : List Region
  trapMode : TrapMode
  resetPc : Word
  numHarts : Nat
  interrupts : Bool
  codeWritable : Bool
  plic : Option PlicParams
  deriving DecidableEq, Repr

/-- One main-memory region over the whole address space that permits everything: the map State.reset takes for the OPEN
parameter MEMMAP. DESIGN CHOICE, unsafe (log 4). -/
def Region.whole : Region :=
  { base := 0, size := 4294967296, kind := .main, fetch := true, load := true, store := true,
    width1 := true, width2 := true, width4 := true }

/-- The defaults of 00_scope.md R8. MEMMAP and RESET_PC are OPEN there: the values here are DESIGN CHOICE, unsafe
(logs 3, 4). -/
def Config.default : Config :=
  { endian := .little, misaligned := .always .trapMisaligned, reserved := .illegalInstruction, memMap := [Region.whole],
    trapMode := .fatal, resetPc := 0, numHarts := 1, interrupts := false, codeWritable := false, plic := none }

/-- What the environment answers to an ECALL (60_exceptions.md R236): halt, or new values of x1 to x31 and bytes of memory
to write. -/
structure ServiceReply where
  halt : Bool
  regs : Vector Word 31
  writes : List Host.Cell
  deriving DecidableEq, Repr, Inhabited

/-- Free value: ECALL_SERVICE (60_exceptions.md R236), applied to the draw counter (it is a relation, "so that it may be
non-deterministic"), the registers x1 to x31, the memory and the pc of the ECALL (log 9). -/
opaque Config.ecallService (draw : Nat) (regs : Vector Word 31) (mem : List Host.Cell) (pc : Word) : ServiceReply

/-- Free value: the byte a device answers at an address in an access drawn as number `draw` (20_memory.md R54: "the bytes
returned are what the device answers"; log 13). DESIGN CHOICE, unsafe for a claim that compares two runs: the spec supplies no
device (60_exceptions.md R273), and of all that an answer could depend on, the bytes stored to the device before and the width
of the access among them, this constant is given the draw number and the address only, so two runs that draw with the same
number get the same byte whatever each has stored. In one run no two accesses share a number, so there every answer is open. -/
opaque Config.deviceByte (draw : Nat) (addr : Nat) : Byte

/-- Free value: which of the three outcomes of 20_memory.md R48 the environment picks for one misaligned access under
`Misaligned.perAccess`, read modulo 3 (log 11). -/
opaque Config.misalignedChoice (draw : Nat) (addr : Nat) (width : Nat) : Nat

/-- Free value: which of the values a byte has held a fetch sees when CODE_WRITABLE is true (20_memory.md R63: "a free
choice per fetch"; log 15). -/
opaque Config.fetchChoice (draw : Nat) (addr : Nat) : Nat

/-- Free value: what a threshold register holds after a write of a value that is not legal for it, in the Write Register action
drawn as number `draw` (60_exceptions.md R256: WARL; which legal value is not said). Where this constant is itself no legal
value, the lowest of the first range stands in (log 21). -/
opaque Config.legalThreshold (draw : Nat) (target : Nat) (written : Word) : Word

end Sys2Proof
end

