-- ==== Sys2Proof/Machine/State.lean ====
section
/-! DEFINITION. The state of the machine as plain data: the hart (10_state.md R20), its memory (R31), the trap record it
halted with (60_exceptions.md R234), the optional PLIC (60_exceptions.md R251), the configuration (log 1) and the model's own
bookkeeping fields. INVENTORY.md lists each with its rule and reset value. -/

namespace Sys2Proof.Machine

/-! ### Traps -/

/-- The nine exceptions of 60_exceptions.md R220. -/
inductive Cause where
  | instructionAddressMisaligned
  | instructionAccessFault
  | illegalInstruction
  | breakpoint
  | loadAddressMisaligned
  | loadAccessFault
  | storeAddressMisaligned
  | storeAccessFault
  | environmentCall
  deriving DecidableEq, Repr

/-- What a trap hands to the environment (60_exceptions.md R234). -/
structure TrapRecord where
  cause : Cause
  epc : Word
  tval : Word
  deriving DecidableEq, Repr

/-! ### Event history (43_memory_ordering.md R197) -/

/-- A set of operation kinds: device input, device output, memory read, memory write (43_memory_ordering.md R191). -/
structure KindSet where
  i : Bool
  o : Bool
  r : Bool
  w : Bool
  deriving DecidableEq, Repr

/-- One entry of the hart's history: a load or store with the kinds of operation it is, its address, its width in bytes and
the value moved; or a FENCE with its `fm`, `pred`, `succ` (43_memory_ordering.md R197; log 14). -/
inductive Event where
  | access (kinds : KindSet) (addr : Word) (width : Nat) (value : Word)
  | fence (fm pred succ : BitVec 4)
  deriving DecidableEq, Repr

/-! ### The platform-level interrupt controller (60_exceptions.md R251) -/

/-- The PLIC core's and the gateway's state of one source. -/
structure PlicSource where
  /-- `IP[s]` -/
  ip : Bool
  /-- `prio[s]`, a legal (WARL) value -/
  prio : Word
  /-- the gateway has forwarded a request and not yet received its completion -/
  busy : Bool
  /-- pending-interrupt counter of a counting gateway -/
  cnt : Nat
  /-- the source's signal line is asserted (R260) -/
  level : Bool
  /-- requests the gateway has sent and the core has not accepted: the source's queue (R264) -/
  requests : Nat
  /-- the target that claimed the source's request and has not completed it (R266; log 19) -/
  claimedBy : Option Nat
  deriving DecidableEq, Repr

/-- The PLIC core's state of one target. -/
structure PlicTarget where
  /-- `IE[t][s]` for s = 1, 2, … -/
  ie : List Bool
  /-- `thr[t]`, a legal (WARL) value -/
  thr : Word
  /-- the EIP value last delivered to the target (R258) -/
  seen : Bool
  /-- claim responses sent to the target and not yet taken, oldest first -/
  responses : List Nat
  deriving DecidableEq, Repr

/-- A register write request waiting for the PLIC core (R263). -/
structure PlicWrite where
  reg : PlicReg
  value : Word
  deriving DecidableEq, Repr

/-- The PLIC: its sources (ID 1 first), its targets (number 0 first) and its message queues, oldest message first. -/
structure Plic where
  sources : List PlicSource
  targets : List PlicTarget
  writes : List PlicWrite
  /-- claims sent by targets that are not this hart's loads -/
  claims : List Nat
  /-- completions (target, source ID) -/
  completions : List (Nat × Nat)
  deriving DecidableEq, Repr

/-- A store of the hart to a PLIC register that the PLIC has not seen yet: the register, the value and the store's number in the
history (20_memory.md R60; log 38). -/
structure PostedStore where
  reg : PlicReg
  value : Word
  event : Nat
  deriving DecidableEq, Repr

/-- An access of the hart that the PLIC has seen before the hart came to it (20_memory.md R60; log 38): the number it is to have in
the history, whether it is a store, its address and width, the value answered or stored; and what the PLIC had not seen then: every
event from number `seenAt` on, but for those of `earlier`, and the stores still on their way, `waiting`. -/
structure EarlyAccess where
  event : Nat
  store : Bool
  addr : Word
  width : Nat
  value : Word
  seenAt : Nat
  earlier : List Nat
  waiting : List Nat
  deriving DecidableEq, Repr

/-- No PLIC: PLIC_PRESENT = false (00_scope.md R8). -/
def Plic.absent : Plic := { sources := [], targets := [], writes := [], claims := [], completions := [] }

/-! ### The other agents' turns (00_scope.md R13; log 17) -/

/-- A local interrupt source of the hart (60_exceptions.md R240, R243). -/
inductive LocalSource where
  | software (m : Mode)
  | timer (m : Mode)
  | platform (n : Nat)
  deriving DecidableEq, Repr

/-- One atomic action of an agent other than the hart. -/
inductive AgentAction where
  /-- a store of a device or another bus agent to main memory is performed (20_memory.md R61; log 26) -/
  | memoryWrite (cells : List Host.Cell)
  /-- a local source's condition is raised or lowered (60_exceptions.md R241) -/
  | localLevel (src : LocalSource) (asserted : Bool)
  /-- a PLIC source asserts or deasserts its line (R260) -/
  | sourceLevel (source : Nat) (asserted : Bool)
  /-- a PLIC source's signal edge, or its message (R261, R262) -/
  | sourceEdge (source : Nat)
  /-- PLIC core: Accept Request (R264) -/
  | acceptRequest (source : Nat)
  /-- PLIC core: Write Register (R263) -/
  | writeRegister
  /-- PLIC core: Process Claim (R265) -/
  | processClaim
  /-- a gateway receives the oldest completion message (R266) -/
  | deliverCompletion
  /-- the notification process delivers EIP to a target (R258) -/
  | notifyTarget (target : Nat)
  /-- a target sends a claim message (R265, R267) -/
  | sendClaim (target : Nat)
  /-- another bus agent writes a PLIC register (R263, R266) -/
  | busWrite (reg : PlicReg) (value : Word)
  /-- a target takes its oldest claim response (R265) -/
  | takeResponse (target : Nat)
  /-- a store of the hart reaches the PLIC: the `k`-th of those on their way (20_memory.md R60; log 38) -/
  | deliverStore (k : Nat)
  /-- the PLIC answers a load of the hart, the hart's event number `event`, ahead of the instruction (20_memory.md R60; log 38) -/
  | answerAhead (event : Nat) (addr : Word) (width : Nat)
  /-- a store of the hart, its event number `event`, reaches the PLIC ahead of the instruction (20_memory.md R60; log 38) -/
  | storeAhead (event : Nat) (addr : Word) (width : Nat) (value : Word)
  deriving DecidableEq, Repr

/-- Whose turn it is: the hart's, for one instruction, or another agent's, for one action. -/
inductive Turn where
  | hart
  | act (a : AgentAction)
  deriving DecidableEq, Repr

/-! ### Reasons to stop -/

/-- Why the machine stops with no next state. -/
inductive Fault where
  /-- raised by the hart's turn when it has halted with this trap record: "it takes no further step" (60_exceptions.md
  R232). Safe: the spec stops here too. -/
  | halted (rec : TrapRecord)
  deriving DecidableEq, Repr

/-- Why a run has no meaning. -/
inductive Refusal where
  /-- raised by an arm of exec whose instruction has no meaning yet; no arm is left so -/
  | notModelled (mnemonic : String)
  /-- raised by a fetch of a byte that a store has written, with CODE_WRITABLE = false (20_memory.md R63). Safe: the spec
  refuses such a run. -/
  | storedByteFetched
  /-- raised when a PLIC gateway receives a completion that 60_exceptions.md R266 leaves unspecified. Safe: the spec refuses
  such a run. -/
  | completionUnspecified
  /-- raised by the hart's turn when NUM_HARTS is not 1: no memory model is supplied (20_memory.md R62). Safe. -/
  | severalHarts
  /-- raised by the hart's turn when INTERRUPTS = true, to which the spec gives no behaviour (60_exceptions.md R246). Safe. -/
  | interruptsEnabled
  deriving DecidableEq, Repr

/-! ### The state -/

/-- The machine's state. -/
structure State where
  /-- x1 to x31; x0 is hardwired and stored nowhere (10_state.md R21, R22) -/
  regs : Vector Word 31
  /-- the address of the current instruction (10_state.md R24) -/
  pc : Word
  /-- main memory as (address, byte) pairs: addresses strictly rising, no byte equal to what an unlisted address reads as -/
  mem : List Host.Cell
  /-- the record the hart halted with, none while it runs (60_exceptions.md R232) -/
  trap : Option TrapRecord
  /-- the parameters of 00_scope.md R8; no step changes them (log 1) -/
  config : Config
  /-- MODEL: every (address, byte) a store has replaced (20_memory.md R63; log 15) -/
  overwritten : List Host.Cell
  /-- MODEL: the hart's history, oldest event first (43_memory_ordering.md R197; log 14) -/
  events : List Event
  /-- MODEL: how many free values have been drawn (log 29) -/
  draws : Nat
  /-- the PLIC's state; `Plic.absent` when there is none -/
  plic : Plic
  /-- MODEL: the hart's stores to the PLIC that it has not seen yet, oldest first (20_memory.md R60; log 38) -/
  posted : List PostedStore
  /-- MODEL: the hart's accesses that the PLIC has seen before the hart came to them (20_memory.md R60; log 38) -/
  ahead : List EarlyAccess
  /-- the local interrupt sources whose pending bit is set, no repeats (60_exceptions.md R241; log 27) -/
  localPending : List LocalSource
  /-- MODEL: whose turns come next; the hart's when the list is empty (log 17) -/
  agenda : List Turn
  deriving DecidableEq, Repr

/-- The machine right after reset with the default configuration and no image (10_state.md R37, 70_reset_and_hazards.md
R280). x1 to x31 and RESET_PC are DESIGN CHOICE 0 (logs 2, 3); `State.boot` is reset for any configuration, image, register
content and PLIC state. -/
def State.reset : State :=
  { regs := Vector.replicate 31 0, pc := Config.default.resetPc, mem := [], trap := none, config := Config.default,
    overwritten := [], events := [], draws := 0, plic := Plic.absent, posted := [], ahead := [], localPending := [], agenda := [] }

end Sys2Proof.Machine
end

