-- ==== Sys2Proof/WellFormed.lean ====
section
/-! DEFINITION. Which instruction terms an encoding can produce. Register numbers and immediates have the width of their
fields, so three checks are left: a branch offset is even (30_encoding.md R80), a JAL offset is even (R82), and the FENCE
term with the fields of FENCE.TSO is written as FENCE.TSO (R84: FENCE.TSO lies inside FENCE; log 23). -/

namespace Sys2Proof

/-- A branch offset has bit 0 clear (30_encoding.md R80: "Bit 0 is always 0"). -/
def branchOffsetOk (offset : BitVec 13) : Bool := !offset.getLsbD 0

/-- A JAL offset has bit 0 clear (30_encoding.md R82). -/
def jumpOffsetOk (offset : BitVec 21) : Bool := !offset.getLsbD 0

/-- The three fields that make a FENCE word a FENCE.TSO (43_memory_ordering.md R193). -/
def isTsoFields (fm pred succ : BitVec 4) : Bool := fm == 0b1000#4 && pred == 0b0011#4 && succ == 0b0011#4

/-- The terms that stand for a word of 30_encoding.md R85. -/
def Instr.wellFormed : Instr → Bool
  | .jal _ offset => jumpOffsetOk offset
  | .beq _ _ offset => branchOffsetOk offset
  | .bne _ _ offset => branchOffsetOk offset
  | .blt _ _ offset => branchOffsetOk offset
  | .bge _ _ offset => branchOffsetOk offset
  | .bltu _ _ offset => branchOffsetOk offset
  | .bgeu _ _ offset => branchOffsetOk offset
  | .fence fm pred succ _ _ => !isTsoFields fm pred succ
  | .lui .. => true
  | .auipc .. => true
  | .jalr .. => true
  | .lb .. => true
  | .lh .. => true
  | .lw .. => true
  | .lbu .. => true
  | .lhu .. => true
  | .sb .. => true
  | .sh .. => true
  | .sw .. => true
  | .addi .. => true
  | .slti .. => true
  | .sltiu .. => true
  | .xori .. => true
  | .ori .. => true
  | .andi .. => true
  | .slli .. => true
  | .srli .. => true
  | .srai .. => true
  | .add .. => true
  | .sub .. => true
  | .sll .. => true
  | .slt .. => true
  | .sltu .. => true
  | .xor .. => true
  | .srl .. => true
  | .sra .. => true
  | .or .. => true
  | .and .. => true
  | .ecall => true
  | .ebreak => true
  | .fenceTso .. => true

end Sys2Proof
end

