-- ==== Sys2Proof/Machine/Ordering.lean ====
section
/-! DEFINITION. The order FENCEs oblige the memory system to keep (43_memory_ordering.md R190 to R194), as functions over the hart's
history. -/

namespace Sys2Proof.Machine

/-- `pred` or `succ` as a set of kinds, from the high bit down I, O, R, W (30_encoding.md R83 (b)). -/
def kindsOf (bits : BitVec 4) : KindSet :=
  { i := bits.getLsbD 3, o := bits.getLsbD 2, r := bits.getLsbD 1, w := bits.getLsbD 0 }

/-- Some kind is in both sets. An access has two kinds at once only if it is a supported misaligned one that spans main memory and
I/O (20_memory.md R52); 43_memory_ordering.md R190 and R191 do not say how a FENCE that names only one of the two orders it.
DESIGN CHOICE, unsafe (log 36): the FENCE orders the whole access, its bytes of the other kind too. -/
def KindSet.meets (a b : KindSet) : Bool := a.i && b.i || a.o && b.o || a.r && b.r || a.w && b.w

/-- Whether a FENCE with these fields orders an earlier operation of kinds `a` before a later one of kinds `b`: as FENCE.TSO
with `fm = 1000`, `pred = succ = RW` (R193), as a normal fence on `pred`, `succ` otherwise, reserved settings included
(R192, R194). An operation with two kinds is ordered if one of them is (log 36). -/
def fenceOrders (fm pred succ : BitVec 4) (a b : KindSet) : Bool :=
  if isTsoFields fm pred succ then a.r && (b.r || b.w) || a.w && b.w
  else (kindsOf pred).meets a && (kindsOf succ).meets b

/-- Some FENCE of the history after event `i` orders it before an operation of kinds `b` that comes next (R190). -/
def fencedBefore (history : List Event) (i : Nat) (b : KindSet) : Bool :=
  (List.range history.length).any fun k => decide (i < k) &&
    match history[i]?, history[k]? with
    | some (.access a _ _ _), some (.fence fm pred succ) => fenceOrders fm pred succ a b
    | _, _ => false

/-- The history obliges the memory system to let no other hart and no device observe event `j` before event `i`: some FENCE
between them orders the one before the other (R190). -/
def mustPrecede (history : List Event) (i j : Nat) : Bool :=
  match history[j]? with
  | some (.access b _ _ _) => fencedBefore (history.take j) i b
  | _ => false

end Sys2Proof.Machine
end

