-- ==== Sys2Proof/Machine/Memory.lean ====
section
/-! DEFINITION. Main memory as a list of cells in one canonical form (20_memory.md R40), the memory map (R52), and the
well-formedness of a configuration (00_scope.md R8). -/

namespace Sys2Proof.Machine

/-- What an address that no cell lists reads as. The spec calls such bytes unspecified (10_state.md R37): 0 is a DESIGN
CHOICE, unsafe (log 5). -/
def unlistedByte : Byte := 0

/-- The byte at an address. -/
def Memory.read : List Host.Cell → Nat → Byte
  | [], _ => unlistedByte
  | (k, b) :: rest, a => if k = a then b else Memory.read rest a

/-- Write one byte, keeping the canonical form: a byte equal to what an unlisted address reads as is not listed. -/
def Memory.write : List Host.Cell → Nat → Byte → List Host.Cell
  | [], a, b => if b = unlistedByte then [] else [(a, b)]
  | (k, c) :: rest, a, b =>
    if a < k then (if b = unlistedByte then (k, c) :: rest else (a, b) :: (k, c) :: rest)
    else if a = k then (if b = unlistedByte then rest else (a, b) :: rest)
    else (k, c) :: Memory.write rest a b

/-- Write bytes one after another. -/
def Memory.writeAll (m : List Host.Cell) (cells : List Host.Cell) : List Host.Cell :=
  cells.foldl (fun m cell => Memory.write m cell.1 cell.2) m

/-- Addresses rise strictly from `low` on, stay below 2^32, and no listed byte is the unlisted one. -/
def Memory.wfFrom : Nat → List Host.Cell → Bool
  | _, [] => true
  | low, (k, b) :: rest => decide (low ≤ k) && decide (k < 4294967296) && b != unlistedByte && Memory.wfFrom (k + 1) rest

/-- The canonical form: equal memories are equal lists. -/
def Memory.wf (m : List Host.Cell) : Bool := Memory.wfFrom 0 m

/-! ### Addresses of an access -/

/-- The address of byte `i` of an access at `a`: `(a + i) mod 2^32` (20_memory.md R41, R58). -/
def byteAddr (a : Word) (i : Nat) : Nat := (a + BitVec.ofNat 32 i).toNat

/-- The addresses of an `n`-byte access at `a`, first byte first. -/
def accessAddrs (a : Word) (n : Nat) : List Nat := (List.range n).map (byteAddr a)

/-- Naturally aligned: `addr mod n = 0` (20_memory.md R47). -/
def isAligned (a : Word) (n : Nat) : Bool := a.toNat % n == 0

/-! ### The memory map (20_memory.md R52) -/

/-- The region holds the byte at address `a`. -/
def Region.holds (r : Region) (a : Nat) : Bool := decide (r.base ≤ a) && decide (a < r.base + r.size)

/-- The region supports accesses of `n` bytes. -/
def Region.hasWidth (r : Region) (n : Nat) : Bool :=
  match n with
  | 1 => r.width1
  | 2 => r.width2
  | 4 => r.width4
  | _ => false

/-- The region's permissions and widths contain the access; a fetch needs main memory. -/
def Region.permits (r : Region) (n : Nat) (k : Access) : Bool :=
  Region.hasWidth r n &&
  match k with
  | .fetch => r.fetch && r.kind == .main
  | .load => r.load
  | .store => r.store

/-- `MEMMAP.allows(addr, n, k)`: every byte lies in one region that permits the access (20_memory.md R52). -/
def mapAllows (regions : List Region) (a : Word) (n : Nat) (k : Access) : Bool :=
  regions.any fun r => Region.permits r n k && (accessAddrs a n).all (Region.holds r)

/-- A misaligned access under `support` may span two regions, each of which permits the access (20_memory.md R52;
log 12). -/
def mapAllowsSpanning (regions : List Region) (a : Word) (n : Nat) (k : Access) : Bool :=
  regions.any fun r => Region.permits r n k &&
    regions.any fun q => Region.permits q n k && (accessAddrs a n).all fun b => Region.holds r b || Region.holds q b

/-- The byte at `a` lies in a region of kind I/O (20_memory.md R54). -/
def isDevice (regions : List Region) (a : Nat) : Bool :=
  regions.any fun r => r.kind == .io && Region.holds r a

/-- The byte at `a` lies in a region of main memory. -/
def isMain (regions : List Region) (a : Nat) : Bool :=
  regions.any fun r => r.kind == .main && Region.holds r a

/-- The cells whose address is one of main memory's. -/
def mainCells (regions : List Region) (cells : List Host.Cell) : List Host.Cell :=
  cells.filter fun c => isMain regions c.1 && decide (c.1 < 4294967296)

/-! ### Well-formed configurations -/

/-- The two regions share no byte. -/
def Region.disjoint (r q : Region) : Bool := decide (r.base + r.size ≤ q.base) || decide (q.base + q.size ≤ r.base)

/-- Each region lies in the address space and no two overlap (20_memory.md R52: "a finite list of disjoint regions"). -/
def mapWf : List Region → Bool
  | [] => true
  | r :: rest => decide (r.base + r.size ≤ 4294967296) && rest.all (Region.disjoint r) && mapWf rest

/-- A register's hardwired bits do not contradict each other. -/
def WarlMask.wf (k : WarlMask) : Bool := k.ones &&& k.zeros == 0

/-- The value lies in one of the ranges. -/
def inRanges (ranges : List ValueRange) (v : Word) : Bool :=
  ranges.any fun r => decide (r.low.toNat ≤ v.toNat) && decide (v.toNat ≤ r.high.toNat)

/-- The register map names a register the instance has, as an access inside one I/O region (60_exceptions.md R268). -/
def PlicEntry.wf (regions : List Region) (p : PlicParams) (e : PlicEntry) : Bool :=
  (match e.reg with
   | .priority s => decide (1 ≤ s) && decide (s ≤ p.sources.length)
   | .pending _ count => decide (count ≤ 8 * e.width)
   | .enable t _ count => decide (t < p.targets.length) && decide (count ≤ 8 * e.width)
   | .threshold t => decide (t < p.targets.length)
   | .claimComplete t => decide (t < p.targets.length)) &&
  (e.width == 1 || e.width == 2 || e.width == 4) &&
  regions.any fun r => r.kind == .io && decide (r.base ≤ e.addr) && decide (e.addr + e.width ≤ r.base + r.size)

/-- A PLIC instance: masks without contradiction, and thresholds "always able to hold the value zero"
(60_exceptions.md R254 to R256). -/
def PlicParams.wf (regions : List Region) (p : PlicParams) : Bool :=
  p.sources.all (fun s => WarlMask.wf s.prio) &&
  p.targets.all (fun t => inRanges t.thr 0 && t.ieOnes.all fun s => !t.ieZeros.contains s) &&
  p.registers.all (PlicEntry.wf regions p)

/-- A configuration the environment may supply: a map of disjoint regions, RESET_PC a multiple of 4 (00_scope.md R8,
70_reset_and_hazards.md R280), a PLIC instance whose parameters make sense. -/
def Config.wf (c : Config) : Bool :=
  mapWf c.memMap && isAligned c.resetPc 4 &&
  match c.plic with
  | none => true
  | some p => PlicParams.wf c.memMap p

end Sys2Proof.Machine
end

