-- ==== Sys2Proof/Machine/Plic.lean ====
section
/-! DEFINITION. The platform-level interrupt controller (60_exceptions.md section 60.8): its combinational functions, the
atomic actions of its core (R263 to R265), its gateways (R259 to R262, R266) and its notifications (R258). Source IDs
start at 1 (R252), target numbers at 0. -/

namespace Sys2Proof.Machine

/-! ### WARL registers (60_exceptions.md R254, R255) -/

/-- The value a WARL register holds after a write of `v`: `(v & ~H0) | H1` (R254). -/
def WarlMask.legalise (k : WarlMask) (v : Word) : Word := (v &&& ~~~k.zeros) ||| k.ones

/-- The value a threshold register holds after a write of `v`: `v` if it is legal, else a legal value that is free (R256;
log 21). -/
def legalThreshold (ranges : List ValueRange) (draw target : Nat) (v : Word) : Word :=
  let choice := Config.legalThreshold draw target v
  if inRanges ranges v then v
  else if inRanges ranges choice then choice
  else ((ranges.find? fun r => decide (r.low.toNat ≤ r.high.toNat)).map ValueRange.low).getD 0

/-- The value an IE bit holds after a write of `b` (R255: WARL, may be hardwired to 0 or 1). -/
def legalEnable (tp : TargetParams) (s : Nat) (b : Bool) : Bool :=
  tp.ieOnes.contains s || (b && !tp.ieZeros.contains s)

/-! ### Access to sources and targets -/

/-- The state of source `s`; ID 0 means no interrupt and names no source (R252). -/
def Plic.source? (pl : Plic) : Nat → Option PlicSource
  | 0 => none
  | k + 1 => pl.sources[k]?

/-- The parameters of source `s`. -/
def sourceParams? (p : PlicParams) : Nat → Option SourceParams
  | 0 => none
  | k + 1 => p.sources[k]?

/-- Change the state of source `s`, if there is one. -/
def Plic.modifySource (pl : Plic) (s : Nat) (f : PlicSource → PlicSource) : Plic :=
  match s with
  | 0 => pl
  | k + 1 => { pl with sources := pl.sources.modify k f }

/-- Change the state of target `t`, if there is one. -/
def Plic.modifyTarget (pl : Plic) (t : Nat) (f : PlicTarget → PlicTarget) : Plic :=
  { pl with targets := pl.targets.modify t f }

/-- `IE[t][s]`. -/
def PlicTarget.enabled (tt : PlicTarget) : Nat → Bool
  | 0 => false
  | k + 1 => tt.ie.getD k false

/-- The IDs of the PLIC's sources: 1 to PLIC_NSOURCES (R250). -/
def Plic.ids (pl : Plic) : List Nat := (List.range pl.sources.length).map (· + 1)

/-! ### EIP (60_exceptions.md R257) -/

/-- `active(t, s)`: pending and enabled (R257). -/
def Plic.active (pl : Plic) (t s : Nat) : Bool :=
  match pl.targets[t]?, pl.source? s with
  | some tt, some ss => ss.ip && tt.enabled s
  | _, _ => false

/-- `prio[s]` as an unsigned number (R253); 0 for an ID that names no source. -/
def Plic.prioOf (pl : Plic) (s : Nat) : Nat :=
  match pl.source? s with
  | some ss => ss.prio.toNat
  | none => 0

/-- `thr[t]` as an unsigned number (R256); 0 for a number that names no target. -/
def Plic.thrOf (pl : Plic) (t : Nat) : Nat :=
  match pl.targets[t]? with
  | some tt => tt.thr.toNat
  | none => 0

/-- `EIP[t]`: some active source has a priority strictly greater than the threshold (R257). -/
def Plic.eip (pl : Plic) (t : Nat) : Bool :=
  pl.ids.any fun s => pl.active t s && decide (pl.thrOf t < pl.prioOf s)

/-! ### Claims (60_exceptions.md R253, R265) -/

/-- Source `a` beats source `b`: higher priority, or equal priority and smaller ID (R253). -/
def Plic.beats (pl : Plic) (a b : Nat) : Bool :=
  decide (pl.prioOf b < pl.prioOf a) || (pl.prioOf a == pl.prioOf b && decide (a < b))

/-- The sources a claim of target `t` considers: active, of a priority other than 0; the threshold is not consulted
(R265). -/
def Plic.candidates (pl : Plic) (t : Nat) : List Nat :=
  pl.ids.filter fun s => pl.active t s && pl.prioOf s != 0

/-- The source of the list that beats all others (R253), none of an empty list. -/
def Plic.best (pl : Plic) : List Nat → Option Nat
  | [] => none
  | s :: rest =>
    match Plic.best pl rest with
    | none => some s
    | some q => if pl.beats s q then some s else some q

/-- Process Claim for target `t` (R265): the ID answered, 0 if there is no candidate, and the PLIC with that source's IP
bit cleared and its claim noted (log 19). -/
def Plic.claim (pl : Plic) (t : Nat) : Nat × Plic :=
  match pl.best (pl.candidates t) with
  | none => (0, pl)
  | some s => (s, pl.modifySource s fun ss => { ss with ip := false, claimedBy := some t })

/-- Process Claim with its response enqueued to the requester (R265). -/
def Plic.respond (pl : Plic) (t : Nat) : Plic :=
  (pl.claim t).2.modifyTarget t fun tt => { tt with responses := tt.responses ++ [(pl.claim t).1] }

/-- Core action Process Claim on the oldest claim message (R265). -/
def Plic.processClaim (pl : Plic) : Plic :=
  match pl.claims with
  | [] => pl
  | t :: rest => Plic.respond { pl with claims := rest } t

/-! ### Register writes (60_exceptions.md R263) -/

/-- IE bits of target `tp` after a write of `v` to the enable register that starts at source `first`. -/
def writeEnables (tp : TargetParams) (first count : Nat) (v : Word) (ie : List Bool) : List Bool :=
  ie.mapIdx fun k b =>
    if first ≤ k + 1 ∧ k + 1 < first + count then legalEnable tp (k + 1) (v.getLsbD (k + 1 - first)) else b

/-- The effect of one register write: a priority, an enable or a threshold takes its legal value; nothing else is writable
(R263; 90_conflicts.md C4). -/
def Plic.applyWrite (p : PlicParams) (draw : Nat) (pl : Plic) (w : PlicWrite) : Plic :=
  match w.reg with
  | .priority s =>
    match sourceParams? p s with
    | some sp => pl.modifySource s fun ss => { ss with prio := WarlMask.legalise sp.prio w.value }
    | none => pl
  | .enable t first count =>
    match p.targets[t]? with
    | some tp => pl.modifyTarget t fun tt => { tt with ie := writeEnables tp first count w.value tt.ie }
    | none => pl
  | .threshold t =>
    match p.targets[t]? with
    | some tp => pl.modifyTarget t fun tt => { tt with thr := legalThreshold tp.thr draw t w.value }
    | none => pl
  | .pending .. => pl
  | .claimComplete _ => pl

/-- Core action Write Register on the oldest write request (R263). -/
def Plic.writeRegister (p : PlicParams) (draw : Nat) (pl : Plic) : Plic :=
  match pl.writes with
  | [] => pl
  | w :: rest => Plic.applyWrite p draw { pl with writes := rest } w

/-! ### Gateways (60_exceptions.md R259 to R262, R264, R266) -/

/-- `forward(s)`: one request to the core, the gateway busy (R259). -/
def PlicSource.forward (ss : PlicSource) : PlicSource := { ss with busy := true, requests := ss.requests + 1 }

/-- The gateway has a request to forward: an asserted level (R260), or counted edges (R261). -/
def PlicSource.wants (ss : PlicSource) (g : Gateway) : Bool :=
  match g with
  | .level => ss.level
  | .edgeCounting => decide (0 < ss.cnt)
  | .edgeIgnoring => false

/-- Forward at once whatever the gateway has to forward, unless it is busy (R260, R261; log 20). -/
def PlicSource.settle (ss : PlicSource) (g : Gateway) : PlicSource :=
  if ss.wants g && !ss.busy then ss.forward else ss

/-- The source's line moves (R260). Only a level-sensitive gateway reads the line. -/
def PlicSource.setLevel (ss : PlicSource) (g : Gateway) (asserted : Bool) : PlicSource :=
  match g with
  | .level => PlicSource.settle { ss with level := asserted } g
  | .edgeIgnoring => ss
  | .edgeCounting => ss

/-- A signal edge or a message (R261, R262): counted, forwarded, or lost while the gateway is busy. -/
def PlicSource.edge (ss : PlicSource) (g : Gateway) : PlicSource :=
  match g with
  | .level => ss
  | .edgeIgnoring => if ss.busy then ss else ss.forward
  | .edgeCounting => PlicSource.settle { ss with cnt := ss.cnt + 1 } g

/-- Accept Request (R264): with a request waiting and IP clear, IP is set and a counting gateway's counter drops by 1. -/
def PlicSource.accept (ss : PlicSource) (g : Gateway) : PlicSource :=
  if 0 < ss.requests ∧ ss.ip = false then
    { ss with ip := true, requests := ss.requests - 1, cnt := if g = .edgeCounting then ss.cnt - 1 else ss.cnt }
  else ss

/-- The gateway hears that its request's service is complete (R259, R260, R266). -/
def PlicSource.release (ss : PlicSource) (g : Gateway) : PlicSource :=
  PlicSource.settle { ss with busy := false, claimedBy := none } g

/-- Apply a gateway operation to source `s`, with its gateway kind. -/
def Plic.atGateway (p : PlicParams) (pl : Plic) (s : Nat) (f : PlicSource → Gateway → PlicSource) : Plic :=
  match sourceParams? p s with
  | some sp => pl.modifySource s fun ss => f ss sp.gateway
  | none => pl

/-- A completion of source `s` by target `t` (R266): ignored if `IE[t][s] = 0`; it releases the gateway if `t` holds the
claim of `s`; anything else is unspecified and the run is refused (log 19). -/
def Plic.complete (p : PlicParams) (pl : Plic) (t s : Nat) : Except Refusal Plic :=
  match pl.targets[t]?, pl.source? s with
  | some tt, some ss =>
    if !tt.enabled s then .ok pl
    else if ss.claimedBy = some t then .ok (pl.atGateway p s PlicSource.release)
    else .error .completionUnspecified
  | _, _ => .error .completionUnspecified

/-- A gateway receives the oldest completion message (R266). -/
def Plic.deliverCompletion (p : PlicParams) (pl : Plic) : Except Refusal Plic :=
  match pl.completions with
  | [] => .ok pl
  | (t, s) :: rest => Plic.complete p { pl with completions := rest } t s

/-! ### Notifications (60_exceptions.md R258) -/

/-- The notification process delivers the present EIP to target `t` (R258). -/
def Plic.notify (pl : Plic) (t : Nat) : Plic := pl.modifyTarget t fun tt => { tt with seen := pl.eip t }

/-! ### The register map (60_exceptions.md R268; log 18) -/

/-- The register an `n`-byte access at address `a` reaches. -/
def plicRegisterAt (p : PlicParams) (a n : Nat) : Option PlicReg :=
  (p.registers.find? fun e => e.addr == a && e.width == n).map PlicEntry.reg

/-- Bits as a word, the first in bit 0. -/
def packBits : List Bool → Word
  | [] => 0
  | b :: rest => (packBits rest <<< 1) ||| (if b then 1 else 0)

/-- All claims that wait are processed, oldest first (R265, R268). -/
def Plic.drainClaims (pl : Plic) : Plic := pl.claims.foldl Plic.respond { pl with claims := [] }

/-- The PLIC's answer to a load of the hart from one of its registers: the value and the PLIC after it. A register reads as it is
now, whatever write requests still wait (R268: the actions come in any order that respects each queue); a load of a claim register
is a claim (R265: "a non-idempotent memory-mapped I/O control register read"), and the claims that came before it are processed
first (log 18). -/
def Plic.readReg (pl : Plic) (reg : PlicReg) : Word × Plic :=
  match reg with
  | .priority s => (BitVec.ofNat 32 (pl.prioOf s), pl)
  | .pending first count =>
    (packBits ((List.range count).map fun k => match pl.source? (first + k) with | some ss => ss.ip | none => false), pl)
  | .enable t first count =>
    (packBits ((List.range count).map fun k => match pl.targets[t]? with
      | some tt => tt.enabled (first + k) | none => false), pl)
  | .threshold t => (BitVec.ofNat 32 (pl.thrOf t), pl)
  | .claimComplete t =>
    let r := pl.drainClaims.claim t
    (BitVec.ofNat 32 r.1, r.2)

/-- A store that reaches the PLIC is a message: a completion for a claim/complete register (R266), a write request for any other
(R263). A pending register ignores it (90_conflicts.md C4). -/
def Plic.writeReg (pl : Plic) (reg : PlicReg) (v : Word) : Plic :=
  match reg with
  | .claimComplete t => { pl with completions := pl.completions ++ [(t, v.toNat)] }
  | .pending .. => pl
  | .priority s => { pl with writes := pl.writes ++ [⟨.priority s, v⟩] }
  | .enable t first count => { pl with writes := pl.writes ++ [⟨.enable t first count, v⟩] }
  | .threshold t => { pl with writes := pl.writes ++ [⟨.threshold t, v⟩] }

/-! ### A PLIC right after reset (70_reset_and_hazards.md R283) -/

/-- One legal start state: every writable bit 0. DESIGN CHOICE (log 22). -/
def Plic.initial (p : PlicParams) : Plic :=
  { sources := p.sources.map fun sp =>
      { ip := false, prio := WarlMask.legalise sp.prio 0, busy := false, cnt := 0, level := false, requests := 0,
        claimedBy := none },
    targets := p.targets.map fun tp =>
      { ie := (List.range p.sources.length).map fun k => legalEnable tp (k + 1) false,
        thr := 0, seen := false, responses := [] },
    writes := [], claims := [], completions := [] }

end Sys2Proof.Machine
end

