-- ==== Sys2Proof/Machine/Channel.lean ====
section
/-! DEFINITION. The way between the hart and the PLIC, a device that observes the hart's accesses. Only FENCEs order them there
(20_memory.md R60, 70_reset_and_hazards.md R288): a store waits in State.posted until it is delivered, and the PLIC may
see a load or a store ahead of the instruction, in State.ahead. The agenda says when (log 38). -/

namespace Sys2Proof.Machine

/-- The kinds of a load from a device (43_memory_ordering.md R191). -/
def deviceInput : KindSet := { i := true, o := false, r := false, w := false }

/-- The kinds of a store to a device (43_memory_ordering.md R191). -/
def deviceOutput : KindSet := { i := false, o := true, r := false, w := false }

/-- The PLIC register an access that lies wholly in I/O reaches, with the PLIC's parameters (log 18). -/
def plicAccess (s : State) (a : Word) (n : Nat) : Option (PlicParams × PlicReg) :=
  match s.config.plic with
  | none => none
  | some p =>
    if (accessAddrs a n).all (isDevice s.config.memMap) then (plicRegisterAt p a.toNat n).map fun reg => (p, reg)
    else none

/-- The low `n` bytes of a value, zero-extended. -/
def lowBytes (n : Nat) (v : Word) : Word := BitVec.ofNat 32 (v.toNat % 2 ^ (8 * n))

/-! ### Stores on their way -/

/-- A store of the hart reaches the PLIC: its message stands in the PLIC's queue (60_exceptions.md R263, R266). -/
def Plic.receive (pl : Plic) (q : PostedStore) : Plic := pl.writeReg q.reg q.value

/-- The `k`-th store on its way reaches the PLIC, unless a FENCE orders an older one that is still on its way before it
(43_memory_ordering.md R190). Without a PLIC there is nothing to reach. -/
def State.deliverStore (s : State) (k : Nat) : State :=
  match s.config.plic, s.posted[k]? with
  | some _, some q =>
    if (s.posted.take k).any fun e => mustPrecede s.events e.event q.event then s
    else { s with plic := s.plic.receive q, posted := s.posted.eraseIdx k }
  | _, _ => s

/-- The stores on their way, parted: those that FENCEs order before an operation of kinds `b` that comes next, or before another
such store; and the rest. -/
def splitPosted (history : List Event) (b : KindSet) : List PostedStore → List PostedStore × List PostedStore
  | [] => ([], [])
  | q :: rest =>
    let r := splitPosted history b rest
    if fencedBefore history q.event b || r.1.any fun e => mustPrecede history q.event e.event then (q :: r.1, r.2)
    else (r.1, q :: r.2)

/-- The stores that must reach the PLIC before an operation of kinds `b` do so, oldest first. -/
def State.arriveBefore (s : State) (b : KindSet) : State :=
  let r := splitPosted s.events b s.posted
  { s with plic := r.1.foldl Plic.receive s.plic, posted := r.2 }

/-! ### Accesses ahead of their instruction -/

/-- The PLIC sees, now, an access that is to be event number `event` of the hart. It cannot see one the hart has passed, nor one
twice. -/
def State.seeAhead (s : State) (event : Nat) (store : Bool) (a : Word) (n : Nat) (value : Word) (pl : Plic) : State :=
  if event < s.events.length ∨ event ∈ s.ahead.map EarlyAccess.event then s
  else
    { s with plic := pl,
             ahead := s.ahead ++ [{ event := event, store := store, addr := a, width := n, value := value,
                                    seenAt := s.events.length, earlier := s.ahead.map EarlyAccess.event,
                                    waiting := s.posted.map PostedStore.event }] }

/-- The PLIC answers a load ahead of the instruction. A load that reaches no register gets no answer. -/
def State.answerAhead (s : State) (event : Nat) (a : Word) (n : Nat) : State :=
  match plicAccess s a n with
  | none => s
  | some (_, reg) => s.seeAhead event false a n (lowBytes n (s.plic.readReg reg).1) (s.plic.readReg reg).2

/-- A store reaches the PLIC ahead of the instruction, if it reaches a register at all. -/
def State.storeAhead (s : State) (event : Nat) (a : Word) (n : Nat) (v : Word) : State :=
  match plicAccess s a n with
  | none => s
  | some (_, reg) =>
    s.seeAhead event true a n (lowBytes n v) (s.plic.receive { reg := reg, value := lowBytes n v, event := event })

/-- Event `i` of the hart is one the PLIC had not seen when it saw `e`: still to come, and not seen before `e` either, or a store on
its way. An event that stands in `ahead` when the hart has passed it was not what the PLIC took it for. -/
def EarlyAccess.missed (e : EarlyAccess) (ahead : List EarlyAccess) (i : Nat) : Bool :=
  (decide (e.seenAt ≤ i) && !(e.earlier.contains i && !(ahead.map EarlyAccess.event).contains i)) || e.waiting.contains i

/-- The PLIC may have seen the access that comes next when it did: no FENCE orders before it an access that the PLIC had not seen
then (43_memory_ordering.md R190). -/
def EarlyAccess.inOrder (e : EarlyAccess) (ahead : List EarlyAccess) (history : List Event) : Bool :=
  (List.range history.length).all fun i =>
    !(e.missed ahead i && fencedBefore history i (if e.store then deviceOutput else deviceInput))

/-- What the PLIC has seen of the load or store that comes next, of `n` bytes at `a`. -/
def State.seen? (s : State) (store : Bool) (a : Word) (n : Nat) : Option EarlyAccess :=
  s.ahead.find? fun e =>
    e.event == s.events.length && e.store == store && e.addr == a && e.width == n && e.inOrder s.ahead s.events

/-- The accesses seen ahead without the one that comes next. -/
def State.restAhead (s : State) : List EarlyAccess := s.ahead.filter fun e => e.event != s.events.length

/-- The PLIC has seen the store that comes next: `n` bytes of `v` at `a`. -/
def State.seenStore (s : State) (a : Word) (n : Nat) (v : Word) : Bool :=
  match s.seen? true a n with
  | some e => e.value == lowBytes n v
  | none => false

/-! ### Loads -/

/-- What a load gives: its value, and the PLIC and the hart's accesses on their way to it after the load. -/
structure Loaded where
  value : Word
  plic : Plic
  posted : List PostedStore
  ahead : List EarlyAccess
  deriving DecidableEq, Repr

/-- A load of the hart from a PLIC register: the answer that waits for it, or the register's once the stores that FENCEs order before
the load have reached the PLIC. -/
def State.plicLoad (s : State) (reg : PlicReg) (a : Word) (n : Nat) : Loaded :=
  match s.seen? false a n with
  | some e => { value := e.value, plic := s.plic, posted := s.posted, ahead := s.restAhead }
  | none =>
    let t := s.arriveBefore deviceInput
    let r := t.plic.readReg reg
    { value := lowBytes n r.1, plic := r.2, posted := t.posted, ahead := t.ahead }

end Sys2Proof.Machine
end

