-- ==== Sys2Proof/Machine/Flags.lean ====
section
/-! DEFINITION. RV32I has no flags and no condition codes (10_state.md R28). What stands in their place is the comparison of
two registers by a branch or a set-less-than (40_integer_computational.md R112, R113, R128, R129; 41_control_transfer.md R156
to R161), written here once. -/

namespace Sys2Proof.Machine

/-- `a <s b` (00_scope.md R10). -/
def lessSigned (a b : Word) : Bool := a.slt b

/-- `a <u b` (00_scope.md R10). -/
def lessUnsigned (a b : Word) : Bool := a.ult b

/-- `c ? 0x00000001 : 0x00000000`: the result of a set-less-than (40_integer_computational.md R112). -/
def setIf (c : Bool) : Word := if c then 1 else 0

end Sys2Proof.Machine
end

