-- ==== Sys2Proof/Machine/Operands.lean ====
section
/-! DEFINITION. The operand forms of RV32I: the five immediates as 32-bit values (30_encoding.md R78 to R82), shift amounts
(R83 (a), 40_integer_computational.md R127, R135) and the one addressing mode (42_load_store.md R170). -/

namespace Sys2Proof.Machine

/-- I-immediate: the 12-bit field sign-extended (30_encoding.md R78). -/
def immI (imm : BitVec 12) : Word := imm.signExtend 32

/-- S-immediate: the 12-bit field sign-extended (30_encoding.md R79). -/
def immS (imm : BitVec 12) : Word := imm.signExtend 32

/-- B-immediate: the 13-bit offset sign-extended (30_encoding.md R80). -/
def immB (offset : BitVec 13) : Word := offset.signExtend 32

/-- U-immediate: the 20-bit field with twelve zeros below it (30_encoding.md R81). -/
def immU (imm : BitVec 20) : Word := imm ++ 0#12

/-- J-immediate: the 21-bit offset sign-extended (30_encoding.md R82). -/
def immJ (offset : BitVec 21) : Word := offset.signExtend 32

/-- The shift amount of a register shift: the low five bits of the register's value (40_integer_computational.md R127). -/
def shiftAmount (v : Word) : Nat := (v.extractLsb' 0 5).toNat

/-- The effective address of a load or store: base plus sign-extended displacement, modulo 2^32 (42_load_store.md R170,
20_memory.md R58). -/
def effectiveAddress (base displacement : Word) : Word := base + displacement

/-- JALR's target: the sum with bit 0 cleared (41_control_transfer.md R152). -/
def jalrTarget (base displacement : Word) : Word := (base + displacement) &&& 0xFFFFFFFE#32

end Sys2Proof.Machine
end

