-- ==== Sys2Proof/Machine/Ops.lean ====
section
/-! DEFINITION. The named operations on the state that every meaning is written with: registers and pc (00_scope.md R11,
10_state.md R21 to R25), taking an exception and resuming after a serviced ECALL (60_exceptions.md R232 to R236), MemRead and
MemWrite (20_memory.md R41, R42, R46). -/

namespace Sys2Proof.Machine

/-! ### Registers and pc -/

/-- The register file's read: register 0 is hardwired to 0 (10_state.md R22). -/
def readRegs (regs : Vector Word 31) (r : Reg) : Word :=
  if h : r = 0 then 0
  else regs[r.toNat - 1]'(by have := r.isLt; have : r.toNat ≠ 0 := fun e => h (BitVec.eq_of_toNat_eq e); omega)

/-- The register file's write: a write to register 0 is discarded (10_state.md R22). -/
def writeRegs (regs : Vector Word 31) (r : Reg) (v : Word) : Vector Word 31 :=
  if h : r = 0 then regs
  else regs.set (r.toNat - 1) v (by have := r.isLt; have : r.toNat ≠ 0 := fun e => h (BitVec.eq_of_toNat_eq e); omega)

/-- `x[r]` (00_scope.md R11). -/
def State.x (s : State) (r : Reg) : Word := readRegs s.regs r

/-- `x[r] <- v` (00_scope.md R11). -/
def State.setX (s : State) (r : Reg) (v : Word) : State := { s with regs := writeRegs s.regs r v }

/-- `pc <- t` (00_scope.md R11). -/
def State.goto (s : State) (t : Word) : State := { s with pc := t }

/-- `pc <- pc + 4` (10_state.md R25), modulo 2^32 (R27). -/
def State.advance (s : State) : State := s.goto (s.pc + 4)

/-- An instruction that writes one register and goes on: `x[rd] <- v; pc <- pc + 4` (40_integer_computational.md R110). -/
def State.writeAndAdvance (s : State) (rd : Reg) (v : Word) : State := (s.setX rd v).advance

/-- The hart's history grows by one event (43_memory_ordering.md R197). -/
def State.record (s : State) (e : Event) : State := { s with events := s.events ++ [e] }

/-! ### Taking an exception -/

/-- Taking an exception: the environment gets the record (cause, pc of the raising instruction, value) and the hart halts with
it; everything else is as it was before the step (60_exceptions.md R232 to R234; log 8). -/
def State.raise (s : State) (c : Cause) (tval : Word) : State := { s with trap := some ⟨c, s.pc, tval⟩ }

/-- The cause of a misaligned access (60_exceptions.md R221, R225, R227). -/
def misalignedCause : Access → Cause
  | .fetch => .instructionAddressMisaligned
  | .load => .loadAddressMisaligned
  | .store => .storeAddressMisaligned

/-- The cause of an access the map does not allow (20_memory.md R53). -/
def accessFaultCause : Access → Cause
  | .fetch => .instructionAccessFault
  | .load => .loadAccessFault
  | .store => .storeAccessFault

/-! ### Control transfer (41_control_transfer.md R151 to R155) -/

/-- The target is four-byte aligned: `t[1:0] = 00` (41_control_transfer.md R153). -/
def targetAligned (t : Word) : Bool := t.extractLsb' 0 2 == 0#2

/-- An unconditional jump to `t` that links in `rd` (41_control_transfer.md R151, R152): a misaligned target raises, with `rd`
and pc unchanged (R153). -/
def State.jumpAndLink (s : State) (rd : Reg) (t : Word) : State :=
  if targetAligned t then (s.setX rd (s.pc + 4)).goto t else s.raise .instructionAddressMisaligned t

/-- A conditional branch (41_control_transfer.md R155): the target is checked only when the branch is taken. -/
def State.branch (s : State) (taken : Bool) (t : Word) : State :=
  if taken then (if targetAligned t then s.goto t else s.raise .instructionAddressMisaligned t) else s.advance

/-! ### Bytes and words -/

/-- Bytes as a word, the first in bits 7..0 (20_memory.md R41, little-endian). -/
def joinBytes : List Byte → Word
  | [] => 0
  | b :: rest => (joinBytes rest <<< 8) ||| b.setWidth 32

/-- The `n` low bytes of a word, bits 7..0 first (20_memory.md R42, little-endian). -/
def splitBytes (n : Nat) (v : Word) : List Byte := (List.range n).map fun i => v.extractLsb' (8 * i) 8

/-- Bytes in ascending significance to or from bytes in ascending address (20_memory.md R43). -/
def inOrder (e : Endian) (bytes : List Byte) : List Byte :=
  match e with
  | .little => bytes
  | .big => bytes.reverse

/-! ### Checks of an access (20_memory.md R46) -/

/-- What MISALIGNED says of this access (20_memory.md R48); under `perAccess` a free choice (log 11). -/
def misalignedOutcome (s : State) (a : Word) (n : Nat) : MisalignedOutcome :=
  match s.config.misaligned with
  | .always o => o
  | .perAccess =>
    match Config.misalignedChoice s.draws a.toNat n % 3 with
    | 0 => .trapMisaligned
    | 1 => .trapAccessFault
    | _ => .support

/-- `check(addr, n, kind)` (20_memory.md R46): the exception the access raises, none if it may go on. Alignment is checked
before the map. -/
def checkAccess (s : State) (a : Word) (n : Nat) (k : Access) : Option Cause :=
  if isAligned a n then
    if mapAllows s.config.memMap a n k then none else some (accessFaultCause k)
  else
    match misalignedOutcome s a n with
    | .trapMisaligned => some (misalignedCause k)
    | .trapAccessFault => some (accessFaultCause k)
    | .support => if mapAllowsSpanning s.config.memMap a n k then none else some (accessFaultCause k)

/-! ### Devices (20_memory.md R54) -/

/-- The kinds of operation a load or store is (43_memory_ordering.md R191): I and O for the bytes it moves from and to a
device, R and W for those it moves from and to main memory (log 36). -/
def accessKinds (s : State) (a : Word) (n : Nat) (k : Access) : KindSet :=
  let device := (accessAddrs a n).any (isDevice s.config.memMap)
  let memory := (accessAddrs a n).any fun b => !isDevice s.config.memMap b
  match k with
  | .fetch => ⟨false, false, false, false⟩
  | .load => ⟨device, false, memory, false⟩
  | .store => ⟨false, device, false, memory⟩

/-- An access draws a free value when a device answers it or when MISALIGNED is decided for it (logs 11, 13, 29). -/
def drawsAfter (s : State) (a : Word) (n : Nat) : Nat :=
  if (accessAddrs a n).any (isDevice s.config.memMap) ∨ (isAligned a n = false ∧ s.config.misaligned = .perAccess) then
    s.draws + 1
  else s.draws

/-- The byte a load finds at an address: a device's answer, a free value (20_memory.md R54; log 13), or main memory's byte
(R61). -/
def State.loadByte (s : State) (b : Nat) : Byte :=
  if isDevice s.config.memMap b then Config.deviceByte s.draws b else Memory.read s.mem b

/-! ### MemRead and MemWrite (20_memory.md R41, R42) -/

/-- The value of a load that passed its checks, with the PLIC's part in it. -/
def readValue (s : State) (a : Word) (n : Nat) : Loaded :=
  match plicAccess s a n with
  | some (_, reg) => s.plicLoad reg a n
  | none => { value := joinBytes (inOrder s.config.endian ((accessAddrs a n).map s.loadByte)),
              plic := s.plic, posted := s.posted, ahead := s.ahead }

/-- `MemRead(addr, n)` (20_memory.md R41): the exception it raises, or the value zero-extended to 32 bits and the state after
the read. -/
def memRead (s : State) (a : Word) (n : Nat) : Except Cause (Word × State) :=
  match checkAccess s a n .load with
  | some c => .error c
  | none =>
    let r := readValue s a n
    .ok (r.value, { s with plic := r.plic, posted := r.posted, ahead := r.ahead, draws := drawsAfter s a n,
                           events := s.events ++ [.access (accessKinds s a n .load) a n r.value] })

/-- The bytes of main memory a store replaces, added to those replaced before (20_memory.md R63; log 15). -/
def noteOverwritten (mem : List Host.Cell) (noted : List Host.Cell) (addrs : List Nat) : List Host.Cell :=
  addrs.foldl (fun l b => if l.contains (b, Memory.read mem b) then l else (b, Memory.read mem b) :: l) noted

/-- The bytes of a store, with their addresses, that go to main memory. -/
def storeCells (s : State) (a : Word) (n : Nat) (v : Word) : List Host.Cell :=
  ((accessAddrs a n).zip (inOrder s.config.endian (splitBytes n v))).filter fun c => !isDevice s.config.memMap c.1

/-- Bytes of main memory are replaced, and noted as replaced. -/
def State.replaceBytes (s : State) (cells : List Host.Cell) : State :=
  { s with mem := Memory.writeAll s.mem cells, overwritten := noteOverwritten s.mem s.overwritten (cells.map Prod.fst) }

/-- The stores on their way to the PLIC after a store: one to a PLIC register joins them, unless the PLIC has seen it ahead
(log 38). -/
def postedAfterStore (s : State) (a : Word) (n : Nat) (v : Word) : List PostedStore :=
  match plicAccess s a n with
  | some (_, reg) =>
    if s.seenStore a n v then s.posted
    else s.posted ++ [{ reg := reg, value := lowBytes n v, event := s.events.length }]
  | none => s.posted

/-- The accesses the PLIC has seen ahead of the hart, after a store (log 38). -/
def aheadAfterStore (s : State) (a : Word) (n : Nat) (v : Word) : List EarlyAccess :=
  if (plicAccess s a n).isSome ∧ s.seenStore a n v = true then s.restAhead else s.ahead

/-- `MemWrite(addr, n, v)` (20_memory.md R42): the exception it raises, or the state after the write. A byte in I/O goes to
the device and is kept only in the history (R54; log 13). -/
def memWrite (s : State) (a : Word) (n : Nat) (v : Word) : Except Cause State :=
  match checkAccess s a n .store with
  | some c => .error c
  | none =>
    .ok { s.replaceBytes (storeCells s a n v) with
          posted := postedAfterStore s a n v, ahead := aheadAfterStore s a n v, draws := drawsAfter s a n,
          events := s.events ++ [.access (accessKinds s a n .store) a n (lowBytes n v)] }

/-- A load (42_load_store.md R171): the value extended into `rd`, or the exception with `rd` and pc unchanged. -/
def State.load (s : State) (rd : Reg) (a : Word) (n : Nat) (extend : Word → Word) : State :=
  match memRead s a n with
  | .error c => s.raise c a
  | .ok (v, t) => t.writeAndAdvance rd (extend v)

/-- A store (42_load_store.md R182): the write and the advance, or the exception with nothing changed. -/
def State.store (s : State) (a : Word) (n : Nat) (v : Word) : State :=
  match memWrite s a n v with
  | .error c => s.raise c a
  | .ok t => t.advance

/-- `sext_32` of the low `n` bits (00_scope.md R10). -/
def signExtendFrom (n : Nat) (v : Word) : Word := (v.setWidth n).signExtend 32

/-- `zext_32` of the low `n` bits (00_scope.md R10). -/
def zeroExtendFrom (n : Nat) (v : Word) : Word := (v.setWidth n).setWidth 32

/-! ### Resuming after a serviced ECALL (60_exceptions.md R236) -/

/-- The bytes a service may write: those in main memory of MEMMAP (60_exceptions.md R236; log 9). -/
def serviceCells (s : State) (reply : ServiceReply) : List Host.Cell :=
  mainCells s.config.memMap reply.writes

/-- The environment's answer to an ECALL at pc: it halts the hart with the trap record, or it replaces the registers, writes
memory, and the hart resumes at pc + 4 (60_exceptions.md R236). -/
def State.serve (s : State) (reply : ServiceReply) : State :=
  if reply.halt then s.raise .environmentCall 0
  else
    { s.replaceBytes (serviceCells s reply) with regs := reply.regs, pc := s.pc + 4, draws := s.draws + 1 }

/-! ### Other agents' stores (20_memory.md R61) -/

/-- A store of another agent is performed in main memory, where the hart's loads find it from now on (20_memory.md R61); its bytes
are noted as those of the hart's stores are (R63). What it would do outside main memory is a device's (log 26). -/
def State.externalWrite (s : State) (cells : List Host.Cell) : State := s.replaceBytes (mainCells s.config.memMap cells)

end Sys2Proof.Machine
end

