-- ==== Sys2Proof/Machine/Agents.lean ====
section
/-! DEFINITION. The turns of the agents beside the hart: devices that write memory (00_scope.md R13, 20_memory.md R61), local
interrupt sources (60_exceptions.md R240 to R243), the PLIC with its sources, gateways and other targets (R250 to R268) and the
hart's accesses on their way to it (20_memory.md R60), each turn one atomic action (R268; log 17). -/

namespace Sys2Proof.Machine

/-- The pending bit of a local source follows its condition (60_exceptions.md R241). -/
def setPending (pending : List LocalSource) (src : LocalSource) (asserted : Bool) : List LocalSource :=
  if asserted then (if pending.contains src then pending else src :: pending) else pending.filter fun q => q != src

/-- One action of the PLIC or of an agent that talks to it, with the free values drawn as number `draw`. An action that its
rule does not allow now, or that names no source or target, changes nothing, but for the messages `sendClaim` and `busWrite`, which are
queued whatever source or target they name (log 17); nor do the actions that are not the PLIC's. -/
def plicAct (p : PlicParams) (draw : Nat) (pl : Plic) (a : AgentAction) : Except Refusal Plic :=
  match a with
  | .memoryWrite _ => .ok pl
  | .localLevel _ _ => .ok pl
  | .deliverStore _ => .ok pl
  | .answerAhead _ _ _ => .ok pl
  | .storeAhead _ _ _ _ => .ok pl
  | .sourceLevel s asserted => .ok (pl.atGateway p s fun ss g => ss.setLevel g asserted)
  | .sourceEdge s => .ok (pl.atGateway p s PlicSource.edge)
  | .acceptRequest s => .ok (pl.atGateway p s PlicSource.accept)
  | .writeRegister => .ok (pl.writeRegister p draw)
  | .processClaim => .ok pl.processClaim
  | .deliverCompletion => pl.deliverCompletion p
  | .notifyTarget t => .ok (pl.notify t)
  | .sendClaim t => .ok { pl with claims := pl.claims ++ [t] }
  | .busWrite reg v => .ok (pl.writeReg reg v)
  | .takeResponse t => .ok (pl.modifyTarget t fun tt => { tt with responses := tt.responses.tail })

/-- The free values an action draws: one for a register write, whose threshold may have to be made legal (log 21). -/
def drawsOf (a : AgentAction) : Nat := if a = .writeRegister then 1 else 0

/-- The turn of an agent other than the hart. Without a PLIC its actions change nothing (60_exceptions.md section 60.8: "with
PLIC_PRESENT = false this whole section is inert"). -/
def agentTurn (a : AgentAction) (s : State) : Host.Outcome State Fault Refusal :=
  match a with
  | .localLevel src asserted => .next { s with localPending := setPending s.localPending src asserted }
  | .memoryWrite cells => .next (s.externalWrite cells)
  | .deliverStore k => .next (s.deliverStore k)
  | .answerAhead event a n => .next (s.answerAhead event a n)
  | .storeAhead event a n v => .next (s.storeAhead event a n v)
  | act =>
    match s.config.plic with
    | none => .next s
    | some p =>
      match plicAct p s.draws s.plic act with
      | .ok q => .next { s with plic := q, draws := s.draws + drawsOf act }
      | .error r => .refused r

/-- The external interrupt-pending bit of the hart for a mode (meip, seip, ueip): the EIP last delivered to a target that is
this hart's context of that mode (60_exceptions.md R244, R258). No instruction reads it. DESIGN CHOICE, unsafe (log 39): without a
PLIC, or with no target that is this hart's context of the mode, the bit is 0, where R37 and R246 leave the input free. -/
def State.externalPending (s : State) (m : Mode) : Bool :=
  match s.config.plic with
  | none => false
  | some p =>
    (List.range p.targets.length).any fun t =>
      match p.targets[t]?, s.plic.targets[t]? with
      | some tp, some tt => tp.context == some m && tt.seen
      | _, _ => false

end Sys2Proof.Machine
end

