-- ==== Sys2Proof/Machine/Boot.lean ====
section
/-! DEFINITION. Reset for any configuration the environment supplies (70_reset_and_hazards.md R280, R282). -/

namespace Sys2Proof.Machine

/-- The bytes of an image that lie in main memory of the map (70_reset_and_hazards.md R280: "the launch image within
MEMMAP"). -/
def imageCells (c : Config) (image : List Host.Cell) : List Host.Cell := mainCells c.memMap image

/-- The initial state of 70_reset_and_hazards.md R280: pc = RESET_PC, the launch image in memory, registers `regs` ("arbitrary
32-bit values"), the PLIC in state `pl` (R283), the hart running. -/
def State.boot (c : Config) (image : List Host.Cell) (regs : Vector Word 31) (pl : Plic) : State :=
  { regs := regs, pc := c.resetPc, mem := Memory.writeAll [] (imageCells c image), trap := none, config := c,
    overwritten := [], events := [], draws := 0, plic := pl, posted := [], ahead := [], localPending := [], agenda := [] }

end Sys2Proof.Machine
end

