-- ==== Sys2Proof/Machine/Computational.lean ====
section
/-! DEFINITION. The integer computational instructions (40_integer_computational.md R110 to R137): each computes one value from the
old registers, writes it to `rd` (discarded for x0) and advances the pc. None raises an exception. The HINTs and the NOP are
these meanings with `rd = x0` (45_hints.md R211). -/

namespace Sys2Proof.Machine

/-! ### Register-immediate (R111 to R119) -/

/-- ADDI: `x[rd] <- x[rs1] + immI` (40_integer_computational.md R111). -/
def execAddi (rd rs1 : Reg) (imm : BitVec 12) (s : State) : Host.Outcome State Fault Refusal :=
  .next (s.writeAndAdvance rd (s.x rs1 + immI imm))

/-- SLTI: 1 if `x[rs1] <s immI`, else 0 (40_integer_computational.md R112). -/
def execSlti (rd rs1 : Reg) (imm : BitVec 12) (s : State) : Host.Outcome State Fault Refusal :=
  .next (s.writeAndAdvance rd (setIf (lessSigned (s.x rs1) (immI imm))))

/-- SLTIU: 1 if `x[rs1] <u immI`, the immediate sign-extended first, else 0 (40_integer_computational.md R113). -/
def execSltiu (rd rs1 : Reg) (imm : BitVec 12) (s : State) : Host.Outcome State Fault Refusal :=
  .next (s.writeAndAdvance rd (setIf (lessUnsigned (s.x rs1) (immI imm))))

/-- XORI: `x[rd] <- x[rs1] ^ immI` (40_integer_computational.md R114). -/
def execXori (rd rs1 : Reg) (imm : BitVec 12) (s : State) : Host.Outcome State Fault Refusal :=
  .next (s.writeAndAdvance rd (s.x rs1 ^^^ immI imm))

/-- ORI: `x[rd] <- x[rs1] | immI` (40_integer_computational.md R115). -/
def execOri (rd rs1 : Reg) (imm : BitVec 12) (s : State) : Host.Outcome State Fault Refusal :=
  .next (s.writeAndAdvance rd (s.x rs1 ||| immI imm))

/-- ANDI: `x[rd] <- x[rs1] & immI` (40_integer_computational.md R116). -/
def execAndi (rd rs1 : Reg) (imm : BitVec 12) (s : State) : Host.Outcome State Fault Refusal :=
  .next (s.writeAndAdvance rd (s.x rs1 &&& immI imm))

/-- SLLI: `x[rd] <- x[rs1] << shamt` (40_integer_computational.md R117). -/
def execSlli (rd rs1 : Reg) (shamt : BitVec 5) (s : State) : Host.Outcome State Fault Refusal :=
  .next (s.writeAndAdvance rd (s.x rs1 <<< shamt.toNat))

/-- SRLI: `x[rd] <- x[rs1] >>u shamt` (40_integer_computational.md R118). -/
def execSrli (rd rs1 : Reg) (shamt : BitVec 5) (s : State) : Host.Outcome State Fault Refusal :=
  .next (s.writeAndAdvance rd (s.x rs1 >>> shamt.toNat))

/-- SRAI: `x[rd] <- x[rs1] >>s shamt` (40_integer_computational.md R119). -/
def execSrai (rd rs1 : Reg) (shamt : BitVec 5) (s : State) : Host.Outcome State Fault Refusal :=
  .next (s.writeAndAdvance rd ((s.x rs1).sshiftRight shamt.toNat))

/-! ### Upper immediate (R120, R121) -/

/-- LUI: `x[rd] <- immU` (40_integer_computational.md R120). -/
def execLui (rd : Reg) (imm : BitVec 20) (s : State) : Host.Outcome State Fault Refusal :=
  .next (s.writeAndAdvance rd (immU imm))

/-- AUIPC: `x[rd] <- pc + immU`, pc the address of the AUIPC itself (40_integer_computational.md R121). -/
def execAuipc (rd : Reg) (imm : BitVec 20) (s : State) : Host.Outcome State Fault Refusal :=
  .next (s.writeAndAdvance rd (s.pc + immU imm))

/-! ### Register-register (R124 to R134) -/

/-- ADD: `x[rd] <- x[rs1] + x[rs2]` (40_integer_computational.md R125). -/
def execAdd (rd rs1 rs2 : Reg) (s : State) : Host.Outcome State Fault Refusal :=
  .next (s.writeAndAdvance rd (s.x rs1 + s.x rs2))

/-- SUB: `x[rd] <- x[rs1] - x[rs2]` (40_integer_computational.md R126). -/
def execSub (rd rs1 rs2 : Reg) (s : State) : Host.Outcome State Fault Refusal :=
  .next (s.writeAndAdvance rd (s.x rs1 - s.x rs2))

/-- SLL: `x[rd] <- x[rs1] << u(x[rs2][4:0])` (40_integer_computational.md R127). -/
def execSll (rd rs1 rs2 : Reg) (s : State) : Host.Outcome State Fault Refusal :=
  .next (s.writeAndAdvance rd (s.x rs1 <<< shiftAmount (s.x rs2)))

/-- SLT: 1 if `x[rs1] <s x[rs2]`, else 0 (40_integer_computational.md R128). -/
def execSlt (rd rs1 rs2 : Reg) (s : State) : Host.Outcome State Fault Refusal :=
  .next (s.writeAndAdvance rd (setIf (lessSigned (s.x rs1) (s.x rs2))))

/-- SLTU: 1 if `x[rs1] <u x[rs2]`, else 0 (40_integer_computational.md R129). -/
def execSltu (rd rs1 rs2 : Reg) (s : State) : Host.Outcome State Fault Refusal :=
  .next (s.writeAndAdvance rd (setIf (lessUnsigned (s.x rs1) (s.x rs2))))

/-- XOR: `x[rd] <- x[rs1] ^ x[rs2]` (40_integer_computational.md R130). -/
def execXor (rd rs1 rs2 : Reg) (s : State) : Host.Outcome State Fault Refusal :=
  .next (s.writeAndAdvance rd (s.x rs1 ^^^ s.x rs2))

/-- SRL: `x[rd] <- x[rs1] >>u u(x[rs2][4:0])` (40_integer_computational.md R131). -/
def execSrl (rd rs1 rs2 : Reg) (s : State) : Host.Outcome State Fault Refusal :=
  .next (s.writeAndAdvance rd (s.x rs1 >>> shiftAmount (s.x rs2)))

/-- SRA: `x[rd] <- x[rs1] >>s u(x[rs2][4:0])` (40_integer_computational.md R132). -/
def execSra (rd rs1 rs2 : Reg) (s : State) : Host.Outcome State Fault Refusal :=
  .next (s.writeAndAdvance rd ((s.x rs1).sshiftRight (shiftAmount (s.x rs2))))

/-- OR: `x[rd] <- x[rs1] | x[rs2]` (40_integer_computational.md R133). -/
def execOr (rd rs1 rs2 : Reg) (s : State) : Host.Outcome State Fault Refusal :=
  .next (s.writeAndAdvance rd (s.x rs1 ||| s.x rs2))

/-- AND: `x[rd] <- x[rs1] & x[rs2]` (40_integer_computational.md R134). -/
def execAnd (rd rs1 rs2 : Reg) (s : State) : Host.Outcome State Fault Refusal :=
  .next (s.writeAndAdvance rd (s.x rs1 &&& s.x rs2))

end Sys2Proof.Machine
end

