-- ==== Sys2Proof/Machine/Control.lean ====
section
/-! DEFINITION. The control transfer instructions (41_control_transfer.md R150 to R165). A misaligned target raises on the jump or
branch itself, with pc and `rd` unchanged (R153); an unfetchable target raises in the next step (R164). No delay slots. -/

namespace Sys2Proof.Machine

/-- JAL: jump to `pc + immJ`, link in `rd` (41_control_transfer.md R151). -/
def execJal (rd : Reg) (offset : BitVec 21) (s : State) : Host.Outcome State Fault Refusal :=
  .next (s.jumpAndLink rd (s.pc + immJ offset))

/-- JALR: jump to `(x[rs1] + immI) & 0xFFFFFFFE` with the old `x[rs1]`, link in `rd` (41_control_transfer.md R152). -/
def execJalr (rd rs1 : Reg) (imm : BitVec 12) (s : State) : Host.Outcome State Fault Refusal :=
  .next (s.jumpAndLink rd (jalrTarget (s.x rs1) (immI imm)))

/-- BEQ: taken if `x[rs1] == x[rs2]` (41_control_transfer.md R156, R155). -/
def execBeq (rs1 rs2 : Reg) (offset : BitVec 13) (s : State) : Host.Outcome State Fault Refusal :=
  .next (s.branch (s.x rs1 == s.x rs2) (s.pc + immB offset))

/-- BNE: taken if `x[rs1] != x[rs2]` (41_control_transfer.md R157, R155). -/
def execBne (rs1 rs2 : Reg) (offset : BitVec 13) (s : State) : Host.Outcome State Fault Refusal :=
  .next (s.branch (s.x rs1 != s.x rs2) (s.pc + immB offset))

/-- BLT: taken if `x[rs1] <s x[rs2]` (41_control_transfer.md R158, R155). -/
def execBlt (rs1 rs2 : Reg) (offset : BitVec 13) (s : State) : Host.Outcome State Fault Refusal :=
  .next (s.branch (lessSigned (s.x rs1) (s.x rs2)) (s.pc + immB offset))

/-- BGE: taken if `x[rs1] >=s x[rs2]`, the negation of BLT's condition (41_control_transfer.md R159, R155). -/
def execBge (rs1 rs2 : Reg) (offset : BitVec 13) (s : State) : Host.Outcome State Fault Refusal :=
  .next (s.branch (!lessSigned (s.x rs1) (s.x rs2)) (s.pc + immB offset))

/-- BLTU: taken if `x[rs1] <u x[rs2]` (41_control_transfer.md R160, R155). -/
def execBltu (rs1 rs2 : Reg) (offset : BitVec 13) (s : State) : Host.Outcome State Fault Refusal :=
  .next (s.branch (lessUnsigned (s.x rs1) (s.x rs2)) (s.pc + immB offset))

/-- BGEU: taken if `x[rs1] >=u x[rs2]`, the negation of BLTU's condition (41_control_transfer.md R161, R155). -/
def execBgeu (rs1 rs2 : Reg) (offset : BitVec 13) (s : State) : Host.Outcome State Fault Refusal :=
  .next (s.branch (!lessUnsigned (s.x rs1) (s.x rs2)) (s.pc + immB offset))

end Sys2Proof.Machine
end

