-- ==== Sys2Proof/Machine/Fence.lean ====
section
/-! DEFINITION. FENCE and FENCE.TSO (43_memory_ordering.md R190 to R197): they advance the pc and stand in the history, which
Machine/Ordering.lean reads for the order in which a device may see the hart's accesses. -/

namespace Sys2Proof.Machine

/-- FENCE: `pc <- pc + 4`, recorded with its fields; `rs1` and `rd` are ignored and no field raises
(43_memory_ordering.md R190, R194, R197). -/
def execFence (fm pred succ : BitVec 4) (_rs1 _rd : Reg) (s : State) : Host.Outcome State Fault Refusal :=
  .next (s.record (.fence fm pred succ)).advance

/-- FENCE.TSO: FENCE with `fm = 1000`, `pred = succ = RW` (43_memory_ordering.md R193, R197). -/
def execFenceTso (_rs1 _rd : Reg) (s : State) : Host.Outcome State Fault Refusal :=
  .next (s.record (.fence 0b1000#4 0b0011#4 0b0011#4)).advance

end Sys2Proof.Machine
end

