-- ==== Sys2Proof/Machine/LoadStore.lean ====
section
/-! DEFINITION. The loads and stores (42_load_store.md R170 to R182) over MemRead and MemWrite. -/

namespace Sys2Proof.Machine

/-- LB: one byte, sign-extended (42_load_store.md R172). -/
def execLb (rd rs1 : Reg) (imm : BitVec 12) (s : State) : Host.Outcome State Fault Refusal :=
  .next (s.load rd (effectiveAddress (s.x rs1) (immI imm)) 1 (signExtendFrom 8))

/-- LH: two bytes, sign-extended (42_load_store.md R173). -/
def execLh (rd rs1 : Reg) (imm : BitVec 12) (s : State) : Host.Outcome State Fault Refusal :=
  .next (s.load rd (effectiveAddress (s.x rs1) (immI imm)) 2 (signExtendFrom 16))

/-- LW: four bytes (42_load_store.md R174). -/
def execLw (rd rs1 : Reg) (imm : BitVec 12) (s : State) : Host.Outcome State Fault Refusal :=
  .next (s.load rd (effectiveAddress (s.x rs1) (immI imm)) 4 id)

/-- LBU: one byte, zero-extended (42_load_store.md R175). -/
def execLbu (rd rs1 : Reg) (imm : BitVec 12) (s : State) : Host.Outcome State Fault Refusal :=
  .next (s.load rd (effectiveAddress (s.x rs1) (immI imm)) 1 (zeroExtendFrom 8))

/-- LHU: two bytes, zero-extended (42_load_store.md R176). -/
def execLhu (rd rs1 : Reg) (imm : BitVec 12) (s : State) : Host.Outcome State Fault Refusal :=
  .next (s.load rd (effectiveAddress (s.x rs1) (immI imm)) 2 (zeroExtendFrom 16))

/-- SB: the low byte of `x[rs2]` (42_load_store.md R177). -/
def execSb (rs1 rs2 : Reg) (imm : BitVec 12) (s : State) : Host.Outcome State Fault Refusal :=
  .next (s.store (effectiveAddress (s.x rs1) (immS imm)) 1 (s.x rs2))

/-- SH: the low two bytes of `x[rs2]` (42_load_store.md R178). -/
def execSh (rs1 rs2 : Reg) (imm : BitVec 12) (s : State) : Host.Outcome State Fault Refusal :=
  .next (s.store (effectiveAddress (s.x rs1) (immS imm)) 2 (s.x rs2))

/-- SW: `x[rs2]` (42_load_store.md R179). -/
def execSw (rs1 rs2 : Reg) (imm : BitVec 12) (s : State) : Host.Outcome State Fault Refusal :=
  .next (s.store (effectiveAddress (s.x rs1) (immS imm)) 4 (s.x rs2))

end Sys2Proof.Machine
end

