-- ==== Sys2Proof/Machine/System.lean ====
section
/-! DEFINITION. ECALL and EBREAK (44_system.md R200 to R206). -/

namespace Sys2Proof.Machine

/-- ECALL: raises EnvironmentCall; with TRAP_MODE = service the environment answers it (44_system.md R201, 60_exceptions.md
R229, R236). -/
def execEcall (s : State) : Host.Outcome State Fault Refusal :=
  match s.config.trapMode with
  | .fatal => .next (s.raise .environmentCall 0)
  | .service => .next (s.serve (Config.ecallService s.draws s.regs s.mem s.pc))

/-- EBREAK: raises Breakpoint with the address of the EBREAK, in both trap modes (44_system.md R202, 60_exceptions.md R224). -/
def execEbreak (s : State) : Host.Outcome State Fault Refusal :=
  .next (s.raise .breakpoint s.pc)

end Sys2Proof.Machine
end

