-- ==== Sys2Proof/Decode.lean ====
section
/-! DEFINITION. From bytes and words to instructions and back (30_encoding.md R70 to R97). Every numeric value is the
table's of R85, which the spec itself marks as general knowledge (log 7). -/

namespace Sys2Proof

/-! ### Fields (30_encoding.md R70, R83) -/

/-- `opcode = inst[6:0]`. -/
def opcodeOf (w : Word) : BitVec 7 := w.extractLsb' 0 7
/-- `rd = inst[11:7]`. -/
def rdOf (w : Word) : Reg := w.extractLsb' 7 5
/-- `funct3 = inst[14:12]`. -/
def funct3Of (w : Word) : BitVec 3 := w.extractLsb' 12 3
/-- `rs1 = inst[19:15]`. -/
def rs1Of (w : Word) : Reg := w.extractLsb' 15 5
/-- `rs2 = inst[24:20]`, the place of `shamt` too (R83 (a)). -/
def rs2Of (w : Word) : Reg := w.extractLsb' 20 5
/-- `funct7 = inst[31:25]`. -/
def funct7Of (w : Word) : BitVec 7 := w.extractLsb' 25 7
/-- `inst[31:20]`: the I-immediate field (R78) and funct12 (R83 (c)). -/
def immIOf (w : Word) : BitVec 12 := w.extractLsb' 20 12
/-- `inst[31:25] ++ inst[11:7]`: the S-immediate field (R79). -/
def immSOf (w : Word) : BitVec 12 := w.extractLsb' 25 7 ++ w.extractLsb' 7 5
/-- `inst[31] ++ inst[7] ++ inst[30:25] ++ inst[11:8] ++ 0`: the 13-bit branch offset (R80). -/
def offsetBOf (w : Word) : BitVec 13 :=
  w.extractLsb' 31 1 ++ w.extractLsb' 7 1 ++ w.extractLsb' 25 6 ++ w.extractLsb' 8 4 ++ 0#1
/-- `inst[31:12]`: the U-immediate field (R81). -/
def immUOf (w : Word) : BitVec 20 := w.extractLsb' 12 20
/-- `inst[31] ++ inst[19:12] ++ inst[20] ++ inst[30:21] ++ 0`: the 21-bit JAL offset (R82). -/
def offsetJOf (w : Word) : BitVec 21 :=
  w.extractLsb' 31 1 ++ w.extractLsb' 12 8 ++ w.extractLsb' 20 1 ++ w.extractLsb' 21 10 ++ 0#1
/-- `fm = inst[31:28]` (R83 (b)). -/
def fmOf (w : Word) : BitVec 4 := w.extractLsb' 28 4
/-- `pred = inst[27:24]` (R83 (b)). -/
def predOf (w : Word) : BitVec 4 := w.extractLsb' 24 4
/-- `succ = inst[23:20]` (R83 (b)). -/
def succOf (w : Word) : BitVec 4 := w.extractLsb' 20 4

/-! ### Decoding (30_encoding.md R84, R92, R93) -/

/-- Why a word is no instruction in scope: the rows of 30_encoding.md R93, and an input of fewer than four bytes. -/
inductive DecodeError where
  /-- fewer than four bytes were given (R87: a decoder reads four bytes) -/
  | tooShort
  /-- `inst[1:0]` is not 11 -/
  | notThirtyTwoBit
  /-- a major opcode RV32I does not use -/
  | majorOpcode
  | loadFunct3
  | storeFunct3
  | branchFunct3
  | jalrFunct3
  | miscMemFunct3
  | shiftImmFunct7
  | opFunct7
  /-- a SYSTEM word other than the two exact words of ECALL and EBREAK -/
  | systemWord
  deriving DecidableEq, Repr

/-- LOAD words (R85 rows 11 to 15). -/
def decodeLoad (w : Word) : Except DecodeError Instr :=
  match funct3Of w with
  | 0b000#3 => .ok (.lb (rdOf w) (rs1Of w) (immIOf w))
  | 0b001#3 => .ok (.lh (rdOf w) (rs1Of w) (immIOf w))
  | 0b010#3 => .ok (.lw (rdOf w) (rs1Of w) (immIOf w))
  | 0b100#3 => .ok (.lbu (rdOf w) (rs1Of w) (immIOf w))
  | 0b101#3 => .ok (.lhu (rdOf w) (rs1Of w) (immIOf w))
  | _ => .error .loadFunct3

/-- STORE words (R85 rows 16 to 18). -/
def decodeStore (w : Word) : Except DecodeError Instr :=
  match funct3Of w with
  | 0b000#3 => .ok (.sb (rs1Of w) (rs2Of w) (immSOf w))
  | 0b001#3 => .ok (.sh (rs1Of w) (rs2Of w) (immSOf w))
  | 0b010#3 => .ok (.sw (rs1Of w) (rs2Of w) (immSOf w))
  | _ => .error .storeFunct3

/-- BRANCH words (R85 rows 5 to 10). -/
def decodeBranch (w : Word) : Except DecodeError Instr :=
  match funct3Of w with
  | 0b000#3 => .ok (.beq (rs1Of w) (rs2Of w) (offsetBOf w))
  | 0b001#3 => .ok (.bne (rs1Of w) (rs2Of w) (offsetBOf w))
  | 0b100#3 => .ok (.blt (rs1Of w) (rs2Of w) (offsetBOf w))
  | 0b101#3 => .ok (.bge (rs1Of w) (rs2Of w) (offsetBOf w))
  | 0b110#3 => .ok (.bltu (rs1Of w) (rs2Of w) (offsetBOf w))
  | 0b111#3 => .ok (.bgeu (rs1Of w) (rs2Of w) (offsetBOf w))
  | _ => .error .branchFunct3

/-- OP-IMM words (R85 rows 19 to 27). -/
def decodeOpImm (w : Word) : Except DecodeError Instr :=
  match funct3Of w with
  | 0b000#3 => .ok (.addi (rdOf w) (rs1Of w) (immIOf w))
  | 0b010#3 => .ok (.slti (rdOf w) (rs1Of w) (immIOf w))
  | 0b011#3 => .ok (.sltiu (rdOf w) (rs1Of w) (immIOf w))
  | 0b100#3 => .ok (.xori (rdOf w) (rs1Of w) (immIOf w))
  | 0b110#3 => .ok (.ori (rdOf w) (rs1Of w) (immIOf w))
  | 0b111#3 => .ok (.andi (rdOf w) (rs1Of w) (immIOf w))
  | 0b001#3 =>
    match funct7Of w with
    | 0b0000000#7 => .ok (.slli (rdOf w) (rs1Of w) (rs2Of w))
    | _ => .error .shiftImmFunct7
  | _ =>
    match funct7Of w with
    | 0b0000000#7 => .ok (.srli (rdOf w) (rs1Of w) (rs2Of w))
    | 0b0100000#7 => .ok (.srai (rdOf w) (rs1Of w) (rs2Of w))
    | _ => .error .shiftImmFunct7

/-- OP words (R85 rows 28 to 37). -/
def decodeOp (w : Word) : Except DecodeError Instr :=
  match funct7Of w, funct3Of w with
  | 0b0000000#7, 0b000#3 => .ok (.add (rdOf w) (rs1Of w) (rs2Of w))
  | 0b0100000#7, 0b000#3 => .ok (.sub (rdOf w) (rs1Of w) (rs2Of w))
  | 0b0000000#7, 0b001#3 => .ok (.sll (rdOf w) (rs1Of w) (rs2Of w))
  | 0b0000000#7, 0b010#3 => .ok (.slt (rdOf w) (rs1Of w) (rs2Of w))
  | 0b0000000#7, 0b011#3 => .ok (.sltu (rdOf w) (rs1Of w) (rs2Of w))
  | 0b0000000#7, 0b100#3 => .ok (.xor (rdOf w) (rs1Of w) (rs2Of w))
  | 0b0000000#7, 0b101#3 => .ok (.srl (rdOf w) (rs1Of w) (rs2Of w))
  | 0b0100000#7, 0b101#3 => .ok (.sra (rdOf w) (rs1Of w) (rs2Of w))
  | 0b0000000#7, 0b110#3 => .ok (.or (rdOf w) (rs1Of w) (rs2Of w))
  | 0b0000000#7, 0b111#3 => .ok (.and (rdOf w) (rs1Of w) (rs2Of w))
  | _, _ => .error .opFunct7

/-- MISC-MEM words with funct3 000: every one is a FENCE, and one combination of fm, pred, succ is FENCE.TSO
(R84, R94; 43_memory_ordering.md R193). -/
def decodeFence (w : Word) : Instr :=
  if isTsoFields (fmOf w) (predOf w) (succOf w) then .fenceTso (rs1Of w) (rdOf w)
  else .fence (fmOf w) (predOf w) (succOf w) (rs1Of w) (rdOf w)

/-- SYSTEM words: ECALL and EBREAK are matched on all 32 bits (R93). -/
def decodeSystem (w : Word) : Except DecodeError Instr :=
  if w = 0x00000073#32 then .ok .ecall
  else if w = 0x00100073#32 then .ok .ebreak
  else .error .systemWord

/-- The instruction a word stands for, or why it stands for none (30_encoding.md R84 to R86, R93). -/
def decodeWord (w : Word) : Except DecodeError Instr :=
  match opcodeOf w with
  | 0b0000011#7 => decodeLoad w
  | 0b0001111#7 =>
    match funct3Of w with
    | 0b000#3 => .ok (decodeFence w)
    | _ => .error .miscMemFunct3
  | 0b0010011#7 => decodeOpImm w
  | 0b0010111#7 => .ok (.auipc (rdOf w) (immUOf w))
  | 0b0100011#7 => decodeStore w
  | 0b0110011#7 => decodeOp w
  | 0b0110111#7 => .ok (.lui (rdOf w) (immUOf w))
  | 0b1100011#7 => decodeBranch w
  | 0b1100111#7 =>
    match funct3Of w with
    | 0b000#3 => .ok (.jalr (rdOf w) (rs1Of w) (immIOf w))
    | _ => .error .jalrFunct3
  | 0b1101111#7 => .ok (.jal (rdOf w) (offsetJOf w))
  | 0b1110011#7 => decodeSystem w
  | op => if op.extractLsb' 0 2 = 0b11#2 then .error .majorOpcode else .error .notThirtyTwoBit

/-- The four bytes of an instruction word as they lie in memory, lowest address first (20_memory.md R45). -/
def wordBytes (w : Word) : List Byte :=
  [w.extractLsb' 0 8, w.extractLsb' 8 8, w.extractLsb' 16 8, w.extractLsb' 24 8]

/-- The instruction word of four bytes, the one at the lowest address first (20_memory.md R44, R45). -/
def wordOfBytes (b0 b1 b2 b3 : Byte) : Word := b3 ++ b2 ++ b1 ++ b0

/-- Decode a sequence of bytes: the instruction in its first four bytes and the bytes after it (30_encoding.md R87). -/
def decode : List Byte → Except DecodeError (Instr × List Byte)
  | b0 :: b1 :: b2 :: b3 :: rest =>
    match decodeWord (wordOfBytes b0 b1 b2 b3) with
    | .ok i => .ok (i, rest)
    | .error e => .error e
  | _ => .error .tooShort

/-- The instruction the decoder reads from the bits `w`, numbered as spec/opcode_table.json numbers them. -/
def decodeTableWord (nbits w : Nat) : Option Instr :=
  match decode (wordBytes (BitVec.ofNat 32 (w % 2 ^ nbits))) with
  | .ok (i, _) => some i
  | .error _ => none

/-! ### Encoding (30_encoding.md R72 to R83) -/

/-- R-type word (R72). -/
def encodeR (funct7 : BitVec 7) (rs2 rs1 : Reg) (funct3 : BitVec 3) (rd : Reg) (opcode : BitVec 7) : Word :=
  funct7 ++ rs2 ++ rs1 ++ funct3 ++ rd ++ opcode

/-- I-type word (R73). -/
def encodeI (imm : BitVec 12) (rs1 : Reg) (funct3 : BitVec 3) (rd : Reg) (opcode : BitVec 7) : Word :=
  imm ++ rs1 ++ funct3 ++ rd ++ opcode

/-- S-type word (R74). -/
def encodeS (imm : BitVec 12) (rs2 rs1 : Reg) (funct3 : BitVec 3) (opcode : BitVec 7) : Word :=
  imm.extractLsb' 5 7 ++ rs2 ++ rs1 ++ funct3 ++ imm.extractLsb' 0 5 ++ opcode

/-- B-type word (R75). -/
def encodeB (offset : BitVec 13) (rs2 rs1 : Reg) (funct3 : BitVec 3) (opcode : BitVec 7) : Word :=
  offset.extractLsb' 12 1 ++ offset.extractLsb' 5 6 ++ rs2 ++ rs1 ++ funct3 ++ offset.extractLsb' 1 4 ++
    offset.extractLsb' 11 1 ++ opcode

/-- U-type word (R76). -/
def encodeU (imm : BitVec 20) (rd : Reg) (opcode : BitVec 7) : Word := imm ++ rd ++ opcode

/-- J-type word (R77). -/
def encodeJ (offset : BitVec 21) (rd : Reg) (opcode : BitVec 7) : Word :=
  offset.extractLsb' 20 1 ++ offset.extractLsb' 1 10 ++ offset.extractLsb' 11 1 ++ offset.extractLsb' 12 8 ++ rd ++
    opcode

/-- FENCE word (R83 (b)). -/
def encodeFence (fm pred succ : BitVec 4) (rs1 rd : Reg) : Word :=
  fm ++ pred ++ succ ++ rs1 ++ 0b000#3 ++ rd ++ 0b0001111#7

/-- The word of an instruction (30_encoding.md R85). -/
def encode : Instr → Word
  | .lui rd imm => encodeU imm rd 0b0110111#7
  | .auipc rd imm => encodeU imm rd 0b0010111#7
  | .jal rd offset => encodeJ offset rd 0b1101111#7
  | .jalr rd rs1 imm => encodeI imm rs1 0b000#3 rd 0b1100111#7
  | .beq rs1 rs2 offset => encodeB offset rs2 rs1 0b000#3 0b1100011#7
  | .bne rs1 rs2 offset => encodeB offset rs2 rs1 0b001#3 0b1100011#7
  | .blt rs1 rs2 offset => encodeB offset rs2 rs1 0b100#3 0b1100011#7
  | .bge rs1 rs2 offset => encodeB offset rs2 rs1 0b101#3 0b1100011#7
  | .bltu rs1 rs2 offset => encodeB offset rs2 rs1 0b110#3 0b1100011#7
  | .bgeu rs1 rs2 offset => encodeB offset rs2 rs1 0b111#3 0b1100011#7
  | .lb rd rs1 imm => encodeI imm rs1 0b000#3 rd 0b0000011#7
  | .lh rd rs1 imm => encodeI imm rs1 0b001#3 rd 0b0000011#7
  | .lw rd rs1 imm => encodeI imm rs1 0b010#3 rd 0b0000011#7
  | .lbu rd rs1 imm => encodeI imm rs1 0b100#3 rd 0b0000011#7
  | .lhu rd rs1 imm => encodeI imm rs1 0b101#3 rd 0b0000011#7
  | .sb rs1 rs2 imm => encodeS imm rs2 rs1 0b000#3 0b0100011#7
  | .sh rs1 rs2 imm => encodeS imm rs2 rs1 0b001#3 0b0100011#7
  | .sw rs1 rs2 imm => encodeS imm rs2 rs1 0b010#3 0b0100011#7
  | .addi rd rs1 imm => encodeI imm rs1 0b000#3 rd 0b0010011#7
  | .slti rd rs1 imm => encodeI imm rs1 0b010#3 rd 0b0010011#7
  | .sltiu rd rs1 imm => encodeI imm rs1 0b011#3 rd 0b0010011#7
  | .xori rd rs1 imm => encodeI imm rs1 0b100#3 rd 0b0010011#7
  | .ori rd rs1 imm => encodeI imm rs1 0b110#3 rd 0b0010011#7
  | .andi rd rs1 imm => encodeI imm rs1 0b111#3 rd 0b0010011#7
  | .slli rd rs1 shamt => encodeR 0b0000000#7 shamt rs1 0b001#3 rd 0b0010011#7
  | .srli rd rs1 shamt => encodeR 0b0000000#7 shamt rs1 0b101#3 rd 0b0010011#7
  | .srai rd rs1 shamt => encodeR 0b0100000#7 shamt rs1 0b101#3 rd 0b0010011#7
  | .add rd rs1 rs2 => encodeR 0b0000000#7 rs2 rs1 0b000#3 rd 0b0110011#7
  | .sub rd rs1 rs2 => encodeR 0b0100000#7 rs2 rs1 0b000#3 rd 0b0110011#7
  | .sll rd rs1 rs2 => encodeR 0b0000000#7 rs2 rs1 0b001#3 rd 0b0110011#7
  | .slt rd rs1 rs2 => encodeR 0b0000000#7 rs2 rs1 0b010#3 rd 0b0110011#7
  | .sltu rd rs1 rs2 => encodeR 0b0000000#7 rs2 rs1 0b011#3 rd 0b0110011#7
  | .xor rd rs1 rs2 => encodeR 0b0000000#7 rs2 rs1 0b100#3 rd 0b0110011#7
  | .srl rd rs1 rs2 => encodeR 0b0000000#7 rs2 rs1 0b101#3 rd 0b0110011#7
  | .sra rd rs1 rs2 => encodeR 0b0100000#7 rs2 rs1 0b101#3 rd 0b0110011#7
  | .or rd rs1 rs2 => encodeR 0b0000000#7 rs2 rs1 0b110#3 rd 0b0110011#7
  | .and rd rs1 rs2 => encodeR 0b0000000#7 rs2 rs1 0b111#3 rd 0b0110011#7
  | .fence fm pred succ rs1 rd => encodeFence fm pred succ rs1 rd
  | .ecall => encodeI 0b000000000000#12 0 0b000#3 0 0b1110011#7
  | .ebreak => encodeI 0b000000000001#12 0 0b000#3 0 0b1110011#7
  | .fenceTso rs1 rd => encodeFence 0b1000#4 0b0011#4 0b0011#4 rs1 rd

/-! ### The opcode map as the spec prints it (30_encoding.md R85) -/

/-- One row of the table of R85: a word belongs to it when `inst & mask = value`. -/
structure TableRow where
  mnemonic : String
  mask : Word
  value : Word
  deriving DecidableEq, Repr

/-- The table of 30_encoding.md R85, with its row 38a (FENCE.TSO) before the FENCE row it lies inside (R84). -/
def opcodeTable : List TableRow :=
  [⟨"LUI", 0x0000007F, 0x00000037⟩, ⟨"AUIPC", 0x0000007F, 0x00000017⟩, ⟨"JAL", 0x0000007F, 0x0000006F⟩,
   ⟨"JALR", 0x0000707F, 0x00000067⟩, ⟨"BEQ", 0x0000707F, 0x00000063⟩, ⟨"BNE", 0x0000707F, 0x00001063⟩,
   ⟨"BLT", 0x0000707F, 0x00004063⟩, ⟨"BGE", 0x0000707F, 0x00005063⟩, ⟨"BLTU", 0x0000707F, 0x00006063⟩,
   ⟨"BGEU", 0x0000707F, 0x00007063⟩, ⟨"LB", 0x0000707F, 0x00000003⟩, ⟨"LH", 0x0000707F, 0x00001003⟩,
   ⟨"LW", 0x0000707F, 0x00002003⟩, ⟨"LBU", 0x0000707F, 0x00004003⟩, ⟨"LHU", 0x0000707F, 0x00005003⟩,
   ⟨"SB", 0x0000707F, 0x00000023⟩, ⟨"SH", 0x0000707F, 0x00001023⟩, ⟨"SW", 0x0000707F, 0x00002023⟩,
   ⟨"ADDI", 0x0000707F, 0x00000013⟩, ⟨"SLTI", 0x0000707F, 0x00002013⟩, ⟨"SLTIU", 0x0000707F, 0x00003013⟩,
   ⟨"XORI", 0x0000707F, 0x00004013⟩, ⟨"ORI", 0x0000707F, 0x00006013⟩, ⟨"ANDI", 0x0000707F, 0x00007013⟩] ++
  [⟨"SLLI", 0xFE00707F, 0x00001013⟩, ⟨"SRLI", 0xFE00707F, 0x00005013⟩, ⟨"SRAI", 0xFE00707F, 0x40005013⟩,
   ⟨"ADD", 0xFE00707F, 0x00000033⟩, ⟨"SUB", 0xFE00707F, 0x40000033⟩, ⟨"SLL", 0xFE00707F, 0x00001033⟩,
   ⟨"SLT", 0xFE00707F, 0x00002033⟩, ⟨"SLTU", 0xFE00707F, 0x00003033⟩, ⟨"XOR", 0xFE00707F, 0x00004033⟩,
   ⟨"SRL", 0xFE00707F, 0x00005033⟩, ⟨"SRA", 0xFE00707F, 0x40005033⟩, ⟨"OR", 0xFE00707F, 0x00006033⟩,
   ⟨"AND", 0xFE00707F, 0x00007033⟩, ⟨"FENCE.TSO", 0xFFF0707F, 0x8330000F⟩, ⟨"FENCE", 0x0000707F, 0x0000000F⟩,
   ⟨"ECALL", 0xFFFFFFFF, 0x00000073⟩, ⟨"EBREAK", 0xFFFFFFFF, 0x00100073⟩]

/-- The word belongs to the row. -/
def TableRow.matchesWord (row : TableRow) (w : Word) : Bool := w &&& row.mask == row.value

/-- The mnemonic of an instruction, as spec/opcode_table.json has it. -/
def Instr.mnemonic : Instr → String
  | .lui .. => "LUI"
  | .auipc .. => "AUIPC"
  | .jal .. => "JAL"
  | .jalr .. => "JALR"
  | .beq .. => "BEQ"
  | .bne .. => "BNE"
  | .blt .. => "BLT"
  | .bge .. => "BGE"
  | .bltu .. => "BLTU"
  | .bgeu .. => "BGEU"
  | .lb .. => "LB"
  | .lh .. => "LH"
  | .lw .. => "LW"
  | .lbu .. => "LBU"
  | .lhu .. => "LHU"
  | .sb .. => "SB"
  | .sh .. => "SH"
  | .sw .. => "SW"
  | .addi .. => "ADDI"
  | .slti .. => "SLTI"
  | .sltiu .. => "SLTIU"
  | .xori .. => "XORI"
  | .ori .. => "ORI"
  | .andi .. => "ANDI"
  | .slli .. => "SLLI"
  | .srli .. => "SRLI"
  | .srai .. => "SRAI"
  | .add .. => "ADD"
  | .sub .. => "SUB"
  | .sll .. => "SLL"
  | .slt .. => "SLT"
  | .sltu .. => "SLTU"
  | .xor .. => "XOR"
  | .srl .. => "SRL"
  | .sra .. => "SRA"
  | .or .. => "OR"
  | .and .. => "AND"
  | .fence .. => "FENCE"
  | .ecall => "ECALL"
  | .ebreak => "EBREAK"
  | .fenceTso .. => "FENCE.TSO"

end Sys2Proof
end

