-- ==== Sys2Proof/Machine/Fetch.lean ====
section
/-! DEFINITION. What happens before an instruction runs: the hart must be able to take a step, the word at pc is fetched
(20_memory.md R44, R45, R63) and decoded (30_encoding.md R84), or the step raises (60_exceptions.md R231: fetch, then
decode, then execute). -/

namespace Sys2Proof.Machine

/-- What a fetch gives. -/
inductive Fetched where
  /-- the instruction word and the state after the fetch -/
  | word (w : Word) (t : State)
  /-- the map does not allow the fetch (20_memory.md R44) -/
  | accessFault
  /-- a store has written one of the bytes and CODE_WRITABLE is false (20_memory.md R63) -/
  | storedByte

/-- The word whose bytes `f` gives, the byte at the lowest address in `inst[7:0]` whatever ENDIAN is (20_memory.md R44, R45;
log 28). -/
def fetchedWord (pc : Word) (f : Nat → Byte) : Word :=
  wordOfBytes (f (byteAddr pc 0)) (f (byteAddr pc 1)) (f (byteAddr pc 2)) (f (byteAddr pc 3))

/-- Some byte of the word at pc has been written by a store. -/
def fetchesStored (s : State) : Bool :=
  (accessAddrs s.pc 4).any fun b => s.overwritten.any fun c => c.1 == b

/-- The byte a fetch sees where stores have written: one of the values the byte has held, a free choice (20_memory.md R63,
CODE_WRITABLE = true; log 15). -/
def staleByte (s : State) (b : Nat) : Byte :=
  let held := Memory.read s.mem b :: (s.overwritten.filter fun c => c.1 == b).map Prod.snd
  held.getD (Config.fetchChoice s.draws b % held.length) (Memory.read s.mem b)

/-- `Fetch(pc)` (20_memory.md R44, R63). -/
def fetch (s : State) : Fetched :=
  if mapAllows s.config.memMap s.pc 4 .fetch then
    if fetchesStored s then
      if s.config.codeWritable then .word (fetchedWord s.pc (staleByte s)) { s with draws := s.draws + 1 }
      else .storedByte
    else .word (fetchedWord s.pc (Memory.read s.mem)) s
  else .accessFault

/-- What the hart's turn comes to before an instruction runs. -/
inductive Ready where
  /-- run the instruction in this state -/
  | run (i : Instr) (t : State)
  /-- the step raised; this is the state after it -/
  | trapped (t : State)
  | stopped (f : Fault)
  | refused (r : Refusal)

/-- A word that matches no row of the opcode map: RESERVED = illegal_instruction raises IllegalInstruction with the word
(30_encoding.md R92, 60_exceptions.md R223). -/
def reservedWord (s : State) (w : Word) : State :=
  match s.config.reserved with
  | .illegalInstruction => s.raise .illegalInstruction w

/-- Fetch and decode, with the checks that a hart may take a step at all: it has not halted (60_exceptions.md R232), it is the
only hart (20_memory.md R62), and INTERRUPTS is false (60_exceptions.md R246). -/
def ready (s : State) : Ready :=
  match s.trap with
  | some rec => .stopped (.halted rec)
  | none =>
    if s.config.numHarts ≠ 1 then .refused .severalHarts
    else if s.config.interrupts then .refused .interruptsEnabled
    else
      match fetch s with
      | .accessFault => .trapped (s.raise .instructionAccessFault s.pc)
      | .storedByte => .refused .storedByteFetched
      | .word w t =>
        match decodeWord w with
        | .ok i => .run i t
        | .error _ => .trapped (reservedWord t w)

end Sys2Proof.Machine
end

