-- ==== Sys2Proof/Machine/Step.lean ====
section
/-! DEFINITION. One step of the machine: the turn of whoever moves next (00_scope.md R12, R13; log 17). -/

namespace Sys2Proof.Machine

/-- The hart's turn: fetch, decode, execute one instruction (00_scope.md R12). -/
def hartTurn (s : State) : Host.Outcome State Fault Refusal :=
  match ready s with
  | .run i t => exec i t
  | .trapped t => .next t
  | .stopped f => .fault f
  | .refused r => .refused r

/-- One step: the turn at the head of the agenda, the hart's if the agenda is empty. -/
def step (s : State) : Host.Outcome State Fault Refusal :=
  match s.agenda with
  | [] => hartTurn s
  | .hart :: rest => hartTurn { s with agenda := rest }
  | .act a :: rest => agentTurn a { s with agenda := rest }

/-- A configuration under which the word at `pc` can be fetched and run: one hart, no interrupts, and a map that allows the
fetch (the whole address space if the present one does not). -/
def launchConfig (c : Config) (pc : Word) : Config :=
  { c with numHarts := 1, interrupts := false,
           memMap := if mapAllows c.memMap pc 4 .fetch then c.memMap else [Region.whole] }

/-- `s` with the instruction of bits `w` (numbered as spec/opcode_table.json numbers them) loaded from outside at pc, where the
next step fetches it (70_reset_and_hazards.md R282; log 6): the hart running and its turn next, the four bytes in memory and
no store noted on them. -/
def State.withFetchWord (s : State) (nbits w : Nat) : State :=
  { s with trap := none, agenda := [], config := launchConfig s.config s.pc,
           mem := Memory.writeAll s.mem ((accessAddrs s.pc 4).zip (wordBytes (BitVec.ofNat 32 (w % 2 ^ nbits)))),
           overwritten := s.overwritten.filter fun c => !(accessAddrs s.pc 4).contains c.1 }

end Sys2Proof.Machine
end

