-- ==== Sys2Proof/Machine/Classes.lean ====
section
/-! DEFINITION. Classes of instructions the spec speaks of: the integer computational ones and their HINTs (45_hints.md), the
return-address-stack table (41_control_transfer.md R163), and which exceptions an instruction can raise (60_exceptions.md
R220). None changes what an instruction does (10_state.md R32, R33; log 25). -/

namespace Sys2Proof.Machine

/-- The register of the `rd` field of an instruction that has one; FENCE ignores its own (43_memory_ordering.md R194). -/
def destination : Instr → Option Reg
  | .lui rd _ => some rd
  | .auipc rd _ => some rd
  | .jal rd _ => some rd
  | .jalr rd _ _ => some rd
  | .beq _ _ _ => none
  | .bne _ _ _ => none
  | .blt _ _ _ => none
  | .bge _ _ _ => none
  | .bltu _ _ _ => none
  | .bgeu _ _ _ => none
  | .lb rd _ _ => some rd
  | .lh rd _ _ => some rd
  | .lw rd _ _ => some rd
  | .lbu rd _ _ => some rd
  | .lhu rd _ _ => some rd
  | .sb _ _ _ => none
  | .sh _ _ _ => none
  | .sw _ _ _ => none
  | .addi rd _ _ => some rd
  | .slti rd _ _ => some rd
  | .sltiu rd _ _ => some rd
  | .xori rd _ _ => some rd
  | .ori rd _ _ => some rd
  | .andi rd _ _ => some rd
  | .slli rd _ _ => some rd
  | .srli rd _ _ => some rd
  | .srai rd _ _ => some rd
  | .add rd _ _ => some rd
  | .sub rd _ _ => some rd
  | .sll rd _ _ => some rd
  | .slt rd _ _ => some rd
  | .sltu rd _ _ => some rd
  | .xor rd _ _ => some rd
  | .srl rd _ _ => some rd
  | .sra rd _ _ => some rd
  | .or rd _ _ => some rd
  | .and rd _ _ => some rd
  | .fence _ _ _ _ _ => none
  | .ecall => none
  | .ebreak => none
  | .fenceTso _ _ => none

/-- The registers an instruction reads. -/
def sources : Instr → List Reg
  | .lui _ _ => []
  | .auipc _ _ => []
  | .jal _ _ => []
  | .jalr _ rs1 _ => [rs1]
  | .beq rs1 rs2 _ => [rs1, rs2]
  | .bne rs1 rs2 _ => [rs1, rs2]
  | .blt rs1 rs2 _ => [rs1, rs2]
  | .bge rs1 rs2 _ => [rs1, rs2]
  | .bltu rs1 rs2 _ => [rs1, rs2]
  | .bgeu rs1 rs2 _ => [rs1, rs2]
  | .lb _ rs1 _ => [rs1]
  | .lh _ rs1 _ => [rs1]
  | .lw _ rs1 _ => [rs1]
  | .lbu _ rs1 _ => [rs1]
  | .lhu _ rs1 _ => [rs1]
  | .sb rs1 rs2 _ => [rs1, rs2]
  | .sh rs1 rs2 _ => [rs1, rs2]
  | .sw rs1 rs2 _ => [rs1, rs2]
  | .addi _ rs1 _ => [rs1]
  | .slti _ rs1 _ => [rs1]
  | .sltiu _ rs1 _ => [rs1]
  | .xori _ rs1 _ => [rs1]
  | .ori _ rs1 _ => [rs1]
  | .andi _ rs1 _ => [rs1]
  | .slli _ rs1 _ => [rs1]
  | .srli _ rs1 _ => [rs1]
  | .srai _ rs1 _ => [rs1]
  | .add _ rs1 rs2 => [rs1, rs2]
  | .sub _ rs1 rs2 => [rs1, rs2]
  | .sll _ rs1 rs2 => [rs1, rs2]
  | .slt _ rs1 rs2 => [rs1, rs2]
  | .sltu _ rs1 rs2 => [rs1, rs2]
  | .xor _ rs1 rs2 => [rs1, rs2]
  | .srl _ rs1 rs2 => [rs1, rs2]
  | .sra _ rs1 rs2 => [rs1, rs2]
  | .or _ rs1 rs2 => [rs1, rs2]
  | .and _ rs1 rs2 => [rs1, rs2]
  | .fence _ _ _ _ _ => []
  | .ecall => []
  | .ebreak => []
  | .fenceTso _ _ => []

/-- The mnemonics of the 21 integer computational instructions (45_hints.md R211). -/
def computationalMnemonics : List String :=
  ["ADDI", "SLTI", "SLTIU", "XORI", "ORI", "ANDI", "SLLI", "SRLI", "SRAI", "LUI", "AUIPC", "ADD", "SUB", "SLL", "SLT",
   "SLTU", "XOR", "SRL", "SRA", "OR", "AND"]

/-- One of the 21 integer computational instructions (40_integer_computational.md R110, 45_hints.md R211). -/
def isComputational (i : Instr) : Bool := computationalMnemonics.contains i.mnemonic

/-- A load (42_load_store.md R170). -/
def isLoad (i : Instr) : Bool := ["LB", "LH", "LW", "LBU", "LHU"].contains i.mnemonic

/-- A store (42_load_store.md R170). -/
def isStore (i : Instr) : Bool := ["SB", "SH", "SW"].contains i.mnemonic

/-- NOP is `addi x0, x0, 0` (40_integer_computational.md R136). -/
def nop : Instr := .addi 0 0 0

/-- A HINT (45_hints.md R210 to R212): an integer computational instruction with `rd = x0` other than the NOP, or a FENCE with
`fm = 0` and an empty predecessor or successor set. -/
def isHint (i : Instr) : Bool :=
  match i with
  | .fence fm pred succ _ _ => fm == 0 && (pred == 0 || succ == 0)
  | j => isComputational j && destination j == some 0 && j != nop

/-- Who may define a HINT's meaning (45_hints.md R213). -/
inductive HintSpace where
  | standard
  | custom
  deriving DecidableEq, Repr

/-- The partition of the HINT space in 45_hints.md R213, general knowledge by the spec's own mark (log 35); the FENCE row is for
`rs1 = rd = x0`. No rule of the machine depends on it. -/
def hintSpace (i : Instr) : Option HintSpace :=
  if !isHint i then none
  else if ["SLTI", "SLTIU", "SLLI", "SRLI", "SRAI", "SLT", "SLTU"].contains i.mnemonic then some .custom
  else
    match i with
    | .fence _ _ _ rs1 rd => if rs1 = 0 ∧ rd = 0 then some .standard else none
    | _ => some .standard

/-- What a jump tells a return-address stack (41_control_transfer.md R163). -/
inductive RasAction where
  | none
  | pop
  | push
  | popThenPush
  deriving DecidableEq, Repr

/-- A link register: x1 or x5 (41_control_transfer.md R163). -/
def isLink (r : Reg) : Bool := r == 1 || r == 5

/-- The return-address-stack table of 41_control_transfer.md R163. A hint to a predictor: the machine holds no such stack
(10_state.md R32). -/
def rasAction : Instr → RasAction
  | .jal rd _ => if isLink rd then .push else .none
  | .jalr rd rs1 _ =>
    match isLink rd, isLink rs1 with
    | false, false => .none
    | false, true => .pop
    | true, false => .push
    | true, true => if rd = rs1 then .push else .popThenPush
  | _ => .none

/-- The exceptions an instruction can raise once it is fetched and decoded (60_exceptions.md R220). -/
def canRaise (i : Instr) : List Cause :=
  if isComputational i then []
  else if ["LB", "LBU"].contains i.mnemonic then [.loadAccessFault]
  else if ["LH", "LHU", "LW"].contains i.mnemonic then [.loadAddressMisaligned, .loadAccessFault]
  else if i.mnemonic == "SB" then [.storeAccessFault]
  else if ["SH", "SW"].contains i.mnemonic then [.storeAddressMisaligned, .storeAccessFault]
  else if i.mnemonic == "ECALL" then [.environmentCall]
  else if i.mnemonic == "EBREAK" then [.breakpoint]
  else if ["FENCE", "FENCE.TSO"].contains i.mnemonic then []
  else [.instructionAddressMisaligned]

end Sys2Proof.Machine
end

