-- ==== Sys2Proof/Machine/Pseudo.lean ====
section
/-! DEFINITION. The pseudo-instructions the source defines (30_encoding.md R102), each as its exact expansion, and those of the
standard toolchain that expand to one instruction (R103, general knowledge by the spec's own mark; log 7). They are names of
instructions, not instructions. Offsets are byte offsets. -/

namespace Sys2Proof.Machine.Pseudo

/-! ### R102 -/

def mv (rd rs1 : Reg) : Instr := .addi rd rs1 0
def seqz (rd rs : Reg) : Instr := .sltiu rd rs 1
def not (rd rs : Reg) : Instr := .xori rd rs 0xFFF
def snez (rd rs : Reg) : Instr := .sltu rd 0 rs
def j (offset : BitVec 21) : Instr := .jal 0 offset
def bgt (rs rt : Reg) (offset : BitVec 13) : Instr := .blt rt rs offset
def bgtu (rs rt : Reg) (offset : BitVec 13) : Instr := .bltu rt rs offset
def ble (rs rt : Reg) (offset : BitVec 13) : Instr := .bge rt rs offset
def bleu (rs rt : Reg) (offset : BitVec 13) : Instr := .bgeu rt rs offset
def fenceTso : Instr := .fenceTso 0 0

/-! ### R103 -/

def neg (rd rs : Reg) : Instr := .sub rd 0 rs
def sltz (rd rs : Reg) : Instr := .slt rd rs 0
def sgtz (rd rs : Reg) : Instr := .slt rd 0 rs
def beqz (rs : Reg) (offset : BitVec 13) : Instr := .beq rs 0 offset
def bnez (rs : Reg) (offset : BitVec 13) : Instr := .bne rs 0 offset
def blez (rs : Reg) (offset : BitVec 13) : Instr := .bge 0 rs offset
def bgez (rs : Reg) (offset : BitVec 13) : Instr := .bge rs 0 offset
def bltz (rs : Reg) (offset : BitVec 13) : Instr := .blt rs 0 offset
def bgtz (rs : Reg) (offset : BitVec 13) : Instr := .blt 0 rs offset
def jal (offset : BitVec 21) : Instr := .jal 1 offset
def jr (rs : Reg) : Instr := .jalr 0 rs 0
def jalr (rs : Reg) : Instr := .jalr 1 rs 0
def ret : Instr := .jalr 0 1 0
def fence : Instr := .fence 0 0xF 0xF 0 0

/-- `%hi(v)`: the upper 20 bits, rounded so that the sign-extended low 12 bits add up to `v` (R103). -/
def hi (v : Word) : BitVec 20 := (v + 0x800#32).extractLsb' 12 20

/-- `%lo(v)`: the low 12 bits (R103). -/
def lo (v : Word) : BitVec 12 := v.extractLsb' 0 12

/-- `li rd, imm`: one ADDI for a 12-bit constant, else LUI and, unless the low part is 0, ADDI (R103). -/
def li (rd : Reg) (v : Word) : List Instr :=
  if (lo v).signExtend 32 = v then [.addi rd 0 (lo v)]
  else if lo v = 0 then [.lui rd (hi v)]
  else [.lui rd (hi v), .addi rd rd (lo v)]

/-- `la rd, symbol`, with the symbol's offset from the AUIPC (R103). -/
def la (rd : Reg) (offset : Word) : List Instr := [.auipc rd (hi offset), .addi rd rd (lo offset)]

/-- `call offset` (R103). -/
def call (offset : Word) : List Instr := [.auipc 1 (hi offset), .jalr 1 1 (lo offset)]

/-- `tail offset` (R103). -/
def tail (offset : Word) : List Instr := [.auipc 6 (hi offset), .jalr 0 6 (lo offset)]

/-- The assembler's register names (30_encoding.md R101), by register number. -/
def abiNames : List String :=
  ["zero", "ra", "sp", "gp", "tp", "t0", "t1", "t2", "s0", "s1", "a0", "a1", "a2", "a3", "a4", "a5"] ++
  ["a6", "a7", "s2", "s3", "s4", "s5", "s6", "s7", "s8", "s9", "s10", "s11", "t3", "t4", "t5", "t6"]

end Sys2Proof.Machine.Pseudo
end

