-- ==== Sys2Proof/Safety.lean ====
section
/-! DEFINITION. The terms claims are stated in: what a step leaves unchanged, what an instruction computes, the machine's
invariant, and the numeric readings of bytes the spec's rules use. -/

namespace Sys2Proof.Machine

/-! ### Frames -/

/-- Every byte of memory reads as before. -/
def SameMemory (s t : State) : Prop := ∀ a, Memory.read t.mem a = Memory.read s.mem a

/-- Every integer register reads as before. -/
def SameRegs (s t : State) : Prop := ∀ r, t.x r = s.x r

/-- The configuration, the PLIC, the hart's accesses on their way to it, the local pending bits and the agenda are as before. -/
def SamePlatform (s t : State) : Prop :=
  t.config = s.config ∧ t.plic = s.plic ∧ t.posted = s.posted ∧ t.ahead = s.ahead ∧
    t.localPending = s.localPending ∧ t.agenda = s.agenda

/-- The model's own records (replaced bytes, history, draw counter) are as before. -/
def SameRecords (s t : State) : Prop :=
  t.overwritten = s.overwritten ∧ t.events = s.events ∧ t.draws = s.draws

/-- The one register write `x[rd] <- v`: `rd` reads `v` (0 if `rd` is x0), every other register as before
(10_state.md R21, R22). -/
def WritesReg (s t : State) (rd : Reg) (v : Word) : Prop :=
  t.x rd = (if rd = 0 then 0 else v) ∧ ∀ r, r ≠ rd → t.x r = s.x r

/-- The instruction completes: `rd` gets `v`, the pc advances by 4, and nothing else changes (the shape of
40_integer_computational.md R110). -/
def ComputesTo (i : Instr) (s : State) (rd : Reg) (v : Word) : Prop :=
  ∃ t, exec i s = .next t ∧ WritesReg s t rd v ∧ t.pc = s.pc + 4 ∧ t.trap = s.trap ∧
    SameMemory s t ∧ SamePlatform s t ∧ SameRecords s t

/-- The instruction moves the pc to `target` and changes nothing else. -/
def GoesTo (i : Instr) (s : State) (target : Word) : Prop :=
  ∃ t, exec i s = .next t ∧ SameRegs s t ∧ t.pc = target ∧ t.trap = s.trap ∧
    SameMemory s t ∧ SamePlatform s t ∧ SameRecords s t

/-- The instruction raises: the hart halts with the record and everything else is exactly as before
(60_exceptions.md R232, R233). -/
def TrapsWith (i : Instr) (s : State) (c : Cause) (tval : Word) : Prop :=
  exec i s = .next { s with trap := some ⟨c, s.pc, tval⟩ }

/-! ### Words by format (30_encoding.md R72 to R77, R83) -/

/-- An I-type word with these fields (30_encoding.md R73). -/
def IsIWord (w : Word) (opcode : BitVec 7) (funct3 : BitVec 3) (rd rs1 : Reg) (imm : BitVec 12) : Prop :=
  w.extractLsb' 0 7 = opcode ∧ w.extractLsb' 12 3 = funct3 ∧ w.extractLsb' 7 5 = rd ∧ w.extractLsb' 15 5 = rs1 ∧
    w.extractLsb' 20 12 = imm

/-- An R-type word with these fields (30_encoding.md R72); the shift-immediate form has its shamt in place of rs2
(R83 (a)). -/
def IsRWord (w : Word) (opcode : BitVec 7) (funct3 : BitVec 3) (funct7 : BitVec 7) (rd rs1 rs2 : Reg) : Prop :=
  w.extractLsb' 0 7 = opcode ∧ w.extractLsb' 12 3 = funct3 ∧ w.extractLsb' 25 7 = funct7 ∧ w.extractLsb' 7 5 = rd ∧
    w.extractLsb' 15 5 = rs1 ∧ w.extractLsb' 20 5 = rs2

/-- An S-type word with these fields (30_encoding.md R74). -/
def IsSWord (w : Word) (opcode : BitVec 7) (funct3 : BitVec 3) (rs1 rs2 : Reg) (imm : BitVec 12) : Prop :=
  w.extractLsb' 0 7 = opcode ∧ w.extractLsb' 12 3 = funct3 ∧ w.extractLsb' 15 5 = rs1 ∧ w.extractLsb' 20 5 = rs2 ∧
    w.extractLsb' 25 7 ++ w.extractLsb' 7 5 = imm

/-- A B-type word with these fields (30_encoding.md R75, R80). -/
def IsBWord (w : Word) (opcode : BitVec 7) (funct3 : BitVec 3) (rs1 rs2 : Reg) (offset : BitVec 13) : Prop :=
  w.extractLsb' 0 7 = opcode ∧ w.extractLsb' 12 3 = funct3 ∧ w.extractLsb' 15 5 = rs1 ∧ w.extractLsb' 20 5 = rs2 ∧
    w.extractLsb' 31 1 ++ w.extractLsb' 7 1 ++ w.extractLsb' 25 6 ++ w.extractLsb' 8 4 ++ 0#1 = offset

/-- A FENCE word with these fields (30_encoding.md R83 (b), 43_memory_ordering.md R190). -/
def IsFenceWord (w : Word) (fm pred succ : BitVec 4) (rs1 rd : Reg) : Prop :=
  w.extractLsb' 0 7 = 0b0001111#7 ∧ w.extractLsb' 12 3 = 0b000#3 ∧ w.extractLsb' 28 4 = fm ∧ w.extractLsb' 24 4 = pred ∧
    w.extractLsb' 20 4 = succ ∧ w.extractLsb' 15 5 = rs1 ∧ w.extractLsb' 7 5 = rd

/-- A U-type word with these fields (30_encoding.md R76). -/
def IsUWord (w : Word) (opcode : BitVec 7) (rd : Reg) (imm : BitVec 20) : Prop :=
  w.extractLsb' 0 7 = opcode ∧ w.extractLsb' 7 5 = rd ∧ w.extractLsb' 12 20 = imm

/-- A J-type word with these fields (30_encoding.md R77, R82). -/
def IsJWord (w : Word) (opcode : BitVec 7) (rd : Reg) (offset : BitVec 21) : Prop :=
  w.extractLsb' 0 7 = opcode ∧ w.extractLsb' 7 5 = rd ∧
    w.extractLsb' 31 1 ++ w.extractLsb' 12 8 ++ w.extractLsb' 20 1 ++ w.extractLsb' 21 10 ++ 0#1 = offset

/-! ### Numeric readings -/

/-- The unsigned number whose bytes these are, least significant first (20_memory.md R41, little-endian). -/
def littleValue : List Byte → Nat
  | [] => 0
  | b :: rest => b.toNat + 256 * littleValue rest

/-- The unsigned number that bytes in ascending address order stand for in a byte order (20_memory.md R41, R43). -/
def bytesValue (e : Endian) (bytes : List Byte) : Nat :=
  match e with
  | .little => littleValue bytes
  | .big => littleValue bytes.reverse

/-- Byte `i` (0 the least significant) of a number. -/
def byteOf (v : Nat) (i : Nat) : Byte := BitVec.ofNat 8 (v / 256 ^ i)

/-- The byte that a store of the low `n` bytes of `v` puts at its `i`-th address (20_memory.md R42). -/
def storedByte (e : Endian) (n : Nat) (v : Word) (i : Nat) : Byte :=
  match e with
  | .little => byteOf v.toNat i
  | .big => byteOf v.toNat (n - 1 - i)

/-- `i` is a load of `n` bytes into `rd` from `x[rs1] + sext(imm)` that writes `v m` for the number `m` the bytes stand for
(42_load_store.md R172 to R176). -/
def IsLoad (i : Instr) (rd rs1 : Reg) (imm : BitVec 12) (n : Nat) (v : Nat → Word) : Prop :=
  (i = .lb rd rs1 imm ∧ n = 1 ∧ v = fun m => BitVec.ofInt 32 (BitVec.ofNat 8 m).toInt) ∨
  (i = .lbu rd rs1 imm ∧ n = 1 ∧ v = BitVec.ofNat 32) ∨
  (i = .lh rd rs1 imm ∧ n = 2 ∧ v = fun m => BitVec.ofInt 32 (BitVec.ofNat 16 m).toInt) ∨
  (i = .lhu rd rs1 imm ∧ n = 2 ∧ v = BitVec.ofNat 32) ∨
  (i = .lw rd rs1 imm ∧ n = 4 ∧ v = BitVec.ofNat 32)

/-- `i` is a store of the low `n` bytes of `x[rs2]` to `x[rs1] + sext(imm)` (42_load_store.md R177 to R179). -/
def IsStore (i : Instr) (rs1 rs2 : Reg) (imm : BitVec 12) (n : Nat) : Prop :=
  (i = .sb rs1 rs2 imm ∧ n = 1) ∨ (i = .sh rs1 rs2 imm ∧ n = 2) ∨ (i = .sw rs1 rs2 imm ∧ n = 4)

/-- The access passes its checks and reaches no PLIC register. -/
def ReachesMemory (s : State) (a : Word) (n : Nat) (k : Access) : Prop :=
  checkAccess s a n k = none ∧ plicAccess s a n = none

/-- Every byte of the access is in main memory. -/
def AllMain (s : State) (a : Word) (n : Nat) : Prop := ∀ i, i < n → isDevice s.config.memMap (byteAddr a i) = false

/-- Every byte of the access belongs to a device. -/
def AllDevice (s : State) (a : Word) (n : Nat) : Prop := ∀ i, i < n → isDevice s.config.memMap (byteAddr a i) = true

/-- What a load or store at a PLIC register leaves but for `rd` and the PLIC: the pc advanced, the access in the history with its kinds
and value (43_memory_ordering.md R191, R197), a draw made, all else as before. -/
def AccessRecorded (s u : State) (kinds : KindSet) (a : Word) (n : Nat) (value : Word) : Prop :=
  u.pc = s.pc + 4 ∧ u.trap = s.trap ∧ SameMemory s u ∧ u.overwritten = s.overwritten ∧ u.config = s.config ∧
  u.localPending = s.localPending ∧ u.agenda = s.agenda ∧ u.draws = s.draws + 1 ∧
  u.events = s.events ++ [.access kinds a n value]

/-- `e` is what the PLIC has seen, in time, of the load or store of `n` bytes at `a` that comes next: no FENCE orders before it an
access that the PLIC had not seen then, one to come that was not seen before `e` either or a store on its way (log 38). -/
def SeenInTime (s : State) (store : Bool) (a : Word) (n : Nat) (e : EarlyAccess) : Prop :=
  e ∈ s.ahead ∧ e.event = s.events.length ∧ e.store = store ∧ e.addr = a ∧ e.width = n ∧
  ∀ j, j < s.events.length →
    (e.seenAt ≤ j ∧ ¬(j ∈ e.earlier ∧ ∀ f ∈ s.ahead, f.event ≠ j)) ∨ j ∈ e.waiting →
    fencedBefore s.events j (if store then deviceOutput else deviceInput) = false

/-! ### The invariant -/

/-- pc is a multiple of 4 (10_state.md R26). -/
def PcAligned (s : State) : Prop := s.pc.toNat % 4 = 0

/-- A halted hart stands at the instruction that raised (60_exceptions.md R233, R234). -/
def TrapAtPc (s : State) : Prop := ∀ rec, s.trap = some rec → rec.epc = s.pc

/-- One token per source: a busy gateway has exactly one request, in its queue, accepted (IP) or claimed; an idle one has none
(60_exceptions.md R259: "At most one interrupt request per interrupt source can be pending"). The priority is a legal value
(R254), a gateway that has something to forward is busy (R260, R261), and only a counting gateway counts (R261). -/
def SourceLegal (sp : SourceParams) (ss : PlicSource) : Prop :=
  WarlMask.legalise sp.prio ss.prio = ss.prio ∧
  ss.ip.toNat + ss.requests + ss.claimedBy.isSome.toNat = ss.busy.toNat ∧
  (ss.wants sp.gateway = true → ss.busy = true) ∧
  (sp.gateway ≠ .edgeCounting → ss.cnt = 0)

/-- The IE bits and the threshold hold legal values (60_exceptions.md R255, R256). -/
def TargetLegal (n : Nat) (tp : TargetParams) (tt : PlicTarget) : Prop :=
  tt.ie.length = n ∧ (∀ (k : Nat) (b : Bool), tt.ie[k]? = some b → legalEnable tp (k + 1) b = b) ∧
    inRanges tp.thr tt.thr = true

/-- A PLIC state that fits its instance. -/
def PlicLegal (p : PlicParams) (pl : Plic) : Prop :=
  pl.sources.length = p.sources.length ∧ pl.targets.length = p.targets.length ∧
  (∀ (k : Nat) (sp : SourceParams) (ss : PlicSource), p.sources[k]? = some sp → pl.sources[k]? = some ss → SourceLegal sp ss) ∧
  (∀ (k : Nat) (tp : TargetParams) (tt : PlicTarget), p.targets[k]? = some tp → pl.targets[k]? = some tt → TargetLegal p.sources.length tp tt)

/-- The PLIC states a reset may leave (70_reset_and_hazards.md R283): legal values, `busy[s] = IP[s]`, `cnt[s] = 0`, no claim
open, lines deasserted, all message queues empty. -/
def PlicStart (p : PlicParams) (pl : Plic) : Prop :=
  PlicLegal p pl ∧ pl.writes = [] ∧ pl.claims = [] ∧ pl.completions = [] ∧
  (∀ ss ∈ pl.sources, ss.busy = ss.ip ∧ ss.cnt = 0 ∧ ss.requests = 0 ∧ ss.claimedBy = none ∧ ss.level = false) ∧
  (∀ tt ∈ pl.targets, tt.seen = false ∧ tt.responses = [])

/-- The PLIC part of the invariant: absent without an instance, legal with one. -/
def PlicInv (s : State) : Prop :=
  match s.config.plic with
  | none => s.plic = Plic.absent
  | some p => PlicLegal p s.plic

/-- The stores on their way to the PLIC are events of the history, oldest first (log 38). -/
def PostedInOrder (s : State) : Prop :=
  s.posted.Pairwise (fun q r => q.event < r.event) ∧ ∀ q ∈ s.posted, q.event < s.events.length

/-- The PLIC sees no access ahead twice (log 38). -/
def EarlyOnce (s : State) : Prop := (s.ahead.map EarlyAccess.event).Nodup

/-- The machine's invariant: a configuration the environment may supply, memory in canonical form, pc aligned, a halted hart at
its raising instruction, a legal PLIC, no local source listed twice, the accesses on their way to the PLIC in order. -/
def StateInv (s : State) : Prop :=
  Config.wf s.config = true ∧ Memory.wf s.mem = true ∧ PcAligned s ∧ TrapAtPc s ∧ PlicInv s ∧ s.localPending.Nodup ∧
  PostedInOrder s ∧ EarlyOnce s

end Sys2Proof.Machine
end

