-- ==== Sys2Proof/Certificates/Slice0/Obligations.lean ====
section
/-! DEFINITION. The statements for the provers. Each says what the machine does, in the spec's terms; OBLIGATIONS.json gives
the rules each rests on.

Three things the spec decides for itself come up in many of them, and where one does the statement's basis is 'derived': a trap
hands a record (cause, epc, tval) to the environment, halts the hart and leaves everything else as it was (92_eei_decisions.md D5,
D17, D22; log 8); alignment is checked before the map (D15; log 30); the encodings' numbers are general knowledge by the spec's
own mark (30_encoding.md R85; log 7). -/

open Sys2Proof Sys2Proof.Machine

/-! ### Decoding and encoding -/

/-- Decode and encode agree: every well-formed instruction's word decodes to it (30_encoding.md R70 to R85). -/
def Obligations.EncodedInstructionDecodes : Prop :=
  ∀ i : Instr, i.wellFormed = true → decode (wordBytes (encode i)) = .ok (i, [])

/-- Decode and encode agree the other way: a word that decodes is the encoding of what it decodes to, which is well formed; so no
bit of an accepted word is dropped (30_encoding.md R70 to R85). -/
def Obligations.DecodedWordReencodes : Prop :=
  ∀ (w : Word) (i : Instr), decodeWord w = .ok i → i.wellFormed = true ∧ encode i = w

/-- The decoder finds the row of the table of 30_encoding.md R85: the first row a word matches, FENCE.TSO before FENCE, names the
decoded instruction; a word that matches a row decodes, one that matches none does not; and two different rows match one word only if
they are FENCE.TSO and FENCE (R84). -/
def Obligations.DecoderFollowsOpcodeTable : Prop :=
  (∀ (w : Word) (i : Instr), decodeWord w = .ok i →
    ∃ row, opcodeTable.find? (fun r => r.matchesWord w) = some row ∧ row.mnemonic = i.mnemonic) ∧
  (∀ (w : Word), ∀ row ∈ opcodeTable, row.matchesWord w = true → ∃ i, decodeWord w = .ok i) ∧
  (∀ w : Word, (∀ row ∈ opcodeTable, row.matchesWord w = false) → ∃ e, decodeWord w = .error e) ∧
  (∀ (w : Word), ∀ r ∈ opcodeTable, ∀ q ∈ opcodeTable, r.matchesWord w = true → q.matchesWord w = true →
    r = q ∨ (r.mnemonic = "FENCE.TSO" ∧ q.mnemonic = "FENCE") ∨ (r.mnemonic = "FENCE" ∧ q.mnemonic = "FENCE.TSO"))

/-- The five immediates are assembled from the instruction bits as 30_encoding.md R78 to R82 say, with their stated ranges; B and
J immediates are even. -/
def Obligations.ImmediatesAssembleFromWord : Prop :=
  ∀ w : Word,
    (immI (immIOf w) = BitVec.replicate 21 (w.extractLsb' 31 1) ++ w.extractLsb' 25 6 ++ w.extractLsb' 21 4 ++
        w.extractLsb' 20 1 ∧
      -2048 ≤ (immI (immIOf w)).toInt ∧ (immI (immIOf w)).toInt ≤ 2047) ∧
    (immS (immSOf w) = BitVec.replicate 21 (w.extractLsb' 31 1) ++ w.extractLsb' 25 6 ++ w.extractLsb' 8 4 ++
        w.extractLsb' 7 1 ∧
      -2048 ≤ (immS (immSOf w)).toInt ∧ (immS (immSOf w)).toInt ≤ 2047) ∧
    (immB (offsetBOf w) = BitVec.replicate 20 (w.extractLsb' 31 1) ++ w.extractLsb' 7 1 ++ w.extractLsb' 25 6 ++
        w.extractLsb' 8 4 ++ 0#1 ∧
      -4096 ≤ (immB (offsetBOf w)).toInt ∧ (immB (offsetBOf w)).toInt ≤ 4094 ∧ (immB (offsetBOf w)).toNat % 2 = 0) ∧
    immU (immUOf w) = w.extractLsb' 12 20 ++ 0#12 ∧
    (immJ (offsetJOf w) = BitVec.replicate 12 (w.extractLsb' 31 1) ++ w.extractLsb' 12 8 ++ w.extractLsb' 20 1 ++
        w.extractLsb' 25 6 ++ w.extractLsb' 21 4 ++ 0#1 ∧
      -1048576 ≤ (immJ (offsetJOf w)).toInt ∧ (immJ (offsetJOf w)).toInt ≤ 1048574 ∧
      (immJ (offsetJOf w)).toNat % 2 = 0)

/-- Words written out from the spec's encodings decode to the instructions the spec prints beside them (40, 41, 42, 43, 44:
the worked examples of R111, R119, R120, R126, R151, R152, R156, R174, R179, R190, R193, R201, R202). -/
def Obligations.SpecWordsDecode : Prop :=
  decodeWord 0xFFF30293#32 = .ok (.addi 5 6 0xFFF) ∧ decodeWord 0x40435293#32 = .ok (.srai 5 6 4) ∧
  decodeWord 0x123452B7#32 = .ok (.lui 5 0x12345) ∧ decodeWord 0x407302B3#32 = .ok (.sub 5 6 7) ∧
  decodeWord 0xFFDFF06F#32 = .ok (.jal 0 0x1FFFFC) ∧ decodeWord 0x005300E7#32 = .ok (.jalr 1 6 5) ∧
  decodeWord 0x00730463#32 = .ok (.beq 6 7 8) ∧ decodeWord 0xFFC32283#32 = .ok (.lw 5 6 0xFFC) ∧
  decodeWord 0xFE732E23#32 = .ok (.sw 6 7 0xFFC) ∧ decodeWord 0x0120000F#32 = .ok (.fence 0 1 2 0 0) ∧
  decodeWord 0x8330000F#32 = .ok (.fenceTso 0 0) ∧ decodeWord 0x00000073#32 = .ok .ecall ∧
  decodeWord 0x00100073#32 = .ok .ebreak

/-! ### Registers -/

/-- Register x0 is hardwired to 0 and the other registers are not: in every state `x[0]` reads 0; writing `v` to any register
leaves `x[0]` at 0, makes that register read `v` unless it is x0, leaves every other register as it was, and touches nothing
but the register file (10_state.md R21, R22). -/
def Obligations.RegisterZeroIsHardwired : Prop :=
  ∀ (s : State) (r : Reg) (v : Word), s.x 0 = 0 ∧ (s.setX r v).x 0 = 0 ∧ (r ≠ 0 → (s.setX r v).x r = v) ∧
    (∀ q, q ≠ r → (s.setX r v).x q = s.x q) ∧ s.setX 0 v = s ∧ s.setX r v = { s with regs := (s.setX r v).regs }

/-! ### Integer computation -/

/-- ADDI, ADD, SUB: the word of each decodes to it; the result is the low 32 bits of the exact sum or difference of the operands
read as signed numbers (the immediate sign-extended); it completes for all operands and changes only `rd` and pc
(40_integer_computational.md R111, R125, R126). -/
def Obligations.AddAndSubtract : Prop :=
  (∀ w rd rs1 imm, IsIWord w 0b0010011 0b000 rd rs1 imm → decodeWord w = .ok (.addi rd rs1 imm)) ∧
  (∀ w rd rs1 rs2, IsRWord w 0b0110011 0b000 0b0000000 rd rs1 rs2 → decodeWord w = .ok (.add rd rs1 rs2)) ∧
  (∀ w rd rs1 rs2, IsRWord w 0b0110011 0b000 0b0100000 rd rs1 rs2 → decodeWord w = .ok (.sub rd rs1 rs2)) ∧
  (∀ (s : State) (rd rs1 rs2 : Reg) (imm : BitVec 12),
    ComputesTo (.addi rd rs1 imm) s rd (BitVec.ofInt 32 ((s.x rs1).toInt + imm.toInt)) ∧
    ComputesTo (.add rd rs1 rs2) s rd (BitVec.ofInt 32 ((s.x rs1).toInt + (s.x rs2).toInt)) ∧
    ComputesTo (.sub rd rs1 rs2) s rd (BitVec.ofInt 32 ((s.x rs1).toInt - (s.x rs2).toInt)))

/-- SLTI, SLTIU, SLT, SLTU: the word of each decodes to it; the result is 1 if the first operand is less than the second, as
signed numbers for SLTI and SLT, as unsigned for SLTIU (its immediate sign-extended first) and SLTU, else 0
(40_integer_computational.md R112, R113, R128, R129). -/
def Obligations.SetLessThan : Prop :=
  (∀ w rd rs1 imm, IsIWord w 0b0010011 0b010 rd rs1 imm → decodeWord w = .ok (.slti rd rs1 imm)) ∧
  (∀ w rd rs1 imm, IsIWord w 0b0010011 0b011 rd rs1 imm → decodeWord w = .ok (.sltiu rd rs1 imm)) ∧
  (∀ w rd rs1 rs2, IsRWord w 0b0110011 0b010 0b0000000 rd rs1 rs2 → decodeWord w = .ok (.slt rd rs1 rs2)) ∧
  (∀ w rd rs1 rs2, IsRWord w 0b0110011 0b011 0b0000000 rd rs1 rs2 → decodeWord w = .ok (.sltu rd rs1 rs2)) ∧
  (∀ (s : State) (rd rs1 rs2 : Reg) (imm : BitVec 12),
    ComputesTo (.slti rd rs1 imm) s rd (if (s.x rs1).toInt < imm.toInt then 1 else 0) ∧
    ComputesTo (.sltiu rd rs1 imm) s rd (if (s.x rs1).toNat < (BitVec.ofInt 32 imm.toInt).toNat then 1 else 0) ∧
    ComputesTo (.slt rd rs1 rs2) s rd (if (s.x rs1).toInt < (s.x rs2).toInt then 1 else 0) ∧
    ComputesTo (.sltu rd rs1 rs2) s rd (if (s.x rs1).toNat < (s.x rs2).toNat then 1 else 0))

/-- XORI, ORI, ANDI: the word of each decodes to it; each result bit is the operation on the bit of `x[rs1]` and the bit of the
immediate, whose sign bit stands for all bits from 11 up (40_integer_computational.md R114, R115, R116). -/
def Obligations.LogicWithImmediate : Prop :=
  (∀ w rd rs1 imm, IsIWord w 0b0010011 0b100 rd rs1 imm → decodeWord w = .ok (.xori rd rs1 imm)) ∧
  (∀ w rd rs1 imm, IsIWord w 0b0010011 0b110 rd rs1 imm → decodeWord w = .ok (.ori rd rs1 imm)) ∧
  (∀ w rd rs1 imm, IsIWord w 0b0010011 0b111 rd rs1 imm → decodeWord w = .ok (.andi rd rs1 imm)) ∧
  (∀ (s : State) (rd rs1 : Reg) (imm : BitVec 12), ∃ vx vo va : Word,
    ComputesTo (.xori rd rs1 imm) s rd vx ∧ ComputesTo (.ori rd rs1 imm) s rd vo ∧
    ComputesTo (.andi rd rs1 imm) s rd va ∧
    ∀ k, k < 32 →
      vx.getLsbD k = ((s.x rs1).getLsbD k ^^ imm.getLsbD (min k 11)) ∧
      vo.getLsbD k = ((s.x rs1).getLsbD k || imm.getLsbD (min k 11)) ∧
      va.getLsbD k = ((s.x rs1).getLsbD k && imm.getLsbD (min k 11)))

/-- XOR, OR, AND: the word of each decodes to it; each result bit is the operation on the two operands' bits
(40_integer_computational.md R130, R133, R134). -/
def Obligations.LogicWithRegister : Prop :=
  (∀ w rd rs1 rs2, IsRWord w 0b0110011 0b100 0b0000000 rd rs1 rs2 → decodeWord w = .ok (.xor rd rs1 rs2)) ∧
  (∀ w rd rs1 rs2, IsRWord w 0b0110011 0b110 0b0000000 rd rs1 rs2 → decodeWord w = .ok (.or rd rs1 rs2)) ∧
  (∀ w rd rs1 rs2, IsRWord w 0b0110011 0b111 0b0000000 rd rs1 rs2 → decodeWord w = .ok (.and rd rs1 rs2)) ∧
  (∀ (s : State) (rd rs1 rs2 : Reg), ∃ vx vo va : Word,
    ComputesTo (.xor rd rs1 rs2) s rd vx ∧ ComputesTo (.or rd rs1 rs2) s rd vo ∧
    ComputesTo (.and rd rs1 rs2) s rd va ∧
    ∀ k, k < 32 →
      vx.getLsbD k = ((s.x rs1).getLsbD k ^^ (s.x rs2).getLsbD k) ∧
      vo.getLsbD k = ((s.x rs1).getLsbD k || (s.x rs2).getLsbD k) ∧
      va.getLsbD k = ((s.x rs1).getLsbD k && (s.x rs2).getLsbD k))

/-- SLLI, SRLI, SRAI: the word of each decodes to it; the results are `x[rs1] * 2^shamt` modulo 2^32,
`floor(u(x[rs1]) / 2^shamt)` and `floor(s(x[rs1]) / 2^shamt)` (40_integer_computational.md R117, R118, R119). -/
def Obligations.ShiftByConstant : Prop :=
  (∀ w rd rs1 sh, IsRWord w 0b0010011 0b001 0b0000000 rd rs1 sh → decodeWord w = .ok (.slli rd rs1 sh)) ∧
  (∀ w rd rs1 sh, IsRWord w 0b0010011 0b101 0b0000000 rd rs1 sh → decodeWord w = .ok (.srli rd rs1 sh)) ∧
  (∀ w rd rs1 sh, IsRWord w 0b0010011 0b101 0b0100000 rd rs1 sh → decodeWord w = .ok (.srai rd rs1 sh)) ∧
  (∀ (s : State) (rd rs1 : Reg) (shamt : BitVec 5),
    ComputesTo (.slli rd rs1 shamt) s rd (BitVec.ofNat 32 ((s.x rs1).toNat * 2 ^ shamt.toNat)) ∧
    ComputesTo (.srli rd rs1 shamt) s rd (BitVec.ofNat 32 ((s.x rs1).toNat / 2 ^ shamt.toNat)) ∧
    ComputesTo (.srai rd rs1 shamt) s rd (BitVec.ofInt 32 ((s.x rs1).toInt / 2 ^ shamt.toNat)))

/-- SLL, SRL, SRA: the word of each decodes to it; the shift amount is `x[rs2]` modulo 32 (its low five bits), the results as for
the constant shifts (40_integer_computational.md R127, R131, R132). -/
def Obligations.ShiftByRegister : Prop :=
  (∀ w rd rs1 rs2, IsRWord w 0b0110011 0b001 0b0000000 rd rs1 rs2 → decodeWord w = .ok (.sll rd rs1 rs2)) ∧
  (∀ w rd rs1 rs2, IsRWord w 0b0110011 0b101 0b0000000 rd rs1 rs2 → decodeWord w = .ok (.srl rd rs1 rs2)) ∧
  (∀ w rd rs1 rs2, IsRWord w 0b0110011 0b101 0b0100000 rd rs1 rs2 → decodeWord w = .ok (.sra rd rs1 rs2)) ∧
  (∀ (s : State) (rd rs1 rs2 : Reg),
    ComputesTo (.sll rd rs1 rs2) s rd (BitVec.ofNat 32 ((s.x rs1).toNat * 2 ^ ((s.x rs2).toNat % 32))) ∧
    ComputesTo (.srl rd rs1 rs2) s rd (BitVec.ofNat 32 ((s.x rs1).toNat / 2 ^ ((s.x rs2).toNat % 32))) ∧
    ComputesTo (.sra rd rs1 rs2) s rd (BitVec.ofInt 32 ((s.x rs1).toInt / 2 ^ ((s.x rs2).toNat % 32))))

/-- LUI, AUIPC: the word of each decodes to it; LUI gives the 20-bit field times 2^12, AUIPC that plus the address of the AUIPC,
modulo 2^32 (40_integer_computational.md R120, R121). -/
def Obligations.UpperImmediate : Prop :=
  (∀ w rd imm, IsUWord w 0b0110111 rd imm → decodeWord w = .ok (.lui rd imm)) ∧
  (∀ w rd imm, IsUWord w 0b0010111 rd imm → decodeWord w = .ok (.auipc rd imm)) ∧
  (∀ (s : State) (rd : Reg) (imm : BitVec 20),
    ComputesTo (.lui rd imm) s rd (BitVec.ofNat 32 (imm.toNat * 4096)) ∧
    ComputesTo (.auipc rd imm) s rd (BitVec.ofNat 32 (s.pc.toNat + imm.toNat * 4096)))

/-- Any 32-bit constant, and any pc-relative offset, is an upper part that LUI or AUIPC adds and a sign-extended 12-bit lower part
(40_integer_computational.md R120, R121; 30_encoding.md R103): the upper field is the constant's, plus 1 when bit 11 of the
constant is 1. -/
def Obligations.UpperAndLowerPartsBuildConstant : Prop :=
  ∀ v : Word, immU (Pseudo.hi v) + immI (Pseudo.lo v) = v ∧
    Pseudo.lo v = v.extractLsb' 0 12 ∧
    (Pseudo.hi v).toNat = (v.toNat / 4096 + if v.getLsbD 11 = true then 1 else 0) % 1048576

/-- What the 21 integer computational instructions have in common (40_integer_computational.md R110): each completes for every
operand without raising; it writes at most its `rd` and advances the pc by 4; and the value written depends on nothing but the
source registers it names and the pc. -/
def Obligations.ComputationalDependsOnSourcesOnly : Prop :=
  ∀ (i : Instr) (s s' : State), isComputational i = true →
    (∀ r ∈ sources i, s'.x r = s.x r) → s'.pc = s.pc →
    ∃ rd v, destination i = some rd ∧ ComputesTo i s rd v ∧ ComputesTo i s' rd v

/-- A HINT or the NOP changes nothing but the pc; a FENCE HINT also stands in the history, where it orders nothing
(45_hints.md R210 to R212, 40_integer_computational.md R136). -/
def Obligations.HintsChangeOnlyPc : Prop :=
  ∀ (i : Instr) (s : State), (isHint i = true ∨ i = nop) →
    ∃ t, exec i s = .next t ∧ SameRegs s t ∧ t.pc = s.pc + 4 ∧ t.trap = s.trap ∧ SameMemory s t ∧
      SamePlatform s t ∧ t.overwritten = s.overwritten ∧ t.draws = s.draws ∧
      (t.events = s.events ∨ ∃ fm pred succ, t.events = s.events ++ [.fence fm pred succ] ∧
        ∀ a b, fenceOrders fm pred succ a b = false)

/-! ### Control transfer -/

/-- JAL: its word decodes to it; the target is pc plus the signed offset modulo 2^32. A target that is a multiple of 4 is jumped
to and `rd` gets pc + 4, nothing else changing; any other raises InstructionAddressMisaligned(target) on the JAL with nothing
written (41_control_transfer.md R151, R153; the record and `rd` unwritten are the spec's decisions D17, D22, log 8). -/
def Obligations.JumpAndLink : Prop :=
  (∀ w rd offset, IsJWord w 0b1101111 rd offset → decodeWord w = .ok (.jal rd offset)) ∧
  ∀ (s : State) (rd : Reg) (offset : BitVec 21) (target : Word),
    target = BitVec.ofInt 32 (s.pc.toInt + offset.toInt) →
    (target.toNat % 4 = 0 → ∃ t, exec (.jal rd offset) s = .next t ∧ WritesReg s t rd (s.pc + 4) ∧ t.pc = target ∧
      t.trap = s.trap ∧ SameMemory s t ∧ SamePlatform s t ∧ SameRecords s t) ∧
    (target.toNat % 4 ≠ 0 → TrapsWith (.jal rd offset) s .instructionAddressMisaligned target)

/-- JALR: its word decodes to it; the target is the old `x[rs1]` plus the signed immediate modulo 2^32 with bit 0 cleared, also
when `rd = rs1`; the rest, its decisions included, as for JAL (41_control_transfer.md R152, R153; log 8). -/
def Obligations.JumpAndLinkRegister : Prop :=
  (∀ w rd rs1 imm, IsIWord w 0b1100111 0b000 rd rs1 imm → decodeWord w = .ok (.jalr rd rs1 imm)) ∧
  ∀ (s : State) (rd rs1 : Reg) (imm : BitVec 12) (sum target : Word),
    sum = BitVec.ofInt 32 ((s.x rs1).toInt + imm.toInt) → target = BitVec.ofNat 32 (sum.toNat / 2 * 2) →
    (target.toNat % 4 = 0 → ∃ t, exec (.jalr rd rs1 imm) s = .next t ∧ WritesReg s t rd (s.pc + 4) ∧ t.pc = target ∧
      t.trap = s.trap ∧ SameMemory s t ∧ SamePlatform s t ∧ SameRecords s t) ∧
    (target.toNat % 4 ≠ 0 → TrapsWith (.jalr rd rs1 imm) s .instructionAddressMisaligned target)

/-- The six branches: the word of each decodes to it; with the comparison each rule names, a branch that is taken goes to pc plus
its signed offset modulo 2^32, or raises InstructionAddressMisaligned(target) on the branch if that is no multiple of 4; a branch
that is not taken goes to pc + 4 and never raises; no register is written (41_control_transfer.md R155 to R161; the record is the
spec's decision D17, log 8). -/
def Obligations.ConditionalBranches : Prop :=
  (∀ w rs1 rs2 off, IsBWord w 0b1100011 0b000 rs1 rs2 off → decodeWord w = .ok (.beq rs1 rs2 off)) ∧
  (∀ w rs1 rs2 off, IsBWord w 0b1100011 0b001 rs1 rs2 off → decodeWord w = .ok (.bne rs1 rs2 off)) ∧
  (∀ w rs1 rs2 off, IsBWord w 0b1100011 0b100 rs1 rs2 off → decodeWord w = .ok (.blt rs1 rs2 off)) ∧
  (∀ w rs1 rs2 off, IsBWord w 0b1100011 0b101 rs1 rs2 off → decodeWord w = .ok (.bge rs1 rs2 off)) ∧
  (∀ w rs1 rs2 off, IsBWord w 0b1100011 0b110 rs1 rs2 off → decodeWord w = .ok (.bltu rs1 rs2 off)) ∧
  (∀ w rs1 rs2 off, IsBWord w 0b1100011 0b111 rs1 rs2 off → decodeWord w = .ok (.bgeu rs1 rs2 off)) ∧
  ∀ (s : State) (rs1 rs2 : Reg) (off : BitVec 13) (i : Instr) (taken : Prop) (target : Word),
    ((i = .beq rs1 rs2 off ∧ (taken ↔ (s.x rs1).toNat = (s.x rs2).toNat)) ∨
     (i = .bne rs1 rs2 off ∧ (taken ↔ (s.x rs1).toNat ≠ (s.x rs2).toNat)) ∨
     (i = .blt rs1 rs2 off ∧ (taken ↔ (s.x rs1).toInt < (s.x rs2).toInt)) ∨
     (i = .bge rs1 rs2 off ∧ (taken ↔ (s.x rs2).toInt ≤ (s.x rs1).toInt)) ∨
     (i = .bltu rs1 rs2 off ∧ (taken ↔ (s.x rs1).toNat < (s.x rs2).toNat)) ∨
     (i = .bgeu rs1 rs2 off ∧ (taken ↔ (s.x rs2).toNat ≤ (s.x rs1).toNat))) →
    target = BitVec.ofInt 32 (s.pc.toInt + off.toInt) →
    (taken → target.toNat % 4 = 0 → GoesTo i s target) ∧
    (taken → target.toNat % 4 ≠ 0 → TrapsWith i s .instructionAddressMisaligned target) ∧
    (¬taken → GoesTo i s (s.pc + 4))

/-- BGT, BGTU, BLE, BLEU are their operands reversed (30_encoding.md R102, 41_control_transfer.md R162): with an aligned target
and pc + 4 elsewhere, each goes to the target exactly when its first register is greater, or less or equal, as its name says. -/
def Obligations.SynthesizedBranches : Prop :=
  ∀ (s : State) (rs rt : Reg) (off : BitVec 13) (target : Word),
    target = BitVec.ofInt 32 (s.pc.toInt + off.toInt) → target.toNat % 4 = 0 →
    GoesTo (Pseudo.bgt rs rt off) s (if (s.x rt).toInt < (s.x rs).toInt then target else s.pc + 4) ∧
    GoesTo (Pseudo.bgtu rs rt off) s (if (s.x rt).toNat < (s.x rs).toNat then target else s.pc + 4) ∧
    GoesTo (Pseudo.ble rs rt off) s (if (s.x rs).toInt ≤ (s.x rt).toInt then target else s.pc + 4) ∧
    GoesTo (Pseudo.bleu rs rt off) s (if (s.x rs).toNat ≤ (s.x rt).toNat then target else s.pc + 4)

/-! ### Checks of an access -/

/-- The checks of a load or store, in order (20_memory.md R46, R47, R48, R52, R53). A region permits an access when its permissions
hold the access's kind and its widths hold the size. An aligned access raises exactly when no one region permits it and holds all
its bytes, and then the access fault of its kind; a misaligned access raises what MISALIGNED says, before any look at the map, under
`support` exactly when no two regions permit it and hold its bytes between them, and under `perAccess` (the environment that chooses
per access, log 11) does as one of the three. Sizes 1, 2 and 4. A fetch is allowed exactly when a region of kind main permits it at
width 4 and holds all its bytes. The order is the spec's decision D15, the map and its use D9 (logs 12, 30). -/
def Obligations.AccessChecksInOrder : Prop :=
  (∀ (s : State) (a : Word) (n : Nat) (k : Access) (misaligned fault : Cause), n = 1 ∨ n = 2 ∨ n = 4 →
    (k = .load ∧ misaligned = .loadAddressMisaligned ∧ fault = .loadAccessFault) ∨
      (k = .store ∧ misaligned = .storeAddressMisaligned ∧ fault = .storeAccessFault) →
    let permitted (r : Region) : Prop :=
      (k = .load → r.load = true) ∧ (k = .store → r.store = true) ∧
      (n = 1 → r.width1 = true) ∧ (n = 2 → r.width2 = true) ∧ (n = 4 → r.width4 = true)
    let inside (r : Region) (b : Nat) : Prop := r.base ≤ b ∧ b < r.base + r.size
    (a.toNat % n = 0 → (checkAccess s a n k = none ∨ checkAccess s a n k = some fault) ∧
      (checkAccess s a n k = none ↔ ∃ r ∈ s.config.memMap, permitted r ∧ ∀ j, j < n → inside r (byteAddr a j))) ∧
    (a.toNat % n ≠ 0 →
      (s.config.misaligned = .always .trapMisaligned → checkAccess s a n k = some misaligned) ∧
      (s.config.misaligned = .always .trapAccessFault → checkAccess s a n k = some fault) ∧
      (s.config.misaligned = .always .support →
        (checkAccess s a n k = none ∨ checkAccess s a n k = some fault) ∧
        (checkAccess s a n k = none ↔ ∃ r ∈ s.config.memMap, ∃ q ∈ s.config.memMap, permitted r ∧ permitted q ∧
          ∀ j, j < n → inside r (byteAddr a j) ∨ inside q (byteAddr a j))) ∧
      (s.config.misaligned = .perAccess →
        ∃ o, checkAccess s a n k = checkAccess { s with config := { s.config with misaligned := .always o } } a n k))) ∧
  (∀ (regions : List Region) (a : Word), mapAllows regions a 4 .fetch = true ↔
    ∃ r ∈ regions, r.fetch = true ∧ r.kind = .main ∧ r.width4 = true ∧
      ∀ j, j < 4 → r.base ≤ byteAddr a j ∧ byteAddr a j < r.base + r.size)

/-- A load or store whose checks raise halts with that cause and its effective address, and nothing else changes
(42_load_store.md R171, R181, R182; 60_exceptions.md R225 to R228; that nothing changes is the spec's decision D22, the address in
the record D17: logs 8, 31). -/
def Obligations.FaultingAccessTraps : Prop :=
  ∀ (s : State) (rd rs1 rs2 : Reg) (imm : BitVec 12) (a : Word) (c : Cause),
    a = BitVec.ofInt 32 ((s.x rs1).toInt + imm.toInt) →
    (checkAccess s a 1 .load = some c → TrapsWith (.lb rd rs1 imm) s c a ∧ TrapsWith (.lbu rd rs1 imm) s c a) ∧
    (checkAccess s a 2 .load = some c → TrapsWith (.lh rd rs1 imm) s c a ∧ TrapsWith (.lhu rd rs1 imm) s c a) ∧
    (checkAccess s a 4 .load = some c → TrapsWith (.lw rd rs1 imm) s c a) ∧
    (checkAccess s a 1 .store = some c → TrapsWith (.sb rs1 rs2 imm) s c a) ∧
    (checkAccess s a 2 .store = some c → TrapsWith (.sh rs1 rs2 imm) s c a) ∧
    (checkAccess s a 4 .store = some c → TrapsWith (.sw rs1 rs2 imm) s c a)

/-- An access whose effective address is naturally aligned never raises an address-misaligned exception, whatever the configuration
(20_memory.md R47): an instruction that raises one is a halfword access at an odd address or a word access at an address that is
no multiple of 4. A byte access is always naturally aligned. -/
def Obligations.AlignedAccessNeverMisaligned : Prop :=
  ∀ (s t : State) (i : Instr) (rec : TrapRecord), s.trap = none → exec i s = .next t → t.trap = some rec →
    (rec.cause = .loadAddressMisaligned ∨ rec.cause = .storeAddressMisaligned) →
    ∃ rd rs1 rs2 imm,
      ((i = .lh rd rs1 imm ∨ i = .lhu rd rs1 imm ∨ i = .sh rs1 rs2 imm) ∧
        (BitVec.ofInt 32 ((s.x rs1).toInt + imm.toInt)).toNat % 2 ≠ 0) ∨
      ((i = .lw rd rs1 imm ∨ i = .sw rs1 rs2 imm) ∧ (BitVec.ofInt 32 ((s.x rs1).toInt + imm.toInt)).toNat % 4 ≠ 0)

/-! ### Loads and stores -/

/-- The words of the loads and stores decode to them: LOAD words by funct3, STORE words by funct3, with the I-immediate and the
S-immediate of the word (42_load_store.md R172 to R179; the numbers are log 7's). -/
def Obligations.LoadStoreWordsDecode : Prop :=
  (∀ w rd rs1 imm, IsIWord w 0b0000011 0b000 rd rs1 imm → decodeWord w = .ok (.lb rd rs1 imm)) ∧
  (∀ w rd rs1 imm, IsIWord w 0b0000011 0b001 rd rs1 imm → decodeWord w = .ok (.lh rd rs1 imm)) ∧
  (∀ w rd rs1 imm, IsIWord w 0b0000011 0b010 rd rs1 imm → decodeWord w = .ok (.lw rd rs1 imm)) ∧
  (∀ w rd rs1 imm, IsIWord w 0b0000011 0b100 rd rs1 imm → decodeWord w = .ok (.lbu rd rs1 imm)) ∧
  (∀ w rd rs1 imm, IsIWord w 0b0000011 0b101 rd rs1 imm → decodeWord w = .ok (.lhu rd rs1 imm)) ∧
  (∀ w rs1 rs2 imm, IsSWord w 0b0100011 0b000 rs1 rs2 imm → decodeWord w = .ok (.sb rs1 rs2 imm)) ∧
  (∀ w rs1 rs2 imm, IsSWord w 0b0100011 0b001 rs1 rs2 imm → decodeWord w = .ok (.sh rs1 rs2 imm)) ∧
  (∀ w rs1 rs2 imm, IsSWord w 0b0100011 0b010 rs1 rs2 imm → decodeWord w = .ok (.sw rs1 rs2 imm))

/-- Loads from main memory or devices (not a PLIC register) that pass their checks: with the effective address
`x[rs1] + sext(imm)` modulo 2^32, `rd` gets the bytes at the address in the configured byte order, LB and LH sign-extended, LBU
and LHU zero-extended; each byte is main memory's, or a free value where the byte is a device's. The access stands in the history with
the value read and its kinds: a memory read if a byte of it is in main memory, a device input if a byte is a device's, no write or
output. Nothing else changes but the pc and the draw counter (42_load_store.md R171 to R176, 20_memory.md R41, R43, R54,
43_memory_ordering.md R191; that a device answers free bytes is log 13, that an access in both has both kinds log 36, the history
log 14, the wrap modulo 2^32 the spec's decision D8). -/
def Obligations.LoadsGiveTheBytes : Prop :=
  ∀ (s : State) (rd rs1 : Reg) (imm : BitVec 12) (a : Word) (n : Nat) (i : Instr) (v : Nat → Word),
    a = BitVec.ofInt 32 ((s.x rs1).toInt + imm.toInt) →
    ((i = .lb rd rs1 imm ∧ n = 1 ∧ v = fun m => BitVec.ofInt 32 (BitVec.ofNat 8 m).toInt) ∨
     (i = .lbu rd rs1 imm ∧ n = 1 ∧ v = BitVec.ofNat 32) ∨
     (i = .lh rd rs1 imm ∧ n = 2 ∧ v = fun m => BitVec.ofInt 32 (BitVec.ofNat 16 m).toInt) ∨
     (i = .lhu rd rs1 imm ∧ n = 2 ∧ v = BitVec.ofNat 32) ∨
     (i = .lw rd rs1 imm ∧ n = 4 ∧ v = BitVec.ofNat 32)) →
    ReachesMemory s a n .load →
    let m := bytesValue s.config.endian ((List.range n).map fun j =>
      if isDevice s.config.memMap (byteAddr a j) = true then Config.deviceByte s.draws (byteAddr a j)
      else Memory.read s.mem (byteAddr a j))
    ∃ t, exec i s = .next t ∧ WritesReg s t rd (v m) ∧
      t.pc = s.pc + 4 ∧ t.trap = s.trap ∧ SameMemory s t ∧ SamePlatform s t ∧ t.overwritten = s.overwritten ∧
      ∃ kinds, t.events = s.events ++ [.access kinds a n (BitVec.ofNat 32 m)] ∧
        (kinds.i = true ↔ ∃ j, j < n ∧ isDevice s.config.memMap (byteAddr a j) = true) ∧
        (kinds.r = true ↔ ∃ j, j < n ∧ isDevice s.config.memMap (byteAddr a j) = false) ∧ kinds.o = false ∧ kinds.w = false

/-- Stores to main memory or devices (not a PLIC register) that pass their checks: with the effective address
`x[rs1] + sext(imm)` modulo 2^32, the bytes of the low 8, 16 or 32 bits of `x[rs2]` stand in main memory at the address in the
configured byte order; every other byte, and every byte of a device's window, reads as before; no register changes. The access
stands in the history with the value stored and its kinds: a memory write if a byte of it is in main memory, a device output if a
byte is a device's, no read or input (42_load_store.md R177 to R179, R182, 20_memory.md R42, R43, 43_memory_ordering.md R191; that a
device's bytes are kept in no memory is log 13, that an access in both has both kinds log 36, the history log 14, the wrap modulo
2^32 the spec's decision D8). -/
def Obligations.StoresPutTheBytes : Prop :=
  ∀ (s : State) (rs1 rs2 : Reg) (imm : BitVec 12) (a : Word) (n : Nat) (i : Instr),
    a = BitVec.ofInt 32 ((s.x rs1).toInt + imm.toInt) →
    ((i = .sb rs1 rs2 imm ∧ n = 1) ∨ (i = .sh rs1 rs2 imm ∧ n = 2) ∨ (i = .sw rs1 rs2 imm ∧ n = 4)) →
    ReachesMemory s a n .store → Memory.wf s.mem = true →
    ∃ t, exec i s = .next t ∧ SameRegs s t ∧ t.pc = s.pc + 4 ∧ t.trap = s.trap ∧ SamePlatform s t ∧
      (∀ j, j < n → isDevice s.config.memMap (byteAddr a j) = false →
        Memory.read t.mem (byteAddr a j) = storedByte s.config.endian n (s.x rs2) j) ∧
      (∀ b, (∀ j, j < n → b ≠ byteAddr a j) ∨ isDevice s.config.memMap b = true →
        Memory.read t.mem b = Memory.read s.mem b) ∧
      Memory.wf t.mem = true ∧
      ∃ kinds, t.events = s.events ++ [.access kinds a n (BitVec.ofNat 32 ((s.x rs2).toNat % 256 ^ n))] ∧
        (kinds.o = true ↔ ∃ j, j < n ∧ isDevice s.config.memMap (byteAddr a j) = true) ∧
        (kinds.w = true ↔ ∃ j, j < n ∧ isDevice s.config.memMap (byteAddr a j) = false) ∧ kinds.i = false ∧ kinds.r = false

/-- A load from a device draws a free answer of its own (20_memory.md R54; DESIGN CHOICE of log 13: what a device answers is the
constant `Config.deviceByte`, of which nothing is known, of the draw counter and the address). Each of the five loads that passes its
checks with every byte a device's takes the answer numbered by the counter and moves the counter on, so that no other access takes
the same answer; and the answer does not come from memory: with any other memory the load gives `rd` the same value. -/
def Obligations.DeviceAnswersAreFree : Prop :=
  ∀ (s : State) (rd rs1 : Reg) (imm : BitVec 12) (a : Word) (n : Nat) (i : Instr),
    a = BitVec.ofInt 32 ((s.x rs1).toInt + imm.toInt) →
    (((i = .lb rd rs1 imm ∨ i = .lbu rd rs1 imm) ∧ n = 1) ∨ ((i = .lh rd rs1 imm ∨ i = .lhu rd rs1 imm) ∧ n = 2) ∨
      (i = .lw rd rs1 imm ∧ n = 4)) →
    ReachesMemory s a n .load → AllDevice s a n →
    ∃ t value, exec i s = .next t ∧ t.draws = s.draws + 1 ∧ SameMemory s t ∧
      t.events = s.events ++ [.access ⟨true, false, false, false⟩ a n value] ∧
      value = BitVec.ofNat 32 (bytesValue s.config.endian ((List.range n).map fun j =>
        Config.deviceByte s.draws (byteAddr a j))) ∧
      ∀ mem, ∃ u, exec i { s with mem := mem } = .next u ∧ u.x rd = t.x rd ∧ u.draws = t.draws

/-- A load with destination x0 performs its access and raises its exceptions as with any other destination: it halts with the
same record, or leaves the same memory, PLIC, accesses on their way to it, history and draw counter (10_state.md R22,
45_hints.md R216). -/
def Obligations.LoadToX0StillAccesses : Prop :=
  ∀ (s : State) (rd rs1 : Reg) (imm : BitVec 12) (i i0 : Instr),
    ((i = .lb rd rs1 imm ∧ i0 = .lb 0 rs1 imm) ∨ (i = .lbu rd rs1 imm ∧ i0 = .lbu 0 rs1 imm) ∨
     (i = .lh rd rs1 imm ∧ i0 = .lh 0 rs1 imm) ∨ (i = .lhu rd rs1 imm ∧ i0 = .lhu 0 rs1 imm) ∨
     (i = .lw rd rs1 imm ∧ i0 = .lw 0 rs1 imm)) →
    ∃ t t0, exec i s = .next t ∧ exec i0 s = .next t0 ∧ SameRegs s t0 ∧
      t0.trap = t.trap ∧ t0.pc = t.pc ∧ t0.mem = t.mem ∧ t0.plic = t.plic ∧ t0.posted = t.posted ∧ t0.ahead = t.ahead ∧
      t0.events = t.events ∧ t0.draws = t.draws

/-- A stored word is loaded back, in either byte order, and the mixed-width reads of 20_memory.md R57 see the bytes it says
(little-endian and big-endian), all in main memory. -/
def Obligations.MixedWidthReads : Prop :=
  ∀ (s t : State) (a : Word) (b3 b2 b1 b0 : Byte), Memory.wf s.mem = true → a.toNat % 4 = 0 → AllMain s a 4 →
    plicAccess s a 4 = none → memWrite s a 4 (b3 ++ b2 ++ b1 ++ b0) = .ok t →
    let half (hi lo : Byte) : Word := (hi ++ lo).setWidth 32
    (readValue t a 4).value = b3 ++ b2 ++ b1 ++ b0 ∧
    (s.config.endian = .little →
      (readValue t a 1).value = b0.setWidth 32 ∧ (readValue t (a + 1) 1).value = b1.setWidth 32 ∧
      (readValue t (a + 2) 1).value = b2.setWidth 32 ∧ (readValue t (a + 3) 1).value = b3.setWidth 32 ∧
      (readValue t a 2).value = half b1 b0 ∧ (readValue t (a + 2) 2).value = half b3 b2) ∧
    (s.config.endian = .big →
      (readValue t a 1).value = b3.setWidth 32 ∧ (readValue t (a + 1) 1).value = b2.setWidth 32 ∧
      (readValue t (a + 2) 1).value = b1.setWidth 32 ∧ (readValue t (a + 3) 1).value = b0.setWidth 32 ∧
      (readValue t a 2).value = half b3 b2 ∧ (readValue t (a + 2) 2).value = half b1 b0)

/-- Only loads and stores access memory (10_state.md R31, 42_load_store.md R170): every other instruction but a serviced ECALL
leaves every byte as it was, notes no replaced byte, and reaches no device. -/
def Obligations.OnlyStoresChangeMemory : Prop :=
  ∀ (s t : State) (i : Instr), isStore i = false → (i = .ecall → s.config.trapMode = .fatal) → exec i s = .next t →
    SameMemory s t ∧ t.overwritten = s.overwritten ∧
    (isLoad i = false → t.plic = s.plic ∧ t.posted = s.posted ∧ t.ahead = s.ahead ∧ t.draws = s.draws)

/-- The canonical form is one: two memories in it that read alike at every address are equal; and a write keeps it, reads back,
and leaves every other address alone (20_memory.md R40, R42; the form is the model's, log 5). -/
def Obligations.CanonicalMemory : Prop :=
  (∀ m m', Memory.wf m = true → Memory.wf m' = true → (∀ a, Memory.read m a = Memory.read m' a) → m = m') ∧
  (∀ m a b, Memory.wf m = true → a < 4294967296 →
    Memory.wf (Memory.write m a b) = true ∧ Memory.read (Memory.write m a b) a = b ∧
    ∀ c, c ≠ a → Memory.read (Memory.write m a b) c = Memory.read m c)

/-! ### FENCE, ECALL, EBREAK -/

/-- FENCE and FENCE.TSO: a word of major opcode 0001111 with funct3 000 decodes by its fields, inst[31:28] as fm, inst[27:24] as pred,
inst[23:20] as succ, to FENCE.TSO for 1000, 0011, 0011 and to FENCE for all others, and every such word has such fields; each
completes for every field value, advances the pc and changes nothing else but the history, where it stands with its fields; `rs1` and
`rd` do not matter (30_encoding.md R83, 43_memory_ordering.md R190, R193, R194; R197 is the spec's decision D19, log 14; the fields'
places are log 7's). -/
def Obligations.FencesAdvanceAndAreRecorded : Prop :=
  (∀ (w : Word) (fm pred succ : BitVec 4) (rs1 rd : Reg), IsFenceWord w fm pred succ rs1 rd →
    decodeWord w = .ok (if fm = 0b1000 ∧ pred = 0b0011 ∧ succ = 0b0011 then .fenceTso rs1 rd else .fence fm pred succ rs1 rd)) ∧
  (∀ w : Word, w.extractLsb' 0 7 = 0b0001111#7 → w.extractLsb' 12 3 = 0b000#3 →
    ∃ fm pred succ rs1 rd, IsFenceWord w fm pred succ rs1 rd) ∧
  ∀ (s : State) (fm pred succ : BitVec 4) (rs1 rd : Reg) (i : Instr),
    (i = .fence fm pred succ rs1 rd ∨ (i = .fenceTso rs1 rd ∧ fm = 0b1000 ∧ pred = 0b0011 ∧ succ = 0b0011)) →
    ∃ t, exec i s = .next t ∧ SameRegs s t ∧ t.pc = s.pc + 4 ∧ t.trap = s.trap ∧ SameMemory s t ∧ SamePlatform s t ∧
      t.overwritten = s.overwritten ∧ t.draws = s.draws ∧ t.events = s.events ++ [.fence fm pred succ]

/-- What a FENCE orders: with `fm = 0` an operation before it of a kind in `pred` before one after it of a kind in `succ`
(43_memory_ordering.md R192); FENCE.TSO orders earlier reads before later reads and writes and earlier writes before later
writes, not writes before reads, and nothing FENCE RW,RW does not (R193); every other setting orders as `fm = 0` (R194); an
empty set orders nothing (45_hints.md R212 for `fm = 0`, with R194 for the others). An operation of two kinds is ordered if one of
them is: the model's choice (log 36), as is the form of a function over sets of kinds (log 14). -/
def Obligations.FenceModes : Prop :=
  ∀ (fm pred succ : BitVec 4) (a b : KindSet),
    (fenceOrders 0 pred succ a b = true ↔
      ((pred.getLsbD 3 && a.i) || (pred.getLsbD 2 && a.o) || (pred.getLsbD 1 && a.r) || (pred.getLsbD 0 && a.w)) = true ∧
      ((succ.getLsbD 3 && b.i) || (succ.getLsbD 2 && b.o) || (succ.getLsbD 1 && b.r) || (succ.getLsbD 0 && b.w)) = true) ∧
    (fenceOrders 0b1000 0b0011 0b0011 a b = true ↔
      (a.r = true ∧ (b.r = true ∨ b.w = true)) ∨ (a.w = true ∧ b.w = true)) ∧
    (fenceOrders 0b1000 0b0011 0b0011 a b = true → fenceOrders 0 0b0011 0b0011 a b = true) ∧
    (¬(fm = 0b1000 ∧ pred = 0b0011 ∧ succ = 0b0011) → fenceOrders fm pred succ a b = fenceOrders 0 pred succ a b) ∧
    (pred = 0 ∨ succ = 0 → fenceOrders fm pred succ a b = false)

/-- A FENCE between two accesses obliges the memory system exactly when its fields order their kinds, and a history without a
FENCE obliges nothing (43_memory_ordering.md R190, 20_memory.md R60; the history is the model's, log 14). -/
def Obligations.FenceObligationOverHistory : Prop :=
  (∀ (before middle1 middle2 after : List Event) (ka kb : KindSet) (addrA addrB : Word) (na nb : Nat) (va vb : Word)
    (fm pred succ : BitVec 4),
    (∀ e ∈ middle1 ++ middle2, ∃ k a n v, e = .access k a n v) →
    mustPrecede (before ++ [.access ka addrA na va] ++ middle1 ++ [.fence fm pred succ] ++ middle2 ++
        [.access kb addrB nb vb] ++ after) before.length (before.length + 1 + middle1.length + 1 + middle2.length) =
      fenceOrders fm pred succ ka kb) ∧
  (∀ (h : List Event) (i j : Nat), (∀ e ∈ h, ∃ k a n v, e = .access k a n v) → mustPrecede h i j = false)

/-- ECALL with TRAP_MODE = fatal and EBREAK in either mode: their words, exactly, decode to them, and each halts the hart with its
record, pc at the instruction, nothing else changed (44_system.md R201, R202, 60_exceptions.md R224, R229; halt and record are the
spec's decisions D5, D7, D17, log 8). -/
def Obligations.EnvironmentCallAndBreakpointTrap : Prop :=
  (∀ w : Word, (decodeWord w = .ok .ecall ↔ w = 0x00000073#32) ∧ (decodeWord w = .ok .ebreak ↔ w = 0x00100073#32)) ∧
  ∀ s : State,
    (s.config.trapMode = .fatal → TrapsWith .ecall s .environmentCall 0) ∧ TrapsWith .ebreak s .breakpoint s.pc

/-- ECALL with TRAP_MODE = service completes with what the environment answers (a free value), and for every answer it could give:
halt leaves the fatal record and nothing else changed; otherwise the registers are the answer's, x0 still 0, the pc is pc + 4, the
hart runs on as before, and memory changes only at addresses the answer writes in main memory of the map, where it holds the
answer's bytes (60_exceptions.md R236, the spec's decision D6; that a service writes main memory only is the model's choice, and
the answer is drawn by the model's counter, log 9). -/
def Obligations.ServicedEcall : Prop :=
  ∀ s : State, s.config.trapMode = .service → Memory.wf s.mem = true →
    exec .ecall s = .next (s.serve (Config.ecallService s.draws s.regs s.mem s.pc)) ∧
    ∀ reply : ServiceReply,
      (reply.halt = true → s.serve reply = { s with trap := some ⟨.environmentCall, s.pc, 0⟩ }) ∧
      (reply.halt = false → ∃ t, s.serve reply = t ∧ t.x 0 = 0 ∧
        (∀ k, (h : k < 31) → t.x (BitVec.ofNat 5 (k + 1)) = reply.regs[k]) ∧ t.pc = s.pc + 4 ∧ t.trap = s.trap ∧
        SamePlatform s t ∧ t.events = s.events ∧ Memory.wf t.mem = true ∧
        (∀ b, (∀ c ∈ reply.writes, c.1 = b → isMain s.config.memMap b = false) →
          Memory.read t.mem b = Memory.read s.mem b) ∧
        ((reply.writes.map Prod.fst).Nodup → ∀ c ∈ reply.writes, isMain s.config.memMap c.1 = true →
          c.1 < 4294967296 → Memory.read t.mem c.1 = c.2))

/-! ### Exceptions -/

/-- Every instruction has a next state, in every state (70_reset_and_hazards.md R291: no in-scope instruction blocks). -/
def Obligations.EveryInstructionHasNextState : Prop := ∀ (i : Instr) (s : State), ∃ t, exec i s = .next t

/-- Traps are precise (60_exceptions.md R233) and an instruction raises only what 60_exceptions.md R220 lists for it: if a running
hart's instruction halts it, the state is the one before with the record added, whose epc is pc (the spec's decisions D5, D22,
logs 8, 30). -/
def Obligations.TrapsArePrecise : Prop :=
  ∀ (i : Instr) (s t : State) (rec : TrapRecord), s.trap = none → exec i s = .next t → t.trap = some rec →
    t = { s with trap := some rec } ∧ rec.epc = s.pc ∧ rec.cause ∈ canRaise i

/-- A step runs the decoded instruction: with the hart's turn next, the hart running, one hart and no interrupts, a fetch the map
allows and no byte of it written by a store, if the four bytes at pc decode to a well-formed `i` then the step is `exec i` (in the
state with the hart's turn taken off the agenda) (00_scope.md R12, 20_memory.md R44, R45). -/
def Obligations.StepRunsDecodedInstruction : Prop :=
  ∀ (s : State) (i : Instr), s.trap = none → s.config.numHarts = 1 → s.config.interrupts = false →
    mapAllows s.config.memMap s.pc 4 .fetch = true → fetchesStored s = false → i.wellFormed = true →
    decode [Memory.read s.mem (byteAddr s.pc 0), Memory.read s.mem (byteAddr s.pc 1),
      Memory.read s.mem (byteAddr s.pc 2), Memory.read s.mem (byteAddr s.pc 3)] = .ok (i, []) →
    (s.agenda = [] → step s = exec i s) ∧
    (∀ rest, s.agenda = .hart :: rest → step s = exec i { s with agenda := rest })

/-- Before an instruction runs: a fetch the map does not allow raises InstructionAccessFault(pc) (60_exceptions.md R222); a fetched
word that decodes to nothing raises IllegalInstruction(word) (R223); both leave everything else as it was (the spec's decisions
D4, D5, D9, D17: logs 8, 31, 32). -/
def Obligations.FetchAndDecodeTraps : Prop :=
  ∀ s : State, s.agenda = [] → s.trap = none → s.config.numHarts = 1 → s.config.interrupts = false →
    (mapAllows s.config.memMap s.pc 4 .fetch = false →
      step s = .next { s with trap := some ⟨.instructionAccessFault, s.pc, s.pc⟩ }) ∧
    (∀ (w : Word) (e : DecodeError), mapAllows s.config.memMap s.pc 4 .fetch = true → fetchesStored s = false →
      (∀ j, j < 4 → Memory.read s.mem (byteAddr s.pc j) = w.extractLsb' (8 * j) 8) → decodeWord w = .error e →
      step s = .next { s with trap := some ⟨.illegalInstruction, s.pc, w⟩ })

/-- A store and a later fetch (20_memory.md R63): after a store to main memory the bytes it wrote are noted; a fetch of a noted byte is
refused with CODE_WRITABLE = false; with CODE_WRITABLE = true each byte of the word fetched is one the address holds or has held,
and the step runs what that word decodes to, or raises IllegalInstruction with it (the spec's decision D11; byte by byte is the
model's choice, log 15; the record is log 31's). -/
def Obligations.FetchAfterStore : Prop :=
  (∀ (s t : State) (a : Word) (n : Nat) (v : Word) (j : Nat), memWrite s a n v = .ok t → n ≤ 4 → j < n →
    isDevice s.config.memMap (byteAddr a j) = false →
    (byteAddr a j, Memory.read s.mem (byteAddr a j)) ∈ t.overwritten) ∧
  (∀ (s : State) (c : Host.Cell) (j : Nat), c ∈ s.overwritten → j < 4 → c.1 = byteAddr s.pc j →
    s.trap = none → s.agenda = [] → s.config.numHarts = 1 → s.config.interrupts = false →
    mapAllows s.config.memMap s.pc 4 .fetch = true →
    (s.config.codeWritable = false → step s = .refused .storedByteFetched) ∧
    (s.config.codeWritable = true → ∃ b0 b1 b2 b3 : Byte,
      (∀ b ∈ [(0, b0), (1, b1), (2, b2), (3, b3)],
        b.2 = Memory.read s.mem (byteAddr s.pc b.1) ∨ (byteAddr s.pc b.1, b.2) ∈ s.overwritten) ∧
      (∀ i, decodeWord (b3 ++ b2 ++ b1 ++ b0) = .ok i → step s = exec i { s with draws := s.draws + 1 }) ∧
      (∀ e, decodeWord (b3 ++ b2 ++ b1 ++ b0) = .error e →
        step s = .next { s with draws := s.draws + 1, trap := some ⟨.illegalInstruction, s.pc, b3 ++ b2 ++ b1 ++ b0⟩ })))

/-- Launches the spec gives no behaviour to are refused at the hart's turn, before any fetch: NUM_HARTS other than 1 with no memory
model supplied (20_memory.md R62), INTERRUPTS = true (60_exceptions.md R246; both the model's choice of where to refuse, log 16). -/
def Obligations.LaunchesWithoutMeaningAreRefused : Prop :=
  ∀ s : State, s.trap = none → s.agenda = [] →
    (s.config.numHarts ≠ 1 → step s = .refused .severalHarts) ∧
    (s.config.numHarts = 1 → s.config.interrupts = true → step s = .refused .interruptsEnabled)

/-- A halted hart takes no further step: its turn is a fault that carries its record (60_exceptions.md R232, the spec's decision D5;
the fault is the model's form of it, log 8). And the turn of another agent, whether the hart runs or not, takes itself off the agenda and
leaves the hart's registers, pc, record, history and configuration alone, and memory and what is noted of it too, but for another
agent's store (00_scope.md R13; that the other agents go on beside a halted hart is log 17). -/
def Obligations.HaltedHartTakesNoStep : Prop :=
  (∀ (s : State) (rec : TrapRecord), s.trap = some rec →
    (s.agenda = [] → step s = .fault (.halted rec)) ∧
    (∀ rest, s.agenda = .hart :: rest → step s = .fault (.halted rec))) ∧
  (∀ (s t : State) (a : AgentAction) (rest : List Turn), s.agenda = .act a :: rest → step s = .next t →
    SameRegs s t ∧ t.pc = s.pc ∧ t.trap = s.trap ∧ t.events = s.events ∧ t.config = s.config ∧ t.agenda = rest ∧
    ((∀ cells, a ≠ .memoryWrite cells) → SameMemory s t ∧ t.overwritten = s.overwritten))

/-! ### Invariants and reset -/

/-- Every step keeps the invariant, from every state that has it: a well-formed configuration, memory in canonical form, pc a multiple
of 4 (10_state.md R26), a halted hart at the instruction that raised (60_exceptions.md R233), a legal PLIC (R254 to R256, R259), no
local pending bit listed twice, the stores on their way to the PLIC in the history's order and no access seen ahead twice (the last two
are of the model's own fields, log 38). -/
def Obligations.StepKeepsInvariant : Prop := ∀ s t : State, StateInv s → step s = .next t → StateInv t

/-- The state right after reset has the invariant. -/
def Obligations.ResetHasInvariant : Prop := StateInv State.reset

/-- Reset with any well-formed configuration, image, register content and PLIC start state gives the initial state of
70_reset_and_hazards.md R280, the spec's decision D12 (pc at RESET_PC, x0 = 0, the registers given, the image's bytes in main memory of
the map, the hart running) and has the invariant. -/
def Obligations.BootIsTheInitialState : Prop :=
  ∀ (c : Config) (image : List Host.Cell) (regs : Vector Word 31) (pl : Plic), Config.wf c = true →
    (match c.plic with | none => pl = Plic.absent | some p => PlicStart p pl) →
    StateInv (State.boot c image regs pl) ∧ (State.boot c image regs pl).pc = c.resetPc ∧
    (State.boot c image regs pl).x 0 = 0 ∧ (State.boot c image regs pl).trap = none ∧
    (State.boot c image regs pl).posted = [] ∧ (State.boot c image regs pl).ahead = [] ∧
    (∀ k, (h : k < 31) → (State.boot c image regs pl).x (BitVec.ofNat 5 (k + 1)) = regs[k]) ∧
    ((image.map Prod.fst).Nodup → ∀ cell ∈ image, isMain c.memMap cell.1 = true → cell.1 < 4294967296 →
      Memory.read (State.boot c image regs pl).mem cell.1 = cell.2)

/-- The pc is a multiple of 4 at every step (10_state.md R26): from any state where it is, every step keeps it so. -/
def Obligations.PcStaysAligned : Prop := ∀ s t : State, PcAligned s → step s = .next t → PcAligned t

/-- The configuration is a parameter: no step changes it (10_state.md R36). -/
def Obligations.StepKeepsConfiguration : Prop := ∀ s t : State, step s = .next t → t.config = s.config

/-! ### The PLIC and the interrupt inputs -/

/-- EIP[t] is 1 exactly when some source is pending, enabled for `t` and of a priority greater than the threshold
(60_exceptions.md R257); a source of priority 0 never raises it. -/
def Obligations.EipIsCombinational : Prop :=
  ∀ (pl : Plic) (t : Nat) (tt : PlicTarget), pl.targets[t]? = some tt →
    (pl.eip t = true ↔ ∃ (k : Nat) (ss : PlicSource), pl.sources[k]? = some ss ∧ ss.ip = true ∧ tt.ie.getD k false = true ∧
      tt.thr.toNat < ss.prio.toNat) ∧
    ((∀ ss ∈ pl.sources, ss.ip = true → ss.prio = 0) → pl.eip t = false)

/-- Process Claim (60_exceptions.md R265, R252, R253): it answers 0 and changes nothing when no source is pending, enabled for the
target and of non-zero priority; otherwise it answers such a source that no other such source beats (higher priority, or equal
priority and smaller ID), whatever the threshold, and clears exactly that source's IP bit (threshold and priority 0 are the
spec's decision D24, log 33; the noted claim is the model's, log 19). -/
def Obligations.ClaimAnswersTheBestSource : Prop :=
  ∀ (pl : Plic) (t : Nat) (tt : PlicTarget), pl.targets[t]? = some tt →
    let candidate (k : Nat) (ss : PlicSource) : Prop :=
      pl.sources[k]? = some ss ∧ ss.ip = true ∧ tt.ie.getD k false = true ∧ ss.prio ≠ 0
    ((∀ k ss, ¬candidate k ss) → pl.claim t = (0, pl)) ∧
    ((∃ k ss, candidate k ss) → ∃ k ss, candidate k ss ∧ (pl.claim t).1 = k + 1 ∧
      (∀ k' ss', candidate k' ss' → k' ≠ k →
        ss'.prio.toNat < ss.prio.toNat ∨ (ss'.prio = ss.prio ∧ k < k')) ∧
      (pl.claim t).2 = { pl with sources := pl.sources.set k { ss with ip := false, claimedBy := some t } })

/-- Register writes (60_exceptions.md R263, R254 to R256). The core's Write Register takes the oldest write request. A priority is
written with its hardwired bits forced, so writing all zeros and all ones finds the hardwired bits and every combination of the
variable bits is held as written; an enable register writes the IE bits of its sources, bit 0 the first one's, but for those that
are hardwired; a threshold holds the written value if it is legal and else some legal value, free (log 21); a pending or a
claim/complete register is not written (90_conflicts.md C4). What a priority, enable or threshold register stores is what a load of
the hart then reads (log 18: the present value); an enable register shows its sources' bits from bit 0 up and 0 above and for IDs that
name no source (the packing is log 21's). Nothing else of the PLIC changes. The turn writeRegister of a step is this action, drawing one
number (log 29); the turn busWrite of another bus agent adds a write request or a completion to the PLIC's queues, or at a pending
register does nothing (R268, logs 17, 18). -/
def Obligations.PriorityRegistersAreWarl : Prop :=
  (∀ (s : State) (p : PlicParams) (rest : List Turn), s.config.plic = some p →
    (s.agenda = .act .writeRegister :: rest →
      step s = .next { s with agenda := rest, plic := s.plic.writeRegister p s.draws, draws := s.draws + 1 }) ∧
    (∀ (reg : PlicReg) (v : Word), s.agenda = .act (.busWrite reg v) :: rest →
      ∃ pl, step s = .next { s with agenda := rest, plic := pl } ∧
        (∀ t, reg = .claimComplete t → pl = { s.plic with completions := s.plic.completions ++ [(t, v.toNat)] }) ∧
        ((∃ k, reg = .priority k) ∨ (∃ t first count, reg = .enable t first count) ∨ (∃ t, reg = .threshold t) →
          pl = { s.plic with writes := s.plic.writes ++ [⟨reg, v⟩] }) ∧
        (∀ first count, reg = .pending first count → pl = s.plic))) ∧
  ∀ (p : PlicParams) (pl : Plic) (draw : Nat) (v : Word) (rest : List PlicWrite),
    (pl.writes = [] → pl.writeRegister p draw = pl) ∧
    (∀ (k : Nat) (sp : SourceParams) (ss : PlicSource), p.sources[k]? = some sp → pl.sources[k]? = some ss →
      WarlMask.wf sp.prio = true →
      let after (w : Word) : Plic := Plic.writeRegister p draw { pl with writes := ⟨.priority (k + 1), w⟩ :: rest }
      let read (w : Word) : Word := ((after w).readReg (.priority (k + 1))).1
      after v = { pl with writes := rest, sources := pl.sources.set k { ss with prio := read v } } ∧
      (∀ b, b < 32 → (read v).getLsbD b =
        if sp.prio.ones.getLsbD b then true else if sp.prio.zeros.getLsbD b then false else v.getLsbD b) ∧
      read 0 = sp.prio.ones ∧ read 0xFFFFFFFF#32 = ~~~sp.prio.zeros ∧ read (read v) = read v) ∧
    (∀ (t first count : Nat) (tp : TargetParams) (tt : PlicTarget), p.targets[t]? = some tp → pl.targets[t]? = some tt →
      let after : Plic := Plic.writeRegister p draw { pl with writes := ⟨.enable t first count, v⟩ :: rest }
      ∃ ie, after = { pl with writes := rest, targets := pl.targets.set t { tt with ie := ie } } ∧ ie.length = tt.ie.length ∧
        (∀ k, k < tt.ie.length → ie.getD k false =
          if first ≤ k + 1 ∧ k + 1 < first + count then
            (tp.ieOnes.contains (k + 1) || (v.getLsbD (k + 1 - first) && !tp.ieZeros.contains (k + 1)))
          else tt.ie.getD k false) ∧
        ∀ b, b < 32 → (after.readReg (.enable t first count)).1.getLsbD b =
          if b < count ∧ 1 ≤ first + b ∧ first + b ≤ tt.ie.length then
            (tp.ieOnes.contains (first + b) || (v.getLsbD b && !tp.ieZeros.contains (first + b)))
          else false) ∧
    (∀ (t : Nat) (tp : TargetParams) (tt : PlicTarget), p.targets[t]? = some tp → pl.targets[t]? = some tt →
      (∃ r ∈ tp.thr, r.low.toNat ≤ r.high.toNat) →
      let after : Plic := Plic.writeRegister p draw { pl with writes := ⟨.threshold t, v⟩ :: rest }
      ∃ x, after = { pl with writes := rest, targets := pl.targets.set t { tt with thr := x } } ∧
        (after.readReg (.threshold t)).1 = x ∧ (∃ r ∈ tp.thr, r.low.toNat ≤ x.toNat ∧ x.toNat ≤ r.high.toNat) ∧
        ((∃ r ∈ tp.thr, r.low.toNat ≤ v.toNat ∧ v.toNat ≤ r.high.toNat) → x = v)) ∧
    (∀ (first count t : Nat), Plic.writeRegister p draw { pl with writes := ⟨.pending first count, v⟩ :: rest } =
        { pl with writes := rest } ∧
      Plic.writeRegister p draw { pl with writes := ⟨.claimComplete t, v⟩ :: rest } = { pl with writes := rest })

/-- Completion (60_exceptions.md R266, R260): from a target whose IE bit for the source is 0 it is ignored; from the target that
claimed the source it frees the gateway, which forwards a new request at once if it is level-sensitive with its line asserted or
has counted edges; any other is refused (93_implementation_defined.md U22; who claimed is the model's record, log 19, forwarding
at once log 20). The turn deliverCompletion of a step takes the oldest completion message and does this; a step whose completion is
refused is refused so, and with no message nothing changes (R268, log 17). -/
def Obligations.CompletionReleasesTheGateway : Prop :=
  (∀ (s : State) (p : PlicParams) (rest : List Turn), s.config.plic = some p → s.agenda = .act .deliverCompletion :: rest →
    (s.plic.completions = [] → step s = .next { s with agenda := rest }) ∧
    (∀ (t id : Nat) (later : List (Nat × Nat)), s.plic.completions = (t, id) :: later →
      (∀ q, Plic.complete p { s.plic with completions := later } t id = .ok q →
        step s = .next { s with agenda := rest, plic := q }) ∧
      (∀ e, Plic.complete p { s.plic with completions := later } t id = .error e →
        e = .completionUnspecified ∧ step s = .refused .completionUnspecified))) ∧
  ∀ (p : PlicParams) (pl : Plic) (t k : Nat) (tt : PlicTarget) (sp : SourceParams) (ss : PlicSource),
    pl.targets[t]? = some tt → p.sources[k]? = some sp → pl.sources[k]? = some ss →
    (tt.ie.getD k false = false → pl.complete p t (k + 1) = .ok pl) ∧
    (tt.ie.getD k false = true → ss.claimedBy ≠ some t → pl.complete p t (k + 1) = .error .completionUnspecified) ∧
    (tt.ie.getD k false = true → ss.claimedBy = some t → ∃ q ss', pl.complete p t (k + 1) = .ok q ∧
      q = { pl with sources := pl.sources.set k ss' } ∧ ss'.claimedBy = none ∧ ss'.ip = ss.ip ∧ ss'.prio = ss.prio ∧
      ((sp.gateway = .level ∧ ss.level = true ∨ sp.gateway = .edgeCounting ∧ 0 < ss.cnt) →
        ss'.busy = true ∧ ss'.requests = ss.requests + 1) ∧
      (¬(sp.gateway = .level ∧ ss.level = true ∨ sp.gateway = .edgeCounting ∧ 0 < ss.cnt) →
        ss'.busy = false ∧ ss'.requests = ss.requests)) ∧
    (∀ id, (id = 0 ∨ pl.sources.length < id) → pl.complete p t id = .error .completionUnspecified)

/-- The life of a request (60_exceptions.md R259 to R261, R264, R265, R267). An idle edge-triggered ignoring gateway forwards an edge,
loses a second one, the core accepts the request, a third edge is lost. An idle level-sensitive gateway forwards the assertion of its
line, whose fall does not take the request back, nor does a new assertion send another. A counting gateway counts every edge, forwards
one request while idle and none while busy, and its count drops by 1 when the core accepts. While IP is set a request waits. Process
Claim takes the oldest claim message and enqueues the ID it answers as the target's response. The turns of a step that move a source's
line, send its edge, accept its request or take a target's response do exactly these things to that source or target, and nothing if
none has that number; the turn that sends a claim puts the number it names at the end of the claim queue, whatever number it is, and the
turn that processes a claim takes the oldest; without a PLIC every PLIC turn changes nothing (section 60.8). (Forwarding at once is log
20, the turns log 17.) -/
def Obligations.IgnoringGatewaySendsOneRequest : Prop :=
  (∀ (s : State) (p : PlicParams) (rest : List Turn) (act : AgentAction), s.config.plic = some p → s.agenda = .act act :: rest →
    (∀ (k : Nat) (sp : SourceParams) (ss : PlicSource), p.sources[k]? = some sp → s.plic.sources[k]? = some ss →
      let becomes (x : PlicSource) : Prop :=
        step s = .next { s with agenda := rest, plic := { s.plic with sources := s.plic.sources.set k x } }
      (∀ b, act = .sourceLevel (k + 1) b → becomes (ss.setLevel sp.gateway b)) ∧
      (act = .sourceEdge (k + 1) → becomes (ss.edge sp.gateway)) ∧
      (act = .acceptRequest (k + 1) → becomes (ss.accept sp.gateway))) ∧
    (∀ id, (id = 0 ∨ p.sources.length < id) →
      ((∃ b, act = .sourceLevel id b) ∨ act = .sourceEdge id ∨ act = .acceptRequest id) →
      step s = .next { s with agenda := rest }) ∧
    (act = .processClaim → step s = .next { s with agenda := rest, plic := s.plic.processClaim }) ∧
    (s.plic.claims = [] → s.plic.processClaim = s.plic) ∧
    (∀ t, act = .sendClaim t →
      step s = .next { s with agenda := rest, plic := { s.plic with claims := s.plic.claims ++ [t] } }) ∧
    (∀ (t : Nat) (tt : PlicTarget), act = .takeResponse t → s.plic.targets[t]? = some tt →
      step s = .next { s with
        agenda := rest,
        plic := { s.plic with targets := s.plic.targets.set t { tt with responses := tt.responses.tail } } }) ∧
    (∀ t, act = .takeResponse t → s.plic.targets.length ≤ t → step s = .next { s with agenda := rest })) ∧
  (∀ (s : State) (rest : List Turn) (act : AgentAction), s.config.plic = none → s.agenda = .act act :: rest →
    (∀ cells, act ≠ .memoryWrite cells) → (∀ src b, act ≠ .localLevel src b) → step s = .next { s with agenda := rest }) ∧
  (∀ ss : PlicSource, ss.busy = false → ss.requests = 0 → ss.ip = false →
    let g := Gateway.edgeIgnoring
    let first := ss.edge g
    let accepted := first.accept g
    first.busy = true ∧ first.requests = 1 ∧ first.edge g = first ∧
    accepted.ip = true ∧ accepted.requests = 0 ∧ accepted.busy = true ∧ accepted.edge g = accepted) ∧
  (∀ (ss : PlicSource) (asserted : Bool), ss.busy = false →
    ss.setLevel .level true = { ss with level := true, busy := true, requests := ss.requests + 1 } ∧
    ss.setLevel .level false = { ss with level := false } ∧
    (ss.setLevel .level true).setLevel .level asserted =
      { ss with level := asserted, busy := true, requests := ss.requests + 1 }) ∧
  (∀ ss : PlicSource,
    (ss.busy = false → ss.edge .edgeCounting = { ss with cnt := ss.cnt + 1, busy := true, requests := ss.requests + 1 }) ∧
    (ss.busy = true → ss.edge .edgeCounting = { ss with cnt := ss.cnt + 1 }) ∧
    (0 < ss.requests → ss.ip = false →
      ss.accept .edgeCounting = { ss with ip := true, requests := ss.requests - 1, cnt := ss.cnt - 1 } ∧
      ss.accept .level = { ss with ip := true, requests := ss.requests - 1 } ∧
      ss.accept .edgeIgnoring = { ss with ip := true, requests := ss.requests - 1 }) ∧
    (∀ g, ss.ip = true → ss.accept g = ss)) ∧
  (∀ (pl : Plic) (t : Nat) (rest : List Nat) (tt : PlicTarget), pl.claims = t :: rest → pl.targets[t]? = some tt →
    pl.processClaim = { (pl.claim t).2 with
      claims := rest, targets := pl.targets.set t { tt with responses := tt.responses ++ [(pl.claim t).1] } })

/-- Every PLIC action keeps the PLIC's state legal: at most one request of a source is in its queue, accepted or claimed, the
registers hold legal values, and no gateway sits on something to forward (60_exceptions.md R259 to R266; logs 19, 20, 21). -/
def Obligations.PlicActionsKeepLegal : Prop :=
  ∀ (p : PlicParams) (draw : Nat) (pl q : Plic) (a : AgentAction), PlicLegal p pl → plicAct p draw pl a = .ok q → PlicLegal p q

/-- Notifications (60_exceptions.md R258, R244): a delivery step gives the target the present EIP and changes nothing else; and,
with a PLIC present, the hart's external pending bit of a mode is set exactly when the EIP last delivered to some target that is its
context of that mode was 1. That the bit is 0 for a mode of which no target is this hart's context is the model's choice (log 39; R37
and R246 leave it free), and who moves next is log 17. -/
def Obligations.NotificationDeliversEip : Prop :=
  (∀ (s : State) (p : PlicParams) (t : Nat) (rest : List Turn) (tt : PlicTarget), s.config.plic = some p →
    s.plic.targets[t]? = some tt → s.agenda = .act (.notifyTarget t) :: rest →
    step s = .next { s with
      agenda := rest, plic := { s.plic with targets := s.plic.targets.set t { tt with seen := s.plic.eip t } } }) ∧
  (∀ (s : State) (p : PlicParams) (m : Mode), s.config.plic = some p →
    (s.externalPending m = true ↔ ∃ (k : Nat) (tp : TargetParams) (tt : PlicTarget), p.targets[k]? = some tp ∧
      s.plic.targets[k]? = some tt ∧ tp.context = some m ∧ tt.seen = true))

/-- A load of the hart from a PLIC register (60_exceptions.md R251, R253 to R256, R265, R268): each of the five loads at an entry of the
register map of its width, of which the PLIC has seen nothing ahead, completes. First some stores on their way reach the PLIC's queues,
oldest first: all that a FENCE orders before the load (43_memory_ordering.md R190) or, the stores being in the history's order, before
one that arrives, and no other. Then the register is read as it is: a priority, the IP bits of a window of sources, a target's IE bits
of them, a threshold, the PLIC unchanged; at a claim register it is a claim: the claims that came before are processed first, oldest
first, then the register reads as the ID the claim answers and the PLIC is left after that claim. `rd` gets the low 1, 2 or 4 bytes of
that value, extended as the load says, and the history a device input with them (R191, R197). The model's choices: the map is the
platform's and the load reads the present value (log 18), the way to the PLIC (log 38); bit 0 of a window is source `first`, its other
bits read 0, a value is cut to the entry's width (log 21); the value is moved whole, not byte-swapped, whatever ENDIAN is (log 34). -/
def Obligations.HartClaimsByLoad : Prop :=
  ∀ (s : State) (rd rs1 : Reg) (imm : BitVec 12) (a : Word) (n : Nat) (i : Instr) (v : Nat → Word) (p : PlicParams)
    (reg : PlicReg), a = BitVec.ofInt 32 ((s.x rs1).toInt + imm.toInt) → IsLoad i rd rs1 imm n v →
    checkAccess s a n .load = none → plicAccess s a n = some (p, reg) → (∀ e ∈ s.ahead, e.event ≠ s.events.length) →
    ∃ u arrived value, exec i s = .next u ∧ WritesReg s u rd (v (value.toNat % 256 ^ n)) ∧
      AccessRecorded s u deviceInput a n (BitVec.ofNat 32 (value.toNat % 256 ^ n)) ∧ u.ahead = s.ahead ∧
      List.Sublist arrived s.posted ∧ List.Sublist u.posted s.posted ∧ List.Perm s.posted (arrived ++ u.posted) ∧
      (∀ q ∈ u.posted, fencedBefore s.events q.event deviceInput = false) ∧
      (∀ q ∈ arrived, fencedBefore s.events q.event deviceInput = true ∨
        ∃ e ∈ arrived, mustPrecede s.events q.event e.event = true) ∧
      (PostedInOrder s → ∀ q ∈ u.posted, ∀ e ∈ arrived, mustPrecede s.events q.event e.event = false) ∧
      let pl : Plic := arrived.foldl Plic.receive s.plic
      ((∀ t, reg ≠ .claimComplete t) → u.plic = pl) ∧
      (∀ (k : Nat) (ss : PlicSource), reg = .priority (k + 1) → s.plic.sources[k]? = some ss → value = ss.prio) ∧
      (∀ (t : Nat) (tt : PlicTarget), reg = .threshold t → s.plic.targets[t]? = some tt → value = tt.thr) ∧
      (∀ first count b, reg = .pending first count → b < 32 →
        (value.getLsbD b = true ↔ b < count ∧ ∃ ss, s.plic.source? (first + b) = some ss ∧ ss.ip = true)) ∧
      (∀ (t first count b : Nat) (tt : PlicTarget), reg = .enable t first count → s.plic.targets[t]? = some tt → b < 32 →
        (value.getLsbD b = true ↔ b < count ∧ tt.enabled (first + b) = true)) ∧
      (∀ t, reg = .claimComplete t →
        value = BitVec.ofNat 32 (pl.drainClaims.claim t).1 ∧ u.plic = (pl.drainClaims.claim t).2 ∧
        (s.plic.claims = [] → pl.drainClaims = pl) ∧
        (s.plic.claims ≠ [] → pl.drainClaims = pl.processClaim.drainClaims))

/-- Register writes and completions by the hart (60_exceptions.md R263, R266): SB, SH or SW at an entry of the register map of its
width, of which the PLIC has seen nothing ahead, completes, changes no register, memory or PLIC, and sends the low 1, 2 or 4 bytes of
`x[rs2]`, zero-extended, on their way to the PLIC, and into the history as a device output (43_memory_ordering.md R191, R197); when the
store reaches it, one to a priority, enable or threshold register stands as a write request, one to a claim/complete register as a
completion with the stored ID, and one to a pending register does nothing. The model's choices: the register map is the platform's (log
18), the way to the PLIC (log 38), a value of fewer than 32 bits is zero-extended (log 21), and the value is moved whole, not
byte-swapped, whatever ENDIAN is (log 34). -/
def Obligations.HartWritesPlicByStore : Prop :=
  ∀ (s : State) (rs1 rs2 : Reg) (imm : BitVec 12) (a : Word) (n : Nat) (i : Instr) (p : PlicParams) (reg : PlicReg),
    a = BitVec.ofInt 32 ((s.x rs1).toInt + imm.toInt) → IsStore i rs1 rs2 imm n → checkAccess s a n .store = none →
    plicAccess s a n = some (p, reg) → (∀ e ∈ s.ahead, e.event ≠ s.events.length) →
    ∃ u q, exec i s = .next u ∧ SameRegs s u ∧ AccessRecorded s u deviceOutput a n q.value ∧
      u.plic = s.plic ∧ u.ahead = s.ahead ∧ u.posted = s.posted ++ [q] ∧ q.reg = reg ∧ q.event = s.events.length ∧
      q.value.toNat = (s.x rs2).toNat % 256 ^ n ∧
      ∀ pl : Plic,
        (∀ t, reg = .claimComplete t →
          pl.receive q = { pl with completions := pl.completions ++ [(t, (s.x rs2).toNat % 256 ^ n)] }) ∧
        ((∃ k, reg = .priority k) ∨ (∃ t first count, reg = .enable t first count) ∨ (∃ t, reg = .threshold t) →
          pl.receive q = { pl with writes := pl.writes ++ [⟨reg, q.value⟩] }) ∧
        (∀ first count, reg = .pending first count → pl.receive q = pl)

/-- A local pending bit follows its source's condition (60_exceptions.md R241), and no instruction reads or changes one (10_state.md
R34): each does the same whatever the bits are, and leaves them as they are. (The bits are held as a set that the agenda's turns
move: log 27.) -/
def Obligations.LocalPendingFollowsCondition : Prop :=
  (∀ (s : State) (src : LocalSource) (asserted : Bool) (rest : List Turn),
    s.agenda = .act (.localLevel src asserted) :: rest →
    ∃ t, step s = .next t ∧ (src ∈ t.localPending ↔ asserted = true) ∧
      (∀ q, q ≠ src → (q ∈ t.localPending ↔ q ∈ s.localPending)) ∧ SameRegs s t ∧ t.pc = s.pc ∧ SameMemory s t) ∧
  (∀ (i : Instr) (s t : State) (bits : List LocalSource), exec i s = .next t →
    t.localPending = s.localPending ∧ exec i { s with localPending := bits } = .next { t with localPending := bits })

/-! ### Other agents and the order they see -/

/-- A store of another agent to main memory is performed at its turn (20_memory.md R61, 00_scope.md R13): its bytes stand in main
memory of the map, where every later load finds them, every other byte is as before, what they replace is noted for fetches (R63),
and nothing else changes but the agenda. When the turns come is free (logs 17, 26). -/
def Obligations.OtherAgentsStoresArePerformed : Prop :=
  ∀ (s : State) (cells : List Host.Cell) (rest : List Turn), s.agenda = .act (.memoryWrite cells) :: rest →
    Memory.wf s.mem = true →
    ∃ mem noted, step s = .next { s with agenda := rest, mem := mem, overwritten := noted } ∧ Memory.wf mem = true ∧
      (∀ b, (∀ c ∈ cells, c.1 = b → isMain s.config.memMap b = false) → Memory.read mem b = Memory.read s.mem b) ∧
      (∀ c ∈ s.overwritten, c ∈ noted) ∧
      ((cells.map Prod.fst).Nodup → ∀ c ∈ cells, isMain s.config.memMap c.1 = true → c.1 < 4294967296 →
        Memory.read mem c.1 = c.2 ∧ (c.1, Memory.read s.mem c.1) ∈ noted)

/-- Only FENCEs order what the PLIC sees of the hart's accesses (20_memory.md R60, 43_memory_ordering.md R190,
70_reset_and_hazards.md R288). A store on its way may reach the PLIC at any turn of the agenda, before older ones too, unless a FENCE
orders an older one before it. The PLIC may also see a load or a store of the hart ahead of the instruction, before older accesses:
whatever else it has seen ahead, the load then takes that answer, from `rd` on as any load, and the store is not sent again, if it is
the instruction's (event, kind, address, width, stored value) and no FENCE orders before it an access that the PLIC had not seen then;
and else they act as if nothing had been seen. Such a load leaves no store on its way that a FENCE orders before it, and in a history
without a FENCE makes no store arrive (how they arrive is HartClaimsByLoad). (That the PLIC sees an access when its message reaches its
queues, and the form of all this as lists, is the model's: log 38.) -/
def Obligations.OnlyFencesOrderPlicAccesses : Prop :=
  (∀ (s : State) (p : PlicParams) (k : Nat) (q : PostedStore) (rest : List Turn),
    s.agenda = .act (.deliverStore k) :: rest → s.config.plic = some p → s.posted[k]? = some q →
    ((∀ j e, j < k → s.posted[j]? = some e → mustPrecede s.events e.event q.event = false) →
      step s = .next { s with agenda := rest, plic := s.plic.receive q, posted := s.posted.eraseIdx k }) ∧
    ((∃ j e, j < k ∧ s.posted[j]? = some e ∧ mustPrecede s.events e.event q.event = true) →
      step s = .next { s with agenda := rest })) ∧
  (∀ (s : State) (rd rs1 : Reg) (imm : BitVec 12) (a : Word) (n : Nat) (i : Instr) (v : Nat → Word) (p : PlicParams)
    (reg : PlicReg), a = BitVec.ofInt 32 ((s.x rs1).toInt + imm.toInt) → IsLoad i rd rs1 imm n v →
    checkAccess s a n .load = none → plicAccess s a n = some (p, reg) →
    ∃ u value, exec i s = .next u ∧ WritesReg s u rd (v (value.toNat % 256 ^ n)) ∧ AccessRecorded s u deviceInput a n value ∧
      ((∃ e, SeenInTime s false a n e) → ∃ e, SeenInTime s false a n e ∧ value = e.value ∧ u.plic = s.plic ∧
        u.posted = s.posted ∧ u.ahead = s.ahead.filter fun f => f.event != s.events.length) ∧
      ((¬∃ e, SeenInTime s false a n e) → u.ahead = s.ahead ∧ exec i { s with ahead := [] } = .next { u with ahead := [] } ∧
        List.Sublist u.posted s.posted ∧ (∀ q ∈ u.posted, fencedBefore s.events q.event deviceInput = false) ∧
        ((∀ e ∈ s.events, ∃ k b m w, e = .access k b m w) → u.posted = s.posted))) ∧
  (∀ (s : State) (rs1 rs2 : Reg) (imm : BitVec 12) (a : Word) (n : Nat) (i : Instr) (p : PlicParams) (reg : PlicReg),
    a = BitVec.ofInt 32 ((s.x rs1).toInt + imm.toInt) → IsStore i rs1 rs2 imm n →
    checkAccess s a n .store = none → plicAccess s a n = some (p, reg) → EarlyOnce s →
    ∃ u q, exec i s = .next u ∧ SameRegs s u ∧ AccessRecorded s u deviceOutput a n q.value ∧ u.plic = s.plic ∧
      q.reg = reg ∧ q.event = s.events.length ∧ q.value.toNat = (s.x rs2).toNat % 256 ^ n ∧
      ((∃ e, SeenInTime s true a n e ∧ e.value = q.value) →
        u.posted = s.posted ∧ u.ahead = s.ahead.filter fun f => f.event != s.events.length) ∧
      ((¬∃ e, SeenInTime s true a n e ∧ e.value = q.value) → u.posted = s.posted ++ [q] ∧ u.ahead = s.ahead)) ∧
  (∀ (s : State) (event : Nat) (a : Word) (n : Nat) (v : Word) (p : PlicParams) (reg : PlicReg) (act : AgentAction)
    (rest : List Turn), act = .answerAhead event a n ∨ act = .storeAhead event a n v →
    s.agenda = .act act :: rest → plicAccess s a n = some (p, reg) → s.events.length ≤ event →
    (∀ e ∈ s.ahead, e.event ≠ event) →
    ∃ e pl, step s = .next { s with agenda := rest, plic := pl, ahead := s.ahead ++ [e] } ∧
      e.event = event ∧ e.addr = a ∧ e.width = n ∧ e.seenAt = s.events.length ∧
      (∀ i, i ∈ e.earlier ↔ ∃ f ∈ s.ahead, f.event = i) ∧ (∀ i, i ∈ e.waiting ↔ ∃ q ∈ s.posted, q.event = i) ∧
      (act = .answerAhead event a n → e.store = false ∧ pl = (s.plic.readReg reg).2 ∧
        e.value.toNat = (s.plic.readReg reg).1.toNat % 256 ^ n) ∧
      (act = .storeAhead event a n v → e.store = true ∧ pl = s.plic.receive ⟨reg, e.value, event⟩ ∧
        e.value.toNat = v.toNat % 256 ^ n))
end

