-- ==== Sys2Proof/Laws/Bytes.lean ====
section
/-! SUPPORT. Bytes and words (20_memory.md R41 to R43): the value of joined bytes, the bytes of a split word. -/

namespace Sys2Proof.Machine

theorem littleValue_lt : ∀ l : List Byte, littleValue l < 256 ^ l.length
  | [] => by simp [littleValue]
  | b :: rest => by
    have h1 := littleValue_lt rest
    have h2 := b.isLt
    simp only [littleValue, List.length_cons, Nat.pow_succ]
    omega

/-- Joined bytes are the number the bytes stand for, the first least significant. -/
theorem toNat_joinBytes : ∀ {l : List Byte}, l.length ≤ 4 → (joinBytes l).toNat = littleValue l
  | [], _ => rfl
  | b :: rest, h => by
    simp only [List.length_cons] at h
    have ih := toNat_joinBytes (l := rest) (by omega)
    have hl := littleValue_lt rest
    have hp : 256 ^ rest.length ≤ 256 ^ 3 := Nat.pow_le_pow_right (by decide) (by omega)
    have hb := b.isLt
    simp only [joinBytes, BitVec.toNat_or, BitVec.toNat_shiftLeft, BitVec.toNat_setWidth, ih, littleValue]
    rw [Nat.mod_eq_of_lt (a := b.toNat) (by omega),
      Nat.mod_eq_of_lt (by rw [Nat.shiftLeft_eq]; omega), ← Nat.shiftLeft_add_eq_or_of_lt (by omega), Nat.shiftLeft_eq]
    omega

theorem joinBytes_eq {l : List Byte} (h : l.length ≤ 4) : joinBytes l = BitVec.ofNat 32 (littleValue l) := by
  apply BitVec.eq_of_toNat_eq
  have hl := littleValue_lt l
  have hp : 256 ^ l.length ≤ 256 ^ 4 := Nat.pow_le_pow_right (by decide) h
  rw [toNat_joinBytes h, BitVec.toNat_ofNat, Nat.mod_eq_of_lt (by omega)]

@[simp] theorem length_splitBytes (n : Nat) (v : Word) : (splitBytes n v).length = n := by simp [splitBytes]

/-- Byte `i` of a word. -/
theorem extract_byte_eq (v : Word) (i : Nat) : v.extractLsb' (8 * i) 8 = byteOf v.toNat i := by
  simp only [BitVec.extractLsb', byteOf, Nat.shiftRight_eq_div_pow, Nat.pow_mul]

theorem getElem?_splitBytes {n i : Nat} (v : Word) (h : i < n) : (splitBytes n v)[i]? = some (byteOf v.toNat i) := by
  simp [splitBytes, h, extract_byte_eq]

/-- Splitting a word and joining its bytes gives the word. -/
theorem joinBytes_splitBytes (v : Word) : joinBytes (splitBytes 4 v) = v := by
  apply BitVec.eq_of_toNat_eq
  rw [toNat_joinBytes (by simp)]
  have := v.isLt
  have h : splitBytes 4 v = [byteOf v.toNat 0, byteOf v.toNat 1, byteOf v.toNat 2, byteOf v.toNat 3] := by
    simp only [← extract_byte_eq]; rfl
  simp only [h, littleValue, byteOf, BitVec.toNat_ofNat]
  omega

@[simp] theorem length_inOrder (e : Endian) (l : List Byte) : (inOrder e l).length = l.length := by
  cases e <;> simp [inOrder]

/-- Bytes in address order joined in a byte order are the value the order gives them. -/
theorem joinBytes_inOrder {e : Endian} {l : List Byte} (h : l.length ≤ 4) :
    joinBytes (inOrder e l) = BitVec.ofNat 32 (bytesValue e l) := by
  rw [joinBytes_eq (by simpa using h)]
  cases e <;> rfl

/-- The byte a store puts at its `i`-th address. -/
theorem getElem?_inOrder_splitBytes {n i : Nat} (e : Endian) (v : Word) (h : i < n) :
    (inOrder e (splitBytes n v))[i]? = some (storedByte e n v i) := by
  cases e
  · exact getElem?_splitBytes v h
  · simp only [inOrder]
    rw [List.getElem?_reverse (by simpa using h), length_splitBytes]
    exact getElem?_splitBytes v (by omega)

theorem lowBytes_four (v : Word) : lowBytes 4 v = v := by
  apply BitVec.eq_of_toNat_eq; have := v.isLt; simp [lowBytes]; omega

end Sys2Proof.Machine
end

