-- ==== Sys2Proof/Laws/State.lean ====
section
/-! SUPPORT. What each field holds after each update of the state, one lemma per field per update, all by `rfl`: no proof need
unfold an update. -/

namespace Sys2Proof.Machine

/-! ### State.setX -/

@[simp] theorem State.regs_setX (s : State) (r : Reg) (v : Word) : (s.setX r v).regs = writeRegs s.regs r v := rfl
@[simp] theorem State.pc_setX (s : State) (r : Reg) (v : Word) : (s.setX r v).pc = s.pc := rfl
@[simp] theorem State.mem_setX (s : State) (r : Reg) (v : Word) : (s.setX r v).mem = s.mem := rfl
@[simp] theorem State.trap_setX (s : State) (r : Reg) (v : Word) : (s.setX r v).trap = s.trap := rfl
@[simp] theorem State.config_setX (s : State) (r : Reg) (v : Word) : (s.setX r v).config = s.config := rfl
@[simp] theorem State.overwritten_setX (s : State) (r : Reg) (v : Word) : (s.setX r v).overwritten = s.overwritten := rfl
@[simp] theorem State.events_setX (s : State) (r : Reg) (v : Word) : (s.setX r v).events = s.events := rfl
@[simp] theorem State.draws_setX (s : State) (r : Reg) (v : Word) : (s.setX r v).draws = s.draws := rfl
@[simp] theorem State.plic_setX (s : State) (r : Reg) (v : Word) : (s.setX r v).plic = s.plic := rfl
@[simp] theorem State.posted_setX (s : State) (r : Reg) (v : Word) : (s.setX r v).posted = s.posted := rfl
@[simp] theorem State.ahead_setX (s : State) (r : Reg) (v : Word) : (s.setX r v).ahead = s.ahead := rfl
@[simp] theorem State.localPending_setX (s : State) (r : Reg) (v : Word) : (s.setX r v).localPending = s.localPending := rfl
@[simp] theorem State.agenda_setX (s : State) (r : Reg) (v : Word) : (s.setX r v).agenda = s.agenda := rfl

/-! ### State.goto -/

@[simp] theorem State.regs_goto (s : State) (t : Word) : (s.goto t).regs = s.regs := rfl
@[simp] theorem State.pc_goto (s : State) (t : Word) : (s.goto t).pc = t := rfl
@[simp] theorem State.mem_goto (s : State) (t : Word) : (s.goto t).mem = s.mem := rfl
@[simp] theorem State.trap_goto (s : State) (t : Word) : (s.goto t).trap = s.trap := rfl
@[simp] theorem State.config_goto (s : State) (t : Word) : (s.goto t).config = s.config := rfl
@[simp] theorem State.overwritten_goto (s : State) (t : Word) : (s.goto t).overwritten = s.overwritten := rfl
@[simp] theorem State.events_goto (s : State) (t : Word) : (s.goto t).events = s.events := rfl
@[simp] theorem State.draws_goto (s : State) (t : Word) : (s.goto t).draws = s.draws := rfl
@[simp] theorem State.plic_goto (s : State) (t : Word) : (s.goto t).plic = s.plic := rfl
@[simp] theorem State.posted_goto (s : State) (t : Word) : (s.goto t).posted = s.posted := rfl
@[simp] theorem State.ahead_goto (s : State) (t : Word) : (s.goto t).ahead = s.ahead := rfl
@[simp] theorem State.localPending_goto (s : State) (t : Word) : (s.goto t).localPending = s.localPending := rfl
@[simp] theorem State.agenda_goto (s : State) (t : Word) : (s.goto t).agenda = s.agenda := rfl

/-! ### State.advance -/

@[simp] theorem State.regs_advance (s : State) : (s.advance).regs = s.regs := rfl
@[simp] theorem State.pc_advance (s : State) : (s.advance).pc = s.pc + 4 := rfl
@[simp] theorem State.mem_advance (s : State) : (s.advance).mem = s.mem := rfl
@[simp] theorem State.trap_advance (s : State) : (s.advance).trap = s.trap := rfl
@[simp] theorem State.config_advance (s : State) : (s.advance).config = s.config := rfl
@[simp] theorem State.overwritten_advance (s : State) : (s.advance).overwritten = s.overwritten := rfl
@[simp] theorem State.events_advance (s : State) : (s.advance).events = s.events := rfl
@[simp] theorem State.draws_advance (s : State) : (s.advance).draws = s.draws := rfl
@[simp] theorem State.plic_advance (s : State) : (s.advance).plic = s.plic := rfl
@[simp] theorem State.posted_advance (s : State) : (s.advance).posted = s.posted := rfl
@[simp] theorem State.ahead_advance (s : State) : (s.advance).ahead = s.ahead := rfl
@[simp] theorem State.localPending_advance (s : State) : (s.advance).localPending = s.localPending := rfl
@[simp] theorem State.agenda_advance (s : State) : (s.advance).agenda = s.agenda := rfl

/-! ### State.writeAndAdvance -/

@[simp] theorem State.regs_writeAndAdvance (s : State) (rd : Reg) (v : Word) : (s.writeAndAdvance rd v).regs = writeRegs s.regs rd v := rfl
@[simp] theorem State.pc_writeAndAdvance (s : State) (rd : Reg) (v : Word) : (s.writeAndAdvance rd v).pc = s.pc + 4 := rfl
@[simp] theorem State.mem_writeAndAdvance (s : State) (rd : Reg) (v : Word) : (s.writeAndAdvance rd v).mem = s.mem := rfl
@[simp] theorem State.trap_writeAndAdvance (s : State) (rd : Reg) (v : Word) : (s.writeAndAdvance rd v).trap = s.trap := rfl
@[simp] theorem State.config_writeAndAdvance (s : State) (rd : Reg) (v : Word) : (s.writeAndAdvance rd v).config = s.config := rfl
@[simp] theorem State.overwritten_writeAndAdvance (s : State) (rd : Reg) (v : Word) : (s.writeAndAdvance rd v).overwritten = s.overwritten := rfl
@[simp] theorem State.events_writeAndAdvance (s : State) (rd : Reg) (v : Word) : (s.writeAndAdvance rd v).events = s.events := rfl
@[simp] theorem State.draws_writeAndAdvance (s : State) (rd : Reg) (v : Word) : (s.writeAndAdvance rd v).draws = s.draws := rfl
@[simp] theorem State.plic_writeAndAdvance (s : State) (rd : Reg) (v : Word) : (s.writeAndAdvance rd v).plic = s.plic := rfl
@[simp] theorem State.posted_writeAndAdvance (s : State) (rd : Reg) (v : Word) : (s.writeAndAdvance rd v).posted = s.posted := rfl
@[simp] theorem State.ahead_writeAndAdvance (s : State) (rd : Reg) (v : Word) : (s.writeAndAdvance rd v).ahead = s.ahead := rfl
@[simp] theorem State.localPending_writeAndAdvance (s : State) (rd : Reg) (v : Word) : (s.writeAndAdvance rd v).localPending = s.localPending := rfl
@[simp] theorem State.agenda_writeAndAdvance (s : State) (rd : Reg) (v : Word) : (s.writeAndAdvance rd v).agenda = s.agenda := rfl

/-! ### State.record -/

@[simp] theorem State.regs_record (s : State) (e : Event) : (s.record e).regs = s.regs := rfl
@[simp] theorem State.pc_record (s : State) (e : Event) : (s.record e).pc = s.pc := rfl
@[simp] theorem State.mem_record (s : State) (e : Event) : (s.record e).mem = s.mem := rfl
@[simp] theorem State.trap_record (s : State) (e : Event) : (s.record e).trap = s.trap := rfl
@[simp] theorem State.config_record (s : State) (e : Event) : (s.record e).config = s.config := rfl
@[simp] theorem State.overwritten_record (s : State) (e : Event) : (s.record e).overwritten = s.overwritten := rfl
@[simp] theorem State.events_record (s : State) (e : Event) : (s.record e).events = s.events ++ [e] := rfl
@[simp] theorem State.draws_record (s : State) (e : Event) : (s.record e).draws = s.draws := rfl
@[simp] theorem State.plic_record (s : State) (e : Event) : (s.record e).plic = s.plic := rfl
@[simp] theorem State.posted_record (s : State) (e : Event) : (s.record e).posted = s.posted := rfl
@[simp] theorem State.ahead_record (s : State) (e : Event) : (s.record e).ahead = s.ahead := rfl
@[simp] theorem State.localPending_record (s : State) (e : Event) : (s.record e).localPending = s.localPending := rfl
@[simp] theorem State.agenda_record (s : State) (e : Event) : (s.record e).agenda = s.agenda := rfl

/-! ### State.raise -/

@[simp] theorem State.regs_raise (s : State) (c : Cause) (tval : Word) : (s.raise c tval).regs = s.regs := rfl
@[simp] theorem State.pc_raise (s : State) (c : Cause) (tval : Word) : (s.raise c tval).pc = s.pc := rfl
@[simp] theorem State.mem_raise (s : State) (c : Cause) (tval : Word) : (s.raise c tval).mem = s.mem := rfl
@[simp] theorem State.trap_raise (s : State) (c : Cause) (tval : Word) : (s.raise c tval).trap = some ⟨c, s.pc, tval⟩ := rfl
@[simp] theorem State.config_raise (s : State) (c : Cause) (tval : Word) : (s.raise c tval).config = s.config := rfl
@[simp] theorem State.overwritten_raise (s : State) (c : Cause) (tval : Word) : (s.raise c tval).overwritten = s.overwritten := rfl
@[simp] theorem State.events_raise (s : State) (c : Cause) (tval : Word) : (s.raise c tval).events = s.events := rfl
@[simp] theorem State.draws_raise (s : State) (c : Cause) (tval : Word) : (s.raise c tval).draws = s.draws := rfl
@[simp] theorem State.plic_raise (s : State) (c : Cause) (tval : Word) : (s.raise c tval).plic = s.plic := rfl
@[simp] theorem State.posted_raise (s : State) (c : Cause) (tval : Word) : (s.raise c tval).posted = s.posted := rfl
@[simp] theorem State.ahead_raise (s : State) (c : Cause) (tval : Word) : (s.raise c tval).ahead = s.ahead := rfl
@[simp] theorem State.localPending_raise (s : State) (c : Cause) (tval : Word) : (s.raise c tval).localPending = s.localPending := rfl
@[simp] theorem State.agenda_raise (s : State) (c : Cause) (tval : Word) : (s.raise c tval).agenda = s.agenda := rfl

/-! ### State.replaceBytes -/

@[simp] theorem State.regs_replaceBytes (s : State) (cells : List Host.Cell) :
    (s.replaceBytes cells).regs = s.regs := rfl
@[simp] theorem State.pc_replaceBytes (s : State) (cells : List Host.Cell) :
    (s.replaceBytes cells).pc = s.pc := rfl
@[simp] theorem State.mem_replaceBytes (s : State) (cells : List Host.Cell) :
    (s.replaceBytes cells).mem = Memory.writeAll s.mem cells := rfl
@[simp] theorem State.trap_replaceBytes (s : State) (cells : List Host.Cell) :
    (s.replaceBytes cells).trap = s.trap := rfl
@[simp] theorem State.config_replaceBytes (s : State) (cells : List Host.Cell) :
    (s.replaceBytes cells).config = s.config := rfl
@[simp] theorem State.overwritten_replaceBytes (s : State) (cells : List Host.Cell) :
    (s.replaceBytes cells).overwritten = noteOverwritten s.mem s.overwritten (cells.map Prod.fst) := rfl
@[simp] theorem State.events_replaceBytes (s : State) (cells : List Host.Cell) :
    (s.replaceBytes cells).events = s.events := rfl
@[simp] theorem State.draws_replaceBytes (s : State) (cells : List Host.Cell) :
    (s.replaceBytes cells).draws = s.draws := rfl
@[simp] theorem State.plic_replaceBytes (s : State) (cells : List Host.Cell) :
    (s.replaceBytes cells).plic = s.plic := rfl
@[simp] theorem State.posted_replaceBytes (s : State) (cells : List Host.Cell) :
    (s.replaceBytes cells).posted = s.posted := rfl
@[simp] theorem State.ahead_replaceBytes (s : State) (cells : List Host.Cell) :
    (s.replaceBytes cells).ahead = s.ahead := rfl
@[simp] theorem State.localPending_replaceBytes (s : State) (cells : List Host.Cell) :
    (s.replaceBytes cells).localPending = s.localPending := rfl
@[simp] theorem State.agenda_replaceBytes (s : State) (cells : List Host.Cell) :
    (s.replaceBytes cells).agenda = s.agenda := rfl

/-! ### State.arriveBefore -/

@[simp] theorem State.regs_arriveBefore (s : State) (b : KindSet) :
    (s.arriveBefore b).regs = s.regs := rfl
@[simp] theorem State.pc_arriveBefore (s : State) (b : KindSet) :
    (s.arriveBefore b).pc = s.pc := rfl
@[simp] theorem State.mem_arriveBefore (s : State) (b : KindSet) :
    (s.arriveBefore b).mem = s.mem := rfl
@[simp] theorem State.trap_arriveBefore (s : State) (b : KindSet) :
    (s.arriveBefore b).trap = s.trap := rfl
@[simp] theorem State.config_arriveBefore (s : State) (b : KindSet) :
    (s.arriveBefore b).config = s.config := rfl
@[simp] theorem State.overwritten_arriveBefore (s : State) (b : KindSet) :
    (s.arriveBefore b).overwritten = s.overwritten := rfl
@[simp] theorem State.events_arriveBefore (s : State) (b : KindSet) :
    (s.arriveBefore b).events = s.events := rfl
@[simp] theorem State.draws_arriveBefore (s : State) (b : KindSet) :
    (s.arriveBefore b).draws = s.draws := rfl
@[simp] theorem State.plic_arriveBefore (s : State) (b : KindSet) :
    (s.arriveBefore b).plic = (splitPosted s.events b s.posted).1.foldl Plic.receive s.plic := rfl
@[simp] theorem State.posted_arriveBefore (s : State) (b : KindSet) :
    (s.arriveBefore b).posted = (splitPosted s.events b s.posted).2 := rfl
@[simp] theorem State.ahead_arriveBefore (s : State) (b : KindSet) :
    (s.arriveBefore b).ahead = s.ahead := rfl
@[simp] theorem State.localPending_arriveBefore (s : State) (b : KindSet) :
    (s.arriveBefore b).localPending = s.localPending := rfl
@[simp] theorem State.agenda_arriveBefore (s : State) (b : KindSet) :
    (s.arriveBefore b).agenda = s.agenda := rfl

end Sys2Proof.Machine
end

