-- ==== Sys2Proof/Laws/Channel.lean ====
section
/-! SUPPORT. The order FENCEs oblige and the way between the hart and the PLIC, said once: what stays on its way, what a load of a
PLIC register, a delivery and an early answer can do (43_memory_ordering.md R190, 20_memory.md R60). -/

namespace Sys2Proof.Machine

/-! ### The order of FENCEs -/

/-- A history without a FENCE orders nothing before what comes next. -/
theorem fencedBefore_of_accesses {h : List Event} (ha : ∀ e ∈ h, ∃ k a n v, e = .access k a n v) (i : Nat) (b : KindSet) :
    fencedBefore h i b = false := by
  simp only [fencedBefore, List.any_eq_false, List.mem_range, Bool.and_eq_true, decide_eq_true_eq, not_and]
  intro k hk _
  obtain ⟨c, d, n, v, e⟩ := ha _ (List.getElem_mem hk)
  rw [List.getElem?_eq_getElem hk, e]
  split <;> simp_all

/-- A history without a FENCE obliges nothing. -/
theorem mustPrecede_of_accesses {h : List Event} (ha : ∀ e ∈ h, ∃ k a n v, e = .access k a n v) (i j : Nat) :
    mustPrecede h i j = false := by
  unfold mustPrecede
  split
  · exact fencedBefore_of_accesses (fun e he => ha e (List.mem_of_mem_take he)) _ _
  · rfl

/-- Only an older event must precede. -/
theorem lt_of_mustPrecede {h : List Event} {i j : Nat} (hm : mustPrecede h i j = true) : i < j := by
  unfold mustPrecede at hm
  split at hm
  · simp only [fencedBefore, List.any_eq_true, List.mem_range, Bool.and_eq_true, decide_eq_true_eq] at hm
    obtain ⟨k, hk, hik, _⟩ := hm
    have := List.length_take_le j h
    omega
  · cases hm

/-! ### Stores on their way -/

/-- No store stays on its way that a FENCE orders before the operation. -/
theorem fencedBefore_splitPosted {h : List Event} {b : KindSet} : ∀ {l : List PostedStore} {q : PostedStore},
    q ∈ (splitPosted h b l).2 → fencedBefore h q.event b = false
  | [], q, hq => by simp [splitPosted] at hq
  | p :: rest, q, hq => by
    simp only [splitPosted] at hq
    split at hq
    · exact fencedBefore_splitPosted hq
    · rename_i hp
      rcases List.mem_cons.1 hq with rfl | hq
      · simp only [Bool.or_eq_true, not_or] at hp; simpa using hp.1
      · exact fencedBefore_splitPosted hq

/-- The stores that stay on their way keep their order. -/
theorem sublist_splitPosted (h : List Event) (b : KindSet) : ∀ l : List PostedStore, (splitPosted h b l).2.Sublist l
  | [] => List.Sublist.refl _
  | p :: rest => by
    simp only [splitPosted]
    split
    · exact (sublist_splitPosted h b rest).cons p
    · exact (sublist_splitPosted h b rest).cons_cons p

/-- The stores that arrive keep their order. -/
theorem sublist_splitPosted_fst (h : List Event) (b : KindSet) : ∀ l : List PostedStore, (splitPosted h b l).1.Sublist l
  | [] => List.Sublist.refl _
  | p :: rest => by
    simp only [splitPosted]
    split
    · exact (sublist_splitPosted_fst h b rest).cons_cons p
    · exact (sublist_splitPosted_fst h b rest).cons p

/-- A store on its way arrives or stays, and none is lost or doubled. -/
theorem perm_splitPosted (h : List Event) (b : KindSet) : ∀ l : List PostedStore,
    l.Perm ((splitPosted h b l).1 ++ (splitPosted h b l).2)
  | [] => List.Perm.nil
  | p :: rest => by
    simp only [splitPosted]
    split
    · exact (perm_splitPosted h b rest).cons p
    · exact ((perm_splitPosted h b rest).cons p).trans List.perm_middle.symm

/-- A store arrives because a FENCE orders it before the operation, or before another store that arrives. -/
theorem fenced_of_mem_splitPosted {h : List Event} {b : KindSet} : ∀ {l : List PostedStore} {q : PostedStore},
    q ∈ (splitPosted h b l).1 → fencedBefore h q.event b = true ∨
      ∃ e ∈ (splitPosted h b l).1, mustPrecede h q.event e.event = true
  | [], q, hq => by simp [splitPosted] at hq
  | p :: rest, q, hq => by
    have ih (hr : q ∈ (splitPosted h b rest).1) := fenced_of_mem_splitPosted hr
    simp only [splitPosted] at hq ⊢
    split at hq
    · rename_i hc
      rw [if_pos hc]
      rcases List.mem_cons.1 hq with rfl | hq
      · simp only [Bool.or_eq_true, List.any_eq_true] at hc
        exact hc.imp id fun ⟨e, he, hm⟩ => ⟨e, List.mem_cons_of_mem _ he, hm⟩
      · exact (ih hq).imp id fun ⟨e, he, hm⟩ => ⟨e, List.mem_cons_of_mem _ he, hm⟩
    · rename_i hc
      rw [if_neg hc]
      exact ih hq

/-- Of stores in event order, none stays that a FENCE orders before one that arrives. -/
theorem mustPrecede_splitPosted {h : List Event} {b : KindSet} : ∀ {l : List PostedStore},
    l.Pairwise (fun q r => q.event < r.event) → ∀ q ∈ (splitPosted h b l).2, ∀ e ∈ (splitPosted h b l).1,
      mustPrecede h q.event e.event = false
  | [], _, q, hq, _, _ => by simp [splitPosted] at hq
  | p :: rest, hl, q, hq, e, he => by
    obtain ⟨hp, hr⟩ := List.pairwise_cons.1 hl
    have ih := mustPrecede_splitPosted (h := h) (b := b) hr q
    simp only [splitPosted] at hq he
    split at hq
    · rename_i hc
      rw [if_pos hc] at he
      rcases List.mem_cons.1 he with rfl | he
      · have := hp q ((sublist_splitPosted h b rest).subset hq)
        by_contra hm
        have := lt_of_mustPrecede (by simpa using hm)
        omega
      · exact ih hq e he
    · rename_i hc
      rw [if_neg hc] at he
      rcases List.mem_cons.1 hq with rfl | hq
      · simp only [Bool.or_eq_true, not_or, List.any_eq_true, not_exists, not_and] at hc
        simpa using hc.2 e he
      · exact ih hq e he

/-- Stores that reach the PLIC stand in its queues; its sources, targets and claims are as before. -/
theorem foldl_receive (l : List PostedStore) : ∀ pl : Plic, (l.foldl Plic.receive pl).sources = pl.sources ∧
    (l.foldl Plic.receive pl).targets = pl.targets ∧ (l.foldl Plic.receive pl).claims = pl.claims := by
  induction l with
  | nil => exact fun _ => ⟨rfl, rfl, rfl⟩
  | cons q l ih =>
    intro pl
    have h : (pl.receive q).sources = pl.sources ∧ (pl.receive q).targets = pl.targets ∧
        (pl.receive q).claims = pl.claims := by
      unfold Plic.receive Plic.writeReg
      split <;> exact ⟨rfl, rfl, rfl⟩
    obtain ⟨a, b, c⟩ := ih (pl.receive q)
    exact ⟨a.trans h.1, b.trans h.2.1, c.trans h.2.2⟩

/-- With no store that a FENCE orders before the operation, none arrives. -/
theorem splitPosted_of_unfenced {h : List Event} {b : KindSet} : ∀ {l : List PostedStore},
    (∀ q ∈ l, fencedBefore h q.event b = false) → splitPosted h b l = ([], l)
  | [], _ => rfl
  | p :: rest, hl => by
    simp [splitPosted, splitPosted_of_unfenced fun q hq => hl q (List.mem_cons_of_mem _ hq), hl p List.mem_cons_self]

/-- With no such store the state is as it was. -/
theorem arriveBefore_of_unfenced {s : State} {b : KindSet} (h : ∀ q ∈ s.posted, fencedBefore s.events q.event b = false) :
    s.arriveBefore b = s := by simp [State.arriveBefore, splitPosted_of_unfenced h]

/-- A delivery lets one store reach the PLIC, or does nothing. -/
theorem deliverStore_cases (s : State) (k : Nat) : s.deliverStore k = s ∨ ∃ p q, s.config.plic = some p ∧ s.posted[k]? = some q ∧
    s.deliverStore k = { s with plic := s.plic.receive q, posted := s.posted.eraseIdx k } := by
  unfold State.deliverStore
  split
  · split
    · exact .inl rfl
    · exact .inr ⟨_, _, ‹_›, ‹_›, rfl⟩
  · exact .inl rfl

/-! ### Accesses ahead of their instruction -/

/-- The PLIC sees an access ahead of the hart, or nothing happens. -/
theorem seeAhead_cases (s : State) (event : Nat) (store : Bool) (a : Word) (n : Nat) (v : Word) (pl : Plic) :
    s.seeAhead event store a n v pl = s ∨ (s.events.length ≤ event ∧ (∀ e ∈ s.ahead, e.event ≠ event) ∧
      s.seeAhead event store a n v pl = { s with plic := pl, ahead := s.ahead ++ [
        ⟨event, store, a, n, v, s.events.length, s.ahead.map EarlyAccess.event, s.posted.map PostedStore.event⟩] }) := by
  unfold State.seeAhead
  split
  · exact .inl rfl
  · rename_i h
    rw [not_or] at h
    exact .inr ⟨by omega, fun e he hh => h.2 (List.mem_map.2 ⟨e, he, hh⟩), rfl⟩

/-- An early answer reads a PLIC register and waits for its load, or there is none. -/
theorem answerAhead_cases (s : State) (event : Nat) (a : Word) (n : Nat) : s.answerAhead event a n = s ∨
    ∃ p reg e, plicAccess s a n = some (p, reg) ∧ s.events.length ≤ event ∧ (∀ f ∈ s.ahead, f.event ≠ event) ∧
      e.event = event ∧ s.answerAhead event a n = { s with plic := (s.plic.readReg reg).2, ahead := s.ahead ++ [e] } := by
  unfold State.answerAhead
  split
  · exact .inl rfl
  · exact (seeAhead_cases ..).imp id fun ⟨h, h', e⟩ => ⟨_, _, _, ‹_›, h, h', rfl, e⟩

/-- An early store reaches the PLIC and waits for its instruction, or there is none. -/
theorem storeAhead_cases (s : State) (event : Nat) (a : Word) (n : Nat) (v : Word) : s.storeAhead event a n v = s ∨
    ∃ p reg e, plicAccess s a n = some (p, reg) ∧ s.events.length ≤ event ∧ (∀ f ∈ s.ahead, f.event ≠ event) ∧
      e.event = event ∧ s.storeAhead event a n v = { s with plic := s.plic.receive ⟨reg, lowBytes n v, event⟩, ahead := s.ahead ++ [e] } := by
  unfold State.storeAhead
  split
  · exact .inl rfl
  · exact (seeAhead_cases ..).imp id fun ⟨h, h', e⟩ => ⟨_, _, _, ‹_›, h, h', rfl, e⟩

/-- What `missed` says, as a proposition. -/
theorem missed_iff {e : EarlyAccess} {ahead : List EarlyAccess} {i : Nat} : e.missed ahead i = true ↔
    (e.seenAt ≤ i ∧ ¬(i ∈ e.earlier ∧ ∀ f ∈ ahead, f.event ≠ i)) ∨ i ∈ e.waiting := by
  simp only [EarlyAccess.missed, Bool.or_eq_true, Bool.and_eq_true, decide_eq_true_eq, Bool.not_eq_true',
    ← Bool.not_eq_true, List.contains_iff_mem, List.mem_map, not_exists, not_and, ne_eq]

/-- What stands in `ahead` for another event is not the access that comes next. -/
theorem seen?_eq_none {s : State} {a : Word} {n : Nat} (b : Bool) (h : ∀ e ∈ s.ahead, e.event ≠ s.events.length) :
    s.seen? b a n = none := by
  rw [State.seen?, List.find?_eq_none]
  intro e he
  simp [h e he]

/-- The PLIC has not seen the store that comes next if nothing stands in `ahead` for its event. -/
theorem seenStore_eq_false {s : State} {a : Word} {n : Nat} (v : Word) (h : ∀ e ∈ s.ahead, e.event ≠ s.events.length) :
    s.seenStore a n v = false := by rw [State.seenStore, seen?_eq_none true h]

/-! ### Loads -/

/-- An instance is configured where an access reaches a register. -/
theorem config_of_plicAccess {s : State} {a : Word} {n : Nat} {p : PlicParams} {reg : PlicReg}
    (h : plicAccess s a n = some (p, reg)) : s.config.plic = some p := by
  unfold plicAccess at h
  split at h
  · cases h
  · rename_i q hq
    split at h
    · obtain ⟨_, _, e⟩ := Option.map_eq_some_iff.1 h
      cases e; exact hq
    · cases h

/-- A load of a PLIC register takes the answer that waits for it, or reads the register once the stores before it have arrived. -/
theorem plicLoad_cases (s : State) (reg : PlicReg) (a : Word) (n : Nat) :
    (∃ e, s.seen? false a n = some e ∧ s.plicLoad reg a n = ⟨e.value, s.plic, s.posted, s.restAhead⟩) ∨
    (s.seen? false a n = none ∧ s.plicLoad reg a n =
      ⟨lowBytes n ((s.arriveBefore deviceInput).plic.readReg reg).1, ((s.arriveBefore deviceInput).plic.readReg reg).2,
        (splitPosted s.events deviceInput s.posted).2, s.ahead⟩) := by
  unfold State.plicLoad
  split
  · exact .inl ⟨_, ‹_›, rfl⟩
  · exact .inr ⟨‹_›, rfl⟩

/-- With no answer waiting and no store to wait for, a load of a PLIC register reads it as it is. -/
theorem plicLoad_direct {s : State} {a : Word} {n : Nat} (reg : PlicReg) (ha : ∀ e ∈ s.ahead, e.event ≠ s.events.length)
    (hq : ∀ q ∈ s.posted, fencedBefore s.events q.event deviceInput = false) :
    s.plicLoad reg a n = ⟨lowBytes n (s.plic.readReg reg).1, (s.plic.readReg reg).2, s.posted, s.ahead⟩ := by
  simp [State.plicLoad, seen?_eq_none false ha, arriveBefore_of_unfenced hq]

end Sys2Proof.Machine
end

