-- ==== Sys2Proof/Laws/Decode.lean ====
section
/-! SUPPORT. The encoders' words as numbers and their fields (30_encoding.md R72 to R83): what each field reader gives of each
encoder's word; bytes of a word and back (20_memory.md R44, R45). -/

namespace Sys2Proof

/-! ### Words as numbers -/

theorem toNat_append_add {n m : Nat} (x : BitVec n) (y : BitVec m) : (x ++ y).toNat = x.toNat * 2 ^ m + y.toNat := by
  rw [BitVec.toNat_append, ← Nat.shiftLeft_add_eq_or_of_lt y.isLt, Nat.shiftLeft_eq]

/-- A field of a bit vector as a number. -/
theorem toNat_field {m : Nat} (w : BitVec m) (k n : Nat) : (w.extractLsb' k n).toNat = w.toNat / 2 ^ k % 2 ^ n := by
  simp [Nat.shiftRight_eq_div_pow]

theorem toNat_encodeR (funct7 : BitVec 7) (rs2 rs1 : Reg) (funct3 : BitVec 3) (rd : Reg) (opcode : BitVec 7) :
    (encodeR funct7 rs2 rs1 funct3 rd opcode).toNat =
      funct7.toNat * 2 ^ 25 + rs2.toNat * 2 ^ 20 + rs1.toNat * 2 ^ 15 + funct3.toNat * 2 ^ 12 + rd.toNat * 2 ^ 7 +
        opcode.toNat := by
  refine (toNat_append_add (funct7 ++ rs2 ++ rs1 ++ funct3 ++ rd) opcode).trans ?_
  rw [toNat_append_add, toNat_append_add, toNat_append_add, toNat_append_add]
  omega

theorem toNat_encodeI (imm : BitVec 12) (rs1 : Reg) (funct3 : BitVec 3) (rd : Reg) (opcode : BitVec 7) :
    (encodeI imm rs1 funct3 rd opcode).toNat =
      imm.toNat * 2 ^ 20 + rs1.toNat * 2 ^ 15 + funct3.toNat * 2 ^ 12 + rd.toNat * 2 ^ 7 + opcode.toNat := by
  refine (toNat_append_add (imm ++ rs1 ++ funct3 ++ rd) opcode).trans ?_
  rw [toNat_append_add, toNat_append_add, toNat_append_add]
  omega

theorem toNat_encodeS (imm : BitVec 12) (rs2 rs1 : Reg) (funct3 : BitVec 3) (opcode : BitVec 7) :
    (encodeS imm rs2 rs1 funct3 opcode).toNat =
      imm.toNat / 2 ^ 5 % 2 ^ 7 * 2 ^ 25 + rs2.toNat * 2 ^ 20 + rs1.toNat * 2 ^ 15 + funct3.toNat * 2 ^ 12 +
        imm.toNat % 2 ^ 5 * 2 ^ 7 + opcode.toNat := by
  refine (toNat_append_add (imm.extractLsb' 5 7 ++ rs2 ++ rs1 ++ funct3 ++ imm.extractLsb' 0 5) opcode).trans ?_
  rw [toNat_append_add, toNat_append_add, toNat_append_add, toNat_append_add, toNat_field, toNat_field]
  omega

theorem toNat_encodeB (offset : BitVec 13) (rs2 rs1 : Reg) (funct3 : BitVec 3) (opcode : BitVec 7) :
    (encodeB offset rs2 rs1 funct3 opcode).toNat =
      offset.toNat / 2 ^ 12 % 2 * 2 ^ 31 + offset.toNat / 2 ^ 5 % 2 ^ 6 * 2 ^ 25 + rs2.toNat * 2 ^ 20 +
        rs1.toNat * 2 ^ 15 + funct3.toNat * 2 ^ 12 + offset.toNat / 2 % 2 ^ 4 * 2 ^ 8 + offset.toNat / 2 ^ 11 % 2 * 2 ^ 7 +
        opcode.toNat := by
  refine (toNat_append_add (offset.extractLsb' 12 1 ++ offset.extractLsb' 5 6 ++ rs2 ++ rs1 ++ funct3 ++
    offset.extractLsb' 1 4 ++ offset.extractLsb' 11 1) opcode).trans ?_
  rw [toNat_append_add, toNat_append_add, toNat_append_add, toNat_append_add, toNat_append_add, toNat_append_add,
    toNat_field, toNat_field, toNat_field, toNat_field]
  omega

theorem toNat_encodeU (imm : BitVec 20) (rd : Reg) (opcode : BitVec 7) :
    (encodeU imm rd opcode).toNat = imm.toNat * 2 ^ 12 + rd.toNat * 2 ^ 7 + opcode.toNat := by
  refine (toNat_append_add (imm ++ rd) opcode).trans ?_
  rw [toNat_append_add]
  omega

theorem toNat_encodeJ (offset : BitVec 21) (rd : Reg) (opcode : BitVec 7) :
    (encodeJ offset rd opcode).toNat =
      offset.toNat / 2 ^ 20 % 2 * 2 ^ 31 + offset.toNat / 2 % 2 ^ 10 * 2 ^ 21 + offset.toNat / 2 ^ 11 % 2 * 2 ^ 20 +
        offset.toNat / 2 ^ 12 % 2 ^ 8 * 2 ^ 12 + rd.toNat * 2 ^ 7 + opcode.toNat := by
  refine (toNat_append_add (offset.extractLsb' 20 1 ++ offset.extractLsb' 1 10 ++ offset.extractLsb' 11 1 ++
    offset.extractLsb' 12 8 ++ rd) opcode).trans ?_
  rw [toNat_append_add, toNat_append_add, toNat_append_add, toNat_append_add, toNat_field, toNat_field, toNat_field,
    toNat_field]
  omega

theorem toNat_encodeFence (fm pred succ : BitVec 4) (rs1 rd : Reg) :
    (encodeFence fm pred succ rs1 rd).toNat =
      fm.toNat * 2 ^ 28 + pred.toNat * 2 ^ 24 + succ.toNat * 2 ^ 20 + rs1.toNat * 2 ^ 15 + rd.toNat * 2 ^ 7 + 15 := by
  refine (toNat_append_add (fm ++ pred ++ succ ++ rs1 ++ 0b000#3 ++ rd) 0b0001111#7).trans ?_
  rw [toNat_append_add, toNat_append_add, toNat_append_add, toNat_append_add, toNat_append_add]
  simp only [BitVec.toNat_ofNat]
  omega

theorem toNat_immSOf (w : Word) : (immSOf w).toNat = w.toNat / 2 ^ 25 % 2 ^ 7 * 2 ^ 5 + w.toNat / 2 ^ 7 % 2 ^ 5 := by
  refine (toNat_append_add (w.extractLsb' 25 7) (w.extractLsb' 7 5)).trans ?_
  rw [toNat_field, toNat_field]

theorem toNat_offsetBOf (w : Word) : (offsetBOf w).toNat =
    w.toNat / 2 ^ 31 % 2 * 2 ^ 12 + w.toNat / 2 ^ 7 % 2 * 2 ^ 11 + w.toNat / 2 ^ 25 % 2 ^ 6 * 2 ^ 5 +
      w.toNat / 2 ^ 8 % 2 ^ 4 * 2 := by
  refine (toNat_append_add (w.extractLsb' 31 1 ++ w.extractLsb' 7 1 ++ w.extractLsb' 25 6 ++ w.extractLsb' 8 4)
    0#1).trans ?_
  rw [toNat_append_add, toNat_append_add, toNat_append_add, toNat_field, toNat_field, toNat_field, toNat_field]
  simp only [BitVec.toNat_ofNat]
  omega

theorem toNat_offsetJOf (w : Word) : (offsetJOf w).toNat =
    w.toNat / 2 ^ 31 % 2 * 2 ^ 20 + w.toNat / 2 ^ 12 % 2 ^ 8 * 2 ^ 12 + w.toNat / 2 ^ 20 % 2 * 2 ^ 11 +
      w.toNat / 2 ^ 21 % 2 ^ 10 * 2 := by
  refine (toNat_append_add (w.extractLsb' 31 1 ++ w.extractLsb' 12 8 ++ w.extractLsb' 20 1 ++ w.extractLsb' 21 10)
    0#1).trans ?_
  rw [toNat_append_add, toNat_append_add, toNat_append_add, toNat_field, toNat_field, toNat_field, toNat_field]
  simp only [BitVec.toNat_ofNat]
  omega

/-- Bit 0 clear is evenness. -/
theorem even_of_bit0 {n : Nat} {v : BitVec n} (h : (!v.getLsbD 0) = true) : v.toNat % 2 = 0 := by
  simp [BitVec.getLsbD, Nat.testBit] at h
  omega

/-- The fields of an S-type word, as numbers. -/
theorem fields_S {a b c d e f : Nat} (ha : a < 2 ^ 7) (hb : b < 2 ^ 5) (hc : c < 2 ^ 5) (hd : d < 2 ^ 3) (he : e < 2 ^ 5) (hf : f < 2 ^ 7) :
    let w := a * 2 ^ 25 + b * 2 ^ 20 + c * 2 ^ 15 + d * 2 ^ 12 + e * 2 ^ 7 + f
    w / 2 ^ 25 % 2 ^ 7 = a ∧ w / 2 ^ 20 % 2 ^ 5 = b ∧ w / 2 ^ 15 % 2 ^ 5 = c ∧ w / 2 ^ 12 % 2 ^ 3 = d ∧
      w / 2 ^ 7 % 2 ^ 5 = e ∧ w / 2 ^ 0 % 2 ^ 7 = f := by
  refine ⟨?_, ?_, ?_, ?_, ?_, ?_⟩ <;> omega

/-- The fields of a B-type word, as numbers. -/
theorem fields_B {a b c d e f g h : Nat} (ha : a < 2) (hb : b < 2 ^ 6) (hc : c < 2 ^ 5) (hd : d < 2 ^ 5) (he : e < 2 ^ 3) (hf : f < 2 ^ 4)
    (hg : g < 2) (hh : h < 2 ^ 7) :
    let w := a * 2 ^ 31 + b * 2 ^ 25 + c * 2 ^ 20 + d * 2 ^ 15 + e * 2 ^ 12 + f * 2 ^ 8 + g * 2 ^ 7 + h
    w / 2 ^ 31 % 2 = a ∧ w / 2 ^ 25 % 2 ^ 6 = b ∧ w / 2 ^ 20 % 2 ^ 5 = c ∧ w / 2 ^ 15 % 2 ^ 5 = d ∧ w / 2 ^ 12 % 2 ^ 3 = e ∧
      w / 2 ^ 8 % 2 ^ 4 = f ∧ w / 2 ^ 7 % 2 = g ∧ w / 2 ^ 0 % 2 ^ 7 = h := by
  refine ⟨?_, ?_, ?_, ?_, ?_, ?_, ?_, ?_⟩ <;> omega

/-- The fields of a J-type word, as numbers. -/
theorem fields_J {a b c d e f : Nat} (ha : a < 2) (hb : b < 2 ^ 10) (hc : c < 2) (hd : d < 2 ^ 8) (he : e < 2 ^ 5) (hf : f < 2 ^ 7) :
    let w := a * 2 ^ 31 + b * 2 ^ 21 + c * 2 ^ 20 + d * 2 ^ 12 + e * 2 ^ 7 + f
    w / 2 ^ 31 % 2 = a ∧ w / 2 ^ 21 % 2 ^ 10 = b ∧ w / 2 ^ 20 % 2 = c ∧ w / 2 ^ 12 % 2 ^ 8 = d ∧ w / 2 ^ 7 % 2 ^ 5 = e ∧
      w / 2 ^ 0 % 2 ^ 7 = f := by
  refine ⟨?_, ?_, ?_, ?_, ?_, ?_⟩ <;> omega

/-! ### Fields of R-type words -/

@[simp] theorem funct7Of_encodeR (funct7 : BitVec 7) (rs2 : BitVec 5) (rs1 : BitVec 5) (funct3 : BitVec 3) (rd : BitVec 5) (opcode : BitVec 7) :
    funct7Of (encodeR funct7 rs2 rs1 funct3 rd opcode) = funct7 := by
  apply BitVec.eq_of_toNat_eq
  have := funct7.isLt; have := rs2.isLt; have := rs1.isLt; have := funct3.isLt; have := rd.isLt; have := opcode.isLt
  rw [funct7Of, toNat_field, toNat_encodeR]
  omega

@[simp] theorem rs2Of_encodeR (funct7 : BitVec 7) (rs2 : BitVec 5) (rs1 : BitVec 5) (funct3 : BitVec 3) (rd : BitVec 5) (opcode : BitVec 7) :
    rs2Of (encodeR funct7 rs2 rs1 funct3 rd opcode) = rs2 := by
  apply BitVec.eq_of_toNat_eq
  have := funct7.isLt; have := rs2.isLt; have := rs1.isLt; have := funct3.isLt; have := rd.isLt; have := opcode.isLt
  rw [rs2Of, toNat_field, toNat_encodeR]
  omega

@[simp] theorem rs1Of_encodeR (funct7 : BitVec 7) (rs2 : BitVec 5) (rs1 : BitVec 5) (funct3 : BitVec 3) (rd : BitVec 5) (opcode : BitVec 7) :
    rs1Of (encodeR funct7 rs2 rs1 funct3 rd opcode) = rs1 := by
  apply BitVec.eq_of_toNat_eq
  have := funct7.isLt; have := rs2.isLt; have := rs1.isLt; have := funct3.isLt; have := rd.isLt; have := opcode.isLt
  rw [rs1Of, toNat_field, toNat_encodeR]
  omega

@[simp] theorem funct3Of_encodeR (funct7 : BitVec 7) (rs2 : BitVec 5) (rs1 : BitVec 5) (funct3 : BitVec 3) (rd : BitVec 5) (opcode : BitVec 7) :
    funct3Of (encodeR funct7 rs2 rs1 funct3 rd opcode) = funct3 := by
  apply BitVec.eq_of_toNat_eq
  have := funct7.isLt; have := rs2.isLt; have := rs1.isLt; have := funct3.isLt; have := rd.isLt; have := opcode.isLt
  rw [funct3Of, toNat_field, toNat_encodeR]
  omega

@[simp] theorem rdOf_encodeR (funct7 : BitVec 7) (rs2 : BitVec 5) (rs1 : BitVec 5) (funct3 : BitVec 3) (rd : BitVec 5) (opcode : BitVec 7) :
    rdOf (encodeR funct7 rs2 rs1 funct3 rd opcode) = rd := by
  apply BitVec.eq_of_toNat_eq
  have := funct7.isLt; have := rs2.isLt; have := rs1.isLt; have := funct3.isLt; have := rd.isLt; have := opcode.isLt
  rw [rdOf, toNat_field, toNat_encodeR]
  omega

@[simp] theorem opcodeOf_encodeR (funct7 : BitVec 7) (rs2 : BitVec 5) (rs1 : BitVec 5) (funct3 : BitVec 3) (rd : BitVec 5) (opcode : BitVec 7) :
    opcodeOf (encodeR funct7 rs2 rs1 funct3 rd opcode) = opcode := by
  apply BitVec.eq_of_toNat_eq
  have := funct7.isLt; have := rs2.isLt; have := rs1.isLt; have := funct3.isLt; have := rd.isLt; have := opcode.isLt
  rw [opcodeOf, toNat_field, toNat_encodeR]
  omega


/-! ### Fields of I-type words -/

@[simp] theorem immIOf_encodeI (imm : BitVec 12) (rs1 : BitVec 5) (funct3 : BitVec 3) (rd : BitVec 5) (opcode : BitVec 7) :
    immIOf (encodeI imm rs1 funct3 rd opcode) = imm := by
  apply BitVec.eq_of_toNat_eq
  have := imm.isLt; have := rs1.isLt; have := funct3.isLt; have := rd.isLt; have := opcode.isLt
  rw [immIOf, toNat_field, toNat_encodeI]
  omega

@[simp] theorem rs1Of_encodeI (imm : BitVec 12) (rs1 : BitVec 5) (funct3 : BitVec 3) (rd : BitVec 5) (opcode : BitVec 7) :
    rs1Of (encodeI imm rs1 funct3 rd opcode) = rs1 := by
  apply BitVec.eq_of_toNat_eq
  have := imm.isLt; have := rs1.isLt; have := funct3.isLt; have := rd.isLt; have := opcode.isLt
  rw [rs1Of, toNat_field, toNat_encodeI]
  omega

@[simp] theorem funct3Of_encodeI (imm : BitVec 12) (rs1 : BitVec 5) (funct3 : BitVec 3) (rd : BitVec 5) (opcode : BitVec 7) :
    funct3Of (encodeI imm rs1 funct3 rd opcode) = funct3 := by
  apply BitVec.eq_of_toNat_eq
  have := imm.isLt; have := rs1.isLt; have := funct3.isLt; have := rd.isLt; have := opcode.isLt
  rw [funct3Of, toNat_field, toNat_encodeI]
  omega

@[simp] theorem rdOf_encodeI (imm : BitVec 12) (rs1 : BitVec 5) (funct3 : BitVec 3) (rd : BitVec 5) (opcode : BitVec 7) :
    rdOf (encodeI imm rs1 funct3 rd opcode) = rd := by
  apply BitVec.eq_of_toNat_eq
  have := imm.isLt; have := rs1.isLt; have := funct3.isLt; have := rd.isLt; have := opcode.isLt
  rw [rdOf, toNat_field, toNat_encodeI]
  omega

@[simp] theorem opcodeOf_encodeI (imm : BitVec 12) (rs1 : BitVec 5) (funct3 : BitVec 3) (rd : BitVec 5) (opcode : BitVec 7) :
    opcodeOf (encodeI imm rs1 funct3 rd opcode) = opcode := by
  apply BitVec.eq_of_toNat_eq
  have := imm.isLt; have := rs1.isLt; have := funct3.isLt; have := rd.isLt; have := opcode.isLt
  rw [opcodeOf, toNat_field, toNat_encodeI]
  omega


/-! ### Fields of S-type words -/

@[simp] theorem rs2Of_encodeS (imm : BitVec 12) (rs2 rs1 : Reg) (funct3 : BitVec 3) (opcode : BitVec 7) :
    rs2Of (encodeS imm rs2 rs1 funct3 opcode) = rs2 := by
  apply BitVec.eq_of_toNat_eq
  rw [rs2Of, toNat_field, toNat_encodeS]
  have fields := fields_S (Nat.mod_lt (imm.toNat / 2 ^ 5) (by decide)) rs2.isLt rs1.isLt funct3.isLt
    (Nat.mod_lt imm.toNat (by decide)) opcode.isLt
  exact fields.2.1

@[simp] theorem rs1Of_encodeS (imm : BitVec 12) (rs2 rs1 : Reg) (funct3 : BitVec 3) (opcode : BitVec 7) :
    rs1Of (encodeS imm rs2 rs1 funct3 opcode) = rs1 := by
  apply BitVec.eq_of_toNat_eq
  rw [rs1Of, toNat_field, toNat_encodeS]
  have fields := fields_S (Nat.mod_lt (imm.toNat / 2 ^ 5) (by decide)) rs2.isLt rs1.isLt funct3.isLt
    (Nat.mod_lt imm.toNat (by decide)) opcode.isLt
  exact fields.2.2.1

@[simp] theorem funct3Of_encodeS (imm : BitVec 12) (rs2 rs1 : Reg) (funct3 : BitVec 3) (opcode : BitVec 7) :
    funct3Of (encodeS imm rs2 rs1 funct3 opcode) = funct3 := by
  apply BitVec.eq_of_toNat_eq
  rw [funct3Of, toNat_field, toNat_encodeS]
  have fields := fields_S (Nat.mod_lt (imm.toNat / 2 ^ 5) (by decide)) rs2.isLt rs1.isLt funct3.isLt
    (Nat.mod_lt imm.toNat (by decide)) opcode.isLt
  exact fields.2.2.2.1

@[simp] theorem opcodeOf_encodeS (imm : BitVec 12) (rs2 rs1 : Reg) (funct3 : BitVec 3) (opcode : BitVec 7) :
    opcodeOf (encodeS imm rs2 rs1 funct3 opcode) = opcode := by
  apply BitVec.eq_of_toNat_eq
  rw [opcodeOf, toNat_field, toNat_encodeS]
  have fields := fields_S (Nat.mod_lt (imm.toNat / 2 ^ 5) (by decide)) rs2.isLt rs1.isLt funct3.isLt
    (Nat.mod_lt imm.toNat (by decide)) opcode.isLt
  exact fields.2.2.2.2.2

@[simp] theorem immSOf_encodeS (imm : BitVec 12) (rs2 rs1 : Reg) (funct3 : BitVec 3) (opcode : BitVec 7) :
    immSOf (encodeS imm rs2 rs1 funct3 opcode) = imm := by
  apply BitVec.eq_of_toNat_eq
  have := imm.isLt
  rw [toNat_immSOf, toNat_encodeS]
  have fields := fields_S (Nat.mod_lt (imm.toNat / 2 ^ 5) (by decide)) rs2.isLt rs1.isLt funct3.isLt
    (Nat.mod_lt imm.toNat (by decide)) opcode.isLt
  simp only at fields
  rw [fields.1, fields.2.2.2.2.1]
  clear fields
  omega

/-! ### Fields of B-type words -/

@[simp] theorem rs2Of_encodeB (offset : BitVec 13) (rs2 rs1 : Reg) (funct3 : BitVec 3) (opcode : BitVec 7) :
    rs2Of (encodeB offset rs2 rs1 funct3 opcode) = rs2 := by
  apply BitVec.eq_of_toNat_eq
  rw [rs2Of, toNat_field, toNat_encodeB]
  have fields := fields_B (Nat.mod_lt (offset.toNat / 2 ^ 12) (by decide)) (Nat.mod_lt (offset.toNat / 2 ^ 5) (by decide)) rs2.isLt
    rs1.isLt funct3.isLt (Nat.mod_lt (offset.toNat / 2) (by decide)) (Nat.mod_lt (offset.toNat / 2 ^ 11) (by decide))
    opcode.isLt
  exact fields.2.2.1

@[simp] theorem rs1Of_encodeB (offset : BitVec 13) (rs2 rs1 : Reg) (funct3 : BitVec 3) (opcode : BitVec 7) :
    rs1Of (encodeB offset rs2 rs1 funct3 opcode) = rs1 := by
  apply BitVec.eq_of_toNat_eq
  rw [rs1Of, toNat_field, toNat_encodeB]
  have fields := fields_B (Nat.mod_lt (offset.toNat / 2 ^ 12) (by decide)) (Nat.mod_lt (offset.toNat / 2 ^ 5) (by decide)) rs2.isLt
    rs1.isLt funct3.isLt (Nat.mod_lt (offset.toNat / 2) (by decide)) (Nat.mod_lt (offset.toNat / 2 ^ 11) (by decide))
    opcode.isLt
  exact fields.2.2.2.1

@[simp] theorem funct3Of_encodeB (offset : BitVec 13) (rs2 rs1 : Reg) (funct3 : BitVec 3) (opcode : BitVec 7) :
    funct3Of (encodeB offset rs2 rs1 funct3 opcode) = funct3 := by
  apply BitVec.eq_of_toNat_eq
  rw [funct3Of, toNat_field, toNat_encodeB]
  have fields := fields_B (Nat.mod_lt (offset.toNat / 2 ^ 12) (by decide)) (Nat.mod_lt (offset.toNat / 2 ^ 5) (by decide)) rs2.isLt
    rs1.isLt funct3.isLt (Nat.mod_lt (offset.toNat / 2) (by decide)) (Nat.mod_lt (offset.toNat / 2 ^ 11) (by decide))
    opcode.isLt
  exact fields.2.2.2.2.1

@[simp] theorem opcodeOf_encodeB (offset : BitVec 13) (rs2 rs1 : Reg) (funct3 : BitVec 3) (opcode : BitVec 7) :
    opcodeOf (encodeB offset rs2 rs1 funct3 opcode) = opcode := by
  apply BitVec.eq_of_toNat_eq
  rw [opcodeOf, toNat_field, toNat_encodeB]
  have fields := fields_B (Nat.mod_lt (offset.toNat / 2 ^ 12) (by decide)) (Nat.mod_lt (offset.toNat / 2 ^ 5) (by decide)) rs2.isLt
    rs1.isLt funct3.isLt (Nat.mod_lt (offset.toNat / 2) (by decide)) (Nat.mod_lt (offset.toNat / 2 ^ 11) (by decide))
    opcode.isLt
  exact fields.2.2.2.2.2.2.2

theorem offsetBOf_encodeB (offset : BitVec 13) (rs2 rs1 : Reg) (funct3 : BitVec 3) (opcode : BitVec 7)
    (h : branchOffsetOk offset = true) : offsetBOf (encodeB offset rs2 rs1 funct3 opcode) = offset := by
  apply BitVec.eq_of_toNat_eq
  have := offset.isLt
  have := even_of_bit0 h
  rw [toNat_offsetBOf, toNat_encodeB]
  have fields := fields_B (Nat.mod_lt (offset.toNat / 2 ^ 12) (by decide)) (Nat.mod_lt (offset.toNat / 2 ^ 5) (by decide)) rs2.isLt
    rs1.isLt funct3.isLt (Nat.mod_lt (offset.toNat / 2) (by decide)) (Nat.mod_lt (offset.toNat / 2 ^ 11) (by decide))
    opcode.isLt
  simp only at fields
  rw [fields.1, fields.2.1, fields.2.2.2.2.2.1, fields.2.2.2.2.2.2.1]
  clear fields
  omega

/-! ### Fields of U-type words -/

@[simp] theorem immUOf_encodeU (imm : BitVec 20) (rd : BitVec 5) (opcode : BitVec 7) :
    immUOf (encodeU imm rd opcode) = imm := by
  apply BitVec.eq_of_toNat_eq
  have := imm.isLt; have := rd.isLt; have := opcode.isLt
  rw [immUOf, toNat_field, toNat_encodeU]
  omega

@[simp] theorem rdOf_encodeU (imm : BitVec 20) (rd : BitVec 5) (opcode : BitVec 7) :
    rdOf (encodeU imm rd opcode) = rd := by
  apply BitVec.eq_of_toNat_eq
  have := imm.isLt; have := rd.isLt; have := opcode.isLt
  rw [rdOf, toNat_field, toNat_encodeU]
  omega

@[simp] theorem opcodeOf_encodeU (imm : BitVec 20) (rd : BitVec 5) (opcode : BitVec 7) :
    opcodeOf (encodeU imm rd opcode) = opcode := by
  apply BitVec.eq_of_toNat_eq
  have := imm.isLt; have := rd.isLt; have := opcode.isLt
  rw [opcodeOf, toNat_field, toNat_encodeU]
  omega


/-! ### Fields of J-type words -/

@[simp] theorem rdOf_encodeJ (offset : BitVec 21) (rd : Reg) (opcode : BitVec 7) :
    rdOf (encodeJ offset rd opcode) = rd := by
  apply BitVec.eq_of_toNat_eq
  rw [rdOf, toNat_field, toNat_encodeJ]
  have fields := fields_J (Nat.mod_lt (offset.toNat / 2 ^ 20) (by decide)) (Nat.mod_lt (offset.toNat / 2) (by decide))
    (Nat.mod_lt (offset.toNat / 2 ^ 11) (by decide)) (Nat.mod_lt (offset.toNat / 2 ^ 12) (by decide)) rd.isLt
    opcode.isLt
  exact fields.2.2.2.2.1

@[simp] theorem opcodeOf_encodeJ (offset : BitVec 21) (rd : Reg) (opcode : BitVec 7) :
    opcodeOf (encodeJ offset rd opcode) = opcode := by
  apply BitVec.eq_of_toNat_eq
  rw [opcodeOf, toNat_field, toNat_encodeJ]
  have fields := fields_J (Nat.mod_lt (offset.toNat / 2 ^ 20) (by decide)) (Nat.mod_lt (offset.toNat / 2) (by decide))
    (Nat.mod_lt (offset.toNat / 2 ^ 11) (by decide)) (Nat.mod_lt (offset.toNat / 2 ^ 12) (by decide)) rd.isLt
    opcode.isLt
  exact fields.2.2.2.2.2

theorem offsetJOf_encodeJ (offset : BitVec 21) (rd : Reg) (opcode : BitVec 7)
    (h : jumpOffsetOk offset = true) : offsetJOf (encodeJ offset rd opcode) = offset := by
  apply BitVec.eq_of_toNat_eq
  have := offset.isLt
  have := even_of_bit0 h
  rw [toNat_offsetJOf, toNat_encodeJ]
  have fields := fields_J (Nat.mod_lt (offset.toNat / 2 ^ 20) (by decide)) (Nat.mod_lt (offset.toNat / 2) (by decide))
    (Nat.mod_lt (offset.toNat / 2 ^ 11) (by decide)) (Nat.mod_lt (offset.toNat / 2 ^ 12) (by decide)) rd.isLt
    opcode.isLt
  simp only at fields
  rw [fields.1, fields.2.1, fields.2.2.1, fields.2.2.2.1]
  clear fields
  omega

/-! ### Fields of a FENCE word -/

@[simp] theorem fmOf_encodeFence (fm : BitVec 4) (pred : BitVec 4) (succ : BitVec 4) (rs1 : BitVec 5) (rd : BitVec 5) :
    fmOf (encodeFence fm pred succ rs1 rd) = fm := by
  apply BitVec.eq_of_toNat_eq
  have := fm.isLt; have := pred.isLt; have := succ.isLt; have := rs1.isLt; have := rd.isLt
  rw [fmOf, toNat_field, toNat_encodeFence]
  omega

@[simp] theorem predOf_encodeFence (fm : BitVec 4) (pred : BitVec 4) (succ : BitVec 4) (rs1 : BitVec 5) (rd : BitVec 5) :
    predOf (encodeFence fm pred succ rs1 rd) = pred := by
  apply BitVec.eq_of_toNat_eq
  have := fm.isLt; have := pred.isLt; have := succ.isLt; have := rs1.isLt; have := rd.isLt
  rw [predOf, toNat_field, toNat_encodeFence]
  omega

@[simp] theorem succOf_encodeFence (fm : BitVec 4) (pred : BitVec 4) (succ : BitVec 4) (rs1 : BitVec 5) (rd : BitVec 5) :
    succOf (encodeFence fm pred succ rs1 rd) = succ := by
  apply BitVec.eq_of_toNat_eq
  have := fm.isLt; have := pred.isLt; have := succ.isLt; have := rs1.isLt; have := rd.isLt
  rw [succOf, toNat_field, toNat_encodeFence]
  omega

@[simp] theorem rs1Of_encodeFence (fm : BitVec 4) (pred : BitVec 4) (succ : BitVec 4) (rs1 : BitVec 5) (rd : BitVec 5) :
    rs1Of (encodeFence fm pred succ rs1 rd) = rs1 := by
  apply BitVec.eq_of_toNat_eq
  have := fm.isLt; have := pred.isLt; have := succ.isLt; have := rs1.isLt; have := rd.isLt
  rw [rs1Of, toNat_field, toNat_encodeFence]
  omega

@[simp] theorem rdOf_encodeFence (fm : BitVec 4) (pred : BitVec 4) (succ : BitVec 4) (rs1 : BitVec 5) (rd : BitVec 5) :
    rdOf (encodeFence fm pred succ rs1 rd) = rd := by
  apply BitVec.eq_of_toNat_eq
  have := fm.isLt; have := pred.isLt; have := succ.isLt; have := rs1.isLt; have := rd.isLt
  rw [rdOf, toNat_field, toNat_encodeFence]
  omega

@[simp] theorem funct3Of_encodeFence (fm : BitVec 4) (pred : BitVec 4) (succ : BitVec 4) (rs1 : BitVec 5) (rd : BitVec 5) :
    funct3Of (encodeFence fm pred succ rs1 rd) = 0b000#3 := by
  apply BitVec.eq_of_toNat_eq
  have := fm.isLt; have := pred.isLt; have := succ.isLt; have := rs1.isLt; have := rd.isLt
  rw [funct3Of, toNat_field, toNat_encodeFence]
  simp only [BitVec.toNat_ofNat]
  omega

@[simp] theorem opcodeOf_encodeFence (fm : BitVec 4) (pred : BitVec 4) (succ : BitVec 4) (rs1 : BitVec 5) (rd : BitVec 5) :
    opcodeOf (encodeFence fm pred succ rs1 rd) = 0b0001111#7 := by
  apply BitVec.eq_of_toNat_eq
  have := fm.isLt; have := pred.isLt; have := succ.isLt; have := rs1.isLt; have := rd.isLt
  rw [opcodeOf, toNat_field, toNat_encodeFence]
  simp only [BitVec.toNat_ofNat]
  omega

/-! ### Bytes of a word -/

/-- The four bytes of a word make the word. -/
theorem wordOfBytes_extract (w : Word) :
    wordOfBytes (w.extractLsb' 0 8) (w.extractLsb' 8 8) (w.extractLsb' 16 8) (w.extractLsb' 24 8) = w := by
  apply BitVec.eq_of_toNat_eq
  have := w.isLt
  refine (toNat_append_add (w.extractLsb' 24 8 ++ w.extractLsb' 16 8 ++ w.extractLsb' 8 8) (w.extractLsb' 0 8)).trans ?_
  rw [toNat_append_add, toNat_append_add, toNat_field, toNat_field, toNat_field, toNat_field]
  omega

/-- Decoding the bytes of a word is decoding the word. -/
theorem decode_wordBytes_ok {w : Word} {i : Instr} (h : decodeWord w = .ok i) (rest : List Byte) :
    decode (wordBytes w ++ rest) = .ok (i, rest) := by
  simp only [wordBytes, List.cons_append, List.nil_append, decode, wordOfBytes_extract, h]

end Sys2Proof
end

