-- ==== Sys2Proof/Laws/Memory.lean ====
section
/-! SUPPORT. Memory as a list of cells: a read after a write, and every operation keeps the canonical form (20_memory.md R40,
R42; log 5). The addresses of an access: below 2^32 and, up to four bytes, all different (20_memory.md R58). -/

namespace Sys2Proof.Machine

/-! ### The canonical form -/

/-- The form with a lower bound may be weakened. -/
theorem Memory.wfFrom_mono {low low' : Nat} (h : low' ≤ low) : ∀ {m : List Host.Cell},
    Memory.wfFrom low m = true → Memory.wfFrom low' m = true
  | [], _ => rfl
  | (k, b) :: rest, hm => by
    simp only [Memory.wfFrom, Bool.and_eq_true, decide_eq_true_eq] at hm ⊢
    exact ⟨⟨⟨by omega, hm.1.1.2⟩, hm.1.2⟩, hm.2⟩

/-- An address below the first listed one reads as an unlisted byte. -/
theorem Memory.read_below {a : Nat} : ∀ {low : Nat} {m : List Host.Cell}, Memory.wfFrom low m = true → a < low →
    Memory.read m a = unlistedByte
  | _, [], _, _ => rfl
  | low, (k, b) :: rest, hm, ha => by
    simp only [Memory.wfFrom, Bool.and_eq_true, decide_eq_true_eq] at hm
    have : k ≠ a := by omega
    simp only [Memory.read, this, if_false]
    exact Memory.read_below hm.2 (by omega)

/-- A write keeps the canonical form. -/
theorem Memory.wfFrom_write {a : Nat} (b : Byte) (ha : a < 4294967296) : ∀ {low : Nat} {m : List Host.Cell},
    low ≤ a → Memory.wfFrom low m = true → Memory.wfFrom low (Memory.write m a b) = true
  | low, [], hl, _ => by
    unfold Memory.write; split
    · rfl
    · simp_all [Memory.wfFrom]
  | low, (k, c) :: rest, hl, hm => by
    have hm' := hm
    simp only [Memory.wfFrom, Bool.and_eq_true, decide_eq_true_eq] at hm
    unfold Memory.write
    split
    · split
      · exact hm'
      · rename_i h1 h2
        simp only [Memory.wfFrom, Bool.and_eq_true, decide_eq_true_eq, bne_iff_ne]
        exact ⟨⟨⟨hl, ha⟩, h2⟩, ⟨⟨by omega, hm.1.1.2⟩, by simpa using hm.1.2⟩, hm.2⟩
    · split
      · split
        · exact Memory.wfFrom_mono (by omega) hm.2
        · rename_i h1 h2 h3
          simp only [Memory.wfFrom, Bool.and_eq_true, decide_eq_true_eq, bne_iff_ne]
          exact ⟨⟨⟨hl, ha⟩, h3⟩, h2 ▸ hm.2⟩
      · simp only [Memory.wfFrom, Bool.and_eq_true, decide_eq_true_eq]
        exact ⟨hm.1, Memory.wfFrom_write b ha (by omega) hm.2⟩

/-- A write keeps the canonical form. -/
theorem Memory.wf_write {m : List Host.Cell} {a : Nat} (b : Byte) (hm : Memory.wf m = true) (ha : a < 4294967296) :
    Memory.wf (Memory.write m a b) = true := Memory.wfFrom_write b ha (Nat.zero_le _) hm

@[simp] theorem Memory.writeAll_nil (m : List Host.Cell) : Memory.writeAll m [] = m := rfl

@[simp] theorem Memory.writeAll_cons (m : List Host.Cell) (c : Host.Cell) (cells : List Host.Cell) :
    Memory.writeAll m (c :: cells) = Memory.writeAll (Memory.write m c.1 c.2) cells := rfl

/-- Writing bytes one after another keeps the canonical form. -/
theorem Memory.wf_writeAll : ∀ {cells m : List Host.Cell}, Memory.wf m = true → (∀ c ∈ cells, c.1 < 4294967296) →
    Memory.wf (Memory.writeAll m cells) = true
  | [], _, hm, _ => hm
  | c :: cells, m, hm, hc => by
    rw [Memory.writeAll_cons]
    exact Memory.wf_writeAll (Memory.wf_write c.2 hm (hc c (by simp))) fun d hd => hc d (by simp [hd])

/-- The cells that lie in main memory. -/
theorem mem_mainCells {regions : List Region} {cells : List Host.Cell} {c : Host.Cell} :
    c ∈ mainCells regions cells ↔ c ∈ cells ∧ isMain regions c.1 = true ∧ c.1 < 4294967296 := by simp [mainCells]

/-- Writing cells of main memory keeps the canonical form. -/
theorem Memory.wf_writeAll_mainCells {m : List Host.Cell} (regions : List Region) (cells : List Host.Cell)
    (h : Memory.wf m = true) : Memory.wf (Memory.writeAll m (mainCells regions cells)) = true :=
  Memory.wf_writeAll h fun _ hc => (mem_mainCells.1 hc).2.2

/-- The memory of the reset state is canonical. -/
theorem Memory.wf_reset : Memory.wf State.reset.mem = true := rfl

/-- The memory of a launch is canonical. -/
theorem Memory.wf_boot (c : Config) (image : List Host.Cell) (regs : Vector Word 31) (pl : Plic) :
    Memory.wf (State.boot c image regs pl).mem = true :=
  Memory.wf_writeAll_mainCells _ _ rfl

/-! ### Reads after writes -/

/-- A read after a write to another address gives what it gave before. -/
theorem Memory.read_write_ne {a c : Nat} (b : Byte) (h : c ≠ a) : ∀ m : List Host.Cell,
    Memory.read (Memory.write m a b) c = Memory.read m c
  | [] => by
    unfold Memory.write; split
    · rfl
    · simp [Memory.read, Ne.symm h]
  | (k, d) :: rest => by
    unfold Memory.write
    split
    · split
      · rfl
      · simp [Memory.read, Ne.symm h]
    · split
      · rename_i h1 h2
        subst h2
        split <;> simp [Memory.read, Ne.symm h]
      · simp only [Memory.read, Memory.read_write_ne b h rest]

/-- A read after a write to the same address gives the byte written. -/
theorem Memory.read_write_self {a : Nat} (b : Byte) : ∀ {low : Nat} {m : List Host.Cell}, Memory.wfFrom low m = true →
    Memory.read (Memory.write m a b) a = b
  | _, [], _ => by
    unfold Memory.write; split
    · simp_all [Memory.read]
    · simp [Memory.read]
  | low, (k, c) :: rest, hm => by
    have hm' := hm
    simp only [Memory.wfFrom, Bool.and_eq_true, decide_eq_true_eq] at hm
    unfold Memory.write
    split
    · split
      · rename_i h1 h2
        rw [h2]
        exact Memory.read_below (low := a + 1) (m := (k, c) :: rest)
          (by simp only [Memory.wfFrom, Bool.and_eq_true, decide_eq_true_eq]; exact ⟨⟨⟨by omega, hm.1.1.2⟩, hm.1.2⟩, hm.2⟩)
          (by omega)
      · simp [Memory.read]
    · split
      · rename_i h1 h2
        subst h2
        split
        · rename_i h3
          rw [h3]
          exact Memory.read_below hm.2 (by omega)
        · simp [Memory.read]
      · rename_i h1 h2
        have : k ≠ a := Ne.symm h2
        simp only [Memory.read, this, if_false]
        exact Memory.read_write_self b hm.2

/-- Writing bytes leaves an address that none of them names alone. -/
theorem Memory.read_writeAll_of_forall_ne {a : Nat} : ∀ (cells m : List Host.Cell), (∀ c ∈ cells, c.1 ≠ a) →
    Memory.read (Memory.writeAll m cells) a = Memory.read m a
  | [], _, _ => rfl
  | c :: cells, m, h => by
    rw [Memory.writeAll_cons, Memory.read_writeAll_of_forall_ne cells _ fun d hd => h d (by simp [hd]),
      Memory.read_write_ne _ (Ne.symm (h c (by simp)))]

/-- Writing bytes to different addresses: each reads back. -/
theorem Memory.read_writeAll_of_mem {a : Nat} {b : Byte} : ∀ {cells m : List Host.Cell}, Memory.wf m = true →
    (∀ c ∈ cells, c.1 < 4294967296) → (cells.map Prod.fst).Nodup → (a, b) ∈ cells →
    Memory.read (Memory.writeAll m cells) a = b
  | [], _, _, _, _, h => by simp at h
  | c :: cells, m, hm, hc, hn, h => by
    rw [List.map_cons, List.nodup_cons] at hn
    rw [Memory.writeAll_cons]
    rcases List.mem_cons.1 h with rfl | h
    · rw [Memory.read_writeAll_of_forall_ne cells _ fun d hd e => hn.1 (List.mem_map.2 ⟨d, hd, e⟩)]
      exact Memory.read_write_self b hm
    · exact Memory.read_writeAll_of_mem (Memory.wf_write _ hm (hc c (by simp))) (fun d hd => hc d (by simp [hd])) hn.2 h

/-! ### Addresses of an access -/

theorem byteAddr_lt (a : Word) (i : Nat) : byteAddr a i < 4294967296 := (a + BitVec.ofNat 32 i).isLt

@[simp] theorem byteAddr_zero (a : Word) : byteAddr a 0 = a.toNat := by simp [byteAddr]

theorem byteAddr_eq (a : Word) (i : Nat) : byteAddr a i = (a.toNat + i) % 4294967296 := by simp [byteAddr]

theorem byteAddr_add (a : Word) (i j : Nat) : byteAddr (a + BitVec.ofNat 32 i) j = byteAddr a (i + j) := by
  simp only [byteAddr, BitVec.add_assoc, ← BitVec.ofNat_add]

theorem byteAddr_inj {a : Word} {i j : Nat} (hi : i < 4294967296) (hj : j < 4294967296)
    (h : byteAddr a i = byteAddr a j) : i = j := by
  have := a.isLt
  rw [byteAddr_eq, byteAddr_eq] at h
  omega

@[simp] theorem length_accessAddrs (a : Word) (n : Nat) : (accessAddrs a n).length = n := by simp [accessAddrs]

theorem mem_accessAddrs {a : Word} {n b : Nat} : b ∈ accessAddrs a n ↔ ∃ i, i < n ∧ b = byteAddr a i := by
  simp only [accessAddrs, List.mem_map, List.mem_range]
  exact ⟨fun ⟨i, h, e⟩ => ⟨i, h, e.symm⟩, fun ⟨i, h, e⟩ => ⟨i, h, e.symm⟩⟩

theorem nodup_accessAddrs (a : Word) {n : Nat} (hn : n ≤ 4294967296) : (accessAddrs a n).Nodup := by
  refine List.Nodup.map_on (fun i hi j hj h => ?_) List.nodup_range
  rw [List.mem_range] at hi hj
  exact byteAddr_inj (by omega) (by omega) h

end Sys2Proof.Machine
end

