-- ==== Sys2Proof/Laws/Regs.lean ====
section
/-! SUPPORT. The register file: x0 reads 0 and discards writes, a written register reads back, the others stay (10_state.md R21,
R22); what `x[r]` is after each update of the state. -/

namespace Sys2Proof.Machine

/-! ### The register file -/

@[simp] theorem readRegs_zero (regs : Vector Word 31) : readRegs regs 0#5 = 0#32 := rfl

@[simp] theorem writeRegs_zero (regs : Vector Word 31) (v : Word) : writeRegs regs 0#5 v = regs := rfl

theorem toNat_sub_one_inj {r q : Reg} (hr : r ≠ 0#5) (hq : q ≠ 0#5) (h : r.toNat - 1 = q.toNat - 1) : r = q := by
  apply BitVec.eq_of_toNat_eq
  have h1 : r.toNat ≠ 0 := fun e => hr (BitVec.eq_of_toNat_eq e)
  have h2 : q.toNat ≠ 0 := fun e => hq (BitVec.eq_of_toNat_eq e)
  omega

/-- A register that is written reads back, x0 excepted. -/
theorem readRegs_writeRegs (regs : Vector Word 31) (r q : Reg) (v : Word) :
    readRegs (writeRegs regs r v) q = if q = r then (if r = 0#5 then 0#32 else v) else readRegs regs q := by
  by_cases hr : r = 0#5
  · subst hr
    by_cases hq : q = 0#5 <;> simp [hq]
  · by_cases hqr : q = r
    · subst hqr; simp [readRegs, writeRegs, hr]
    · by_cases hq : q = 0#5
      · subst hq; simp [hqr]
      · have : r.toNat - 1 ≠ q.toNat - 1 := fun e => hqr (toNat_sub_one_inj hr hq e).symm
        simp [readRegs, writeRegs, hq, hr, hqr, Vector.getElem_set_ne, this]

/-- Reading register `k + 1` reads element `k` of the file. -/
theorem readRegs_ofNat_succ (regs : Vector Word 31) (k : Nat) (h : k < 31) :
    readRegs regs (BitVec.ofNat 5 (k + 1)) = regs[k] := by
  have hn : (BitVec.ofNat 5 (k + 1)).toNat = k + 1 := by simp; omega
  have h0 : ¬BitVec.ofNat 5 (k + 1) = 0#5 := fun e => by have := congrArg BitVec.toNat e; simp at this; omega
  unfold readRegs
  rw [dif_neg (show ¬BitVec.ofNat 5 (k + 1) = (0 : Reg) from h0)]
  simp only [hn, Nat.add_sub_cancel]

/-! ### `x[r]` after each update -/

@[simp] theorem State.x_zero (s : State) : s.x 0#5 = 0#32 := readRegs_zero _

theorem State.x_setX (s : State) (r q : Reg) (v : Word) :
    (s.setX r v).x q = if q = r then (if r = 0#5 then 0#32 else v) else s.x q := readRegs_writeRegs _ _ _ _

theorem State.x_writeAndAdvance (s : State) (r q : Reg) (v : Word) :
    (s.writeAndAdvance r v).x q = if q = r then (if r = 0#5 then 0#32 else v) else s.x q := readRegs_writeRegs _ _ _ _

@[simp] theorem State.x_goto (s : State) (t : Word) (q : Reg) : (s.goto t).x q = s.x q := rfl
@[simp] theorem State.x_advance (s : State) (q : Reg) : s.advance.x q = s.x q := rfl
@[simp] theorem State.x_record (s : State) (e : Event) (q : Reg) : (s.record e).x q = s.x q := rfl
@[simp] theorem State.x_raise (s : State) (c : Cause) (v : Word) (q : Reg) : (s.raise c v).x q = s.x q := rfl

/-- The registers of two states agree if their register files do. -/
theorem State.x_congr {s t : State} (h : t.regs = s.regs) (q : Reg) : t.x q = s.x q := by simp [State.x, h]

/-! ### Frames -/

/-- A state whose register file is `writeRegs s.regs rd v` is `s` with that one register written. -/
theorem writesReg_of_regs {s t : State} {rd : Reg} {v : Word} (h : t.regs = writeRegs s.regs rd v) :
    WritesReg s t rd v := by
  refine ⟨?_, fun r hr => ?_⟩
  · simp [State.x, h, readRegs_writeRegs]
  · simp [State.x, h, readRegs_writeRegs, hr]

theorem sameRegs_of_regs {s t : State} (h : t.regs = s.regs) : SameRegs s t := fun q => State.x_congr h q

/-- `writeAndAdvance` does what `ComputesTo` says. -/
theorem computesTo_of_exec {i : Instr} {s : State} {rd : Reg} {v : Word}
    (h : exec i s = .next (s.writeAndAdvance rd v)) : ComputesTo i s rd v :=
  ⟨_, h, writesReg_of_regs rfl, rfl, rfl, fun _ => rfl, ⟨rfl, rfl, rfl, rfl, rfl, rfl⟩, ⟨rfl, rfl, rfl⟩⟩

/-- `goto` does what `GoesTo` says. -/
theorem goesTo_of_exec {i : Instr} {s : State} {t : Word} (h : exec i s = .next (s.goto t)) : GoesTo i s t :=
  ⟨_, h, fun _ => rfl, rfl, rfl, fun _ => rfl, ⟨rfl, rfl, rfl, rfl, rfl, rfl⟩, ⟨rfl, rfl, rfl⟩⟩

end Sys2Proof.Machine
end

