-- ==== Sys2Proof/Laws/Ops.lean ====
section
/-! SUPPORT. What each shared operation can do, said once: a proof cites these instead of unfolding the operation. -/

namespace Sys2Proof.Machine

/-! ### Control transfer -/

/-- A target is aligned when it is a multiple of 4. -/
theorem targetAligned_iff (t : Word) : targetAligned t = true ↔ t.toNat % 4 = 0 := by
  rw [targetAligned, beq_iff_eq, ← BitVec.toNat_inj]
  simp

/-- A jump goes to an aligned target with the link written, or raises. -/
theorem jumpAndLink_cases (s : State) (rd : Reg) (t : Word) :
    (t.toNat % 4 = 0 ∧ s.jumpAndLink rd t = (s.setX rd (s.pc + 4)).goto t) ∨
    (t.toNat % 4 ≠ 0 ∧ s.jumpAndLink rd t = s.raise .instructionAddressMisaligned t) := by
  by_cases h : t.toNat % 4 = 0
  · exact .inl ⟨h, by rw [State.jumpAndLink, if_pos ((targetAligned_iff t).2 h)]⟩
  · exact .inr ⟨h, by rw [State.jumpAndLink, if_neg (fun e => h ((targetAligned_iff t).1 e))]⟩

/-- A branch goes to an aligned target, raises on any other target it takes, or goes on. -/
theorem branch_cases (s : State) (taken : Bool) (t : Word) :
    (taken = true ∧ t.toNat % 4 = 0 ∧ s.branch taken t = s.goto t) ∨
    (taken = true ∧ t.toNat % 4 ≠ 0 ∧ s.branch taken t = s.raise .instructionAddressMisaligned t) ∨
    (taken = false ∧ s.branch taken t = s.advance) := by
  cases taken
  · exact .inr (.inr ⟨rfl, rfl⟩)
  · by_cases h : t.toNat % 4 = 0
    · exact .inl ⟨rfl, h, by simp [State.branch, (targetAligned_iff t).2 h]⟩
    · exact .inr (.inl ⟨rfl, h, by
        have : targetAligned t = false := by rw [← Bool.not_eq_true, targetAligned_iff]; exact h
        simp [State.branch, this]⟩)

/-! ### Checks of an access -/

theorem isAligned_iff (a : Word) (n : Nat) : isAligned a n = true ↔ a.toNat % n = 0 := by simp [isAligned]

/-- A check raises nothing but the two causes of its kind, and the misaligned one only for a misaligned address. -/
theorem checkAccess_cases (s : State) (a : Word) (n : Nat) (k : Access) :
    checkAccess s a n k = none ∨ checkAccess s a n k = some (accessFaultCause k) ∨
      (checkAccess s a n k = some (misalignedCause k) ∧ a.toNat % n ≠ 0) := by
  unfold checkAccess
  split
  · split
    · exact .inl rfl
    · exact .inr (.inl rfl)
  · rename_i h
    have hn : a.toNat % n ≠ 0 := fun e => h ((isAligned_iff a n).2 e)
    split
    · exact .inr (.inr ⟨rfl, hn⟩)
    · exact .inr (.inl rfl)
    · split
      · exact .inl rfl
      · exact .inr (.inl rfl)

/-! ### MemRead and MemWrite -/

/-- MemRead raises exactly what the check of a load raises. -/
theorem memRead_error {s : State} {a : Word} {n : Nat} {c : Cause} (h : checkAccess s a n .load = some c) :
    memRead s a n = .error c := by simp [memRead, h]

/-- MemRead that passes its check. -/
theorem memRead_ok {s : State} {a : Word} {n : Nat} (h : checkAccess s a n .load = none) :
    memRead s a n = .ok ((readValue s a n).value, { s with
      plic := (readValue s a n).plic, posted := (readValue s a n).posted, ahead := (readValue s a n).ahead,
      draws := drawsAfter s a n,
      events := s.events ++ [.access (accessKinds s a n .load) a n (readValue s a n).value] }) := by
  simp [memRead, h]

/-- MemWrite raises exactly what the check of a store raises. -/
theorem memWrite_error {s : State} {a : Word} {n : Nat} {v : Word} {c : Cause}
    (h : checkAccess s a n .store = some c) : memWrite s a n v = .error c := by simp [memWrite, h]

/-- MemWrite that passes its check. -/
theorem memWrite_ok {s : State} {a : Word} {n : Nat} {v : Word} (h : checkAccess s a n .store = none) :
    memWrite s a n v = .ok { s.replaceBytes (storeCells s a n v) with
      posted := postedAfterStore s a n v, ahead := aheadAfterStore s a n v, draws := drawsAfter s a n,
      events := s.events ++ [.access (accessKinds s a n .store) a n (lowBytes n v)] } := by
  simp [memWrite, h]

/-- The value of a load that reaches no PLIC register. -/
theorem readValue_memory {s : State} {a : Word} {n : Nat} (h : plicAccess s a n = none) (hn : n ≤ 4) :
    readValue s a n = ⟨BitVec.ofNat 32 (bytesValue s.config.endian ((accessAddrs a n).map s.loadByte)), s.plic, s.posted,
      s.ahead⟩ := by
  simp [readValue, h, joinBytes_inOrder, hn]

/-- The value of a load that reaches a PLIC register. -/
theorem readValue_plic {s : State} {a : Word} {n : Nat} {p : PlicParams} {reg : PlicReg}
    (h : plicAccess s a n = some (p, reg)) : readValue s a n = s.plicLoad reg a n := by simp [readValue, h]

/-- An access that reaches a PLIC register has only bytes of devices. -/
theorem isDevice_of_plicAccess {s : State} {a : Word} {n : Nat} {p : PlicParams} {reg : PlicReg}
    (h : plicAccess s a n = some (p, reg)) : ∀ b ∈ accessAddrs a n, isDevice s.config.memMap b = true := by
  unfold plicAccess at h
  split at h
  · cases h
  · split at h
    · exact List.all_eq_true.1 ‹_›
    · cases h

/-- It is a device input or output, and draws. -/
theorem accessKinds_plic {s : State} {a : Word} {n : Nat} {p : PlicParams} {reg : PlicReg} (hn : 0 < n)
    (h : plicAccess s a n = some (p, reg)) : accessKinds s a n .load = deviceInput ∧
      accessKinds s a n .store = deviceOutput ∧ drawsAfter s a n = s.draws + 1 := by
  have hd := isDevice_of_plicAccess h
  have h1 : (accessAddrs a n).any (isDevice s.config.memMap) = true :=
    List.any_eq_true.2 ⟨byteAddr a 0, by simp only [accessAddrs, List.mem_map, List.mem_range]; exact ⟨0, hn, rfl⟩,
      hd _ (by simp only [accessAddrs, List.mem_map, List.mem_range]; exact ⟨0, hn, rfl⟩)⟩
  have h2 : ((accessAddrs a n).any fun b => !isDevice s.config.memMap b) = false :=
    List.any_eq_false.2 fun b hb => by simp [hd b hb]
  simp [accessKinds, drawsAfter, deviceInput, deviceOutput, h1, h2]

/-- The stores on their way after a store that reaches no PLIC register. -/
theorem postedAfterStore_memory {s : State} {a : Word} {n : Nat} (v : Word) (h : plicAccess s a n = none) :
    postedAfterStore s a n v = s.posted := by simp [postedAfterStore, h]

/-- What the PLIC has seen ahead, after a store that reaches no PLIC register. -/
theorem aheadAfterStore_memory {s : State} {a : Word} {n : Nat} (v : Word) (h : plicAccess s a n = none) :
    aheadAfterStore s a n v = s.ahead := by simp [aheadAfterStore, h]

/-- The stores on their way after a store to a PLIC register that the PLIC has not seen ahead. -/
theorem postedAfterStore_plic {s : State} {a : Word} {n : Nat} {p : PlicParams} {reg : PlicReg} {v : Word}
    (h : plicAccess s a n = some (p, reg)) (hs : s.seenStore a n v = false) : postedAfterStore s a n v =
      s.posted ++ [{ reg := reg, value := lowBytes n v, event := s.events.length }] := by simp [postedAfterStore, h, hs]

/-- What the PLIC has seen ahead, after such a store. -/
theorem aheadAfterStore_of_not_seen {s : State} {a : Word} {n : Nat} {v : Word} (hs : s.seenStore a n v = false) :
    aheadAfterStore s a n v = s.ahead := by simp [aheadAfterStore, hs]

/-- A store that the PLIC has seen ahead is not on its way any more, and its early sight is used up. -/
theorem afterStore_seen {s : State} {a : Word} {n : Nat} {p : PlicParams} {reg : PlicReg} {v : Word}
    (h : plicAccess s a n = some (p, reg)) (hs : s.seenStore a n v = true) :
    postedAfterStore s a n v = s.posted ∧ aheadAfterStore s a n v = s.restAhead := by
  simp [postedAfterStore, aheadAfterStore, h, hs]

/-- A load: the exception of its check, or the value in `rd` and the pc advanced. -/
theorem load_cases (s : State) (rd : Reg) (a : Word) (n : Nat) (extend : Word → Word) :
    (∃ c, checkAccess s a n .load = some c ∧ s.load rd a n extend = s.raise c a) ∨
    (checkAccess s a n .load = none ∧ s.load rd a n extend = State.writeAndAdvance { s with
      plic := (readValue s a n).plic, posted := (readValue s a n).posted, ahead := (readValue s a n).ahead,
      draws := drawsAfter s a n,
      events := s.events ++ [.access (accessKinds s a n .load) a n (readValue s a n).value] } rd
      (extend (readValue s a n).value)) := by
  cases h : checkAccess s a n .load with
  | none => exact .inr ⟨rfl, by simp only [State.load, memRead_ok h]⟩
  | some c => exact .inl ⟨c, rfl, by simp only [State.load, memRead_error h]⟩

/-- A store: the exception of its check, or the write and the pc advanced. -/
theorem store_cases (s : State) (a : Word) (n : Nat) (v : Word) :
    (∃ c, checkAccess s a n .store = some c ∧ s.store a n v = s.raise c a) ∨
    (checkAccess s a n .store = none ∧ s.store a n v = State.advance { s.replaceBytes (storeCells s a n v) with
      posted := postedAfterStore s a n v, ahead := aheadAfterStore s a n v, draws := drawsAfter s a n,
      events := s.events ++ [.access (accessKinds s a n .store) a n (lowBytes n v)] }) := by
  cases h : checkAccess s a n .store with
  | none => exact .inr ⟨rfl, by simp only [State.store, memWrite_ok h]⟩
  | some c => exact .inl ⟨c, rfl, by simp only [State.store, memWrite_error h]⟩

/-! ### The cells of a store -/

/-- A store's cells are the pairs of its addresses outside devices and the bytes it puts there. -/
theorem mem_storeCells {s : State} {a : Word} {n : Nat} {v : Word} {c : Host.Cell} : c ∈ storeCells s a n v ↔
    ∃ i, i < n ∧ c = (byteAddr a i, storedByte s.config.endian n v i) ∧ isDevice s.config.memMap (byteAddr a i) = false := by
  rw [storeCells, List.mem_filter, List.mem_iff_getElem?, Bool.not_eq_true']
  simp only [List.getElem?_zip_eq_some]
  constructor
  · rintro ⟨⟨i, h1, h2⟩, h3⟩
    have hi : i < n := by
      have := (List.getElem?_eq_some_iff.1 h1).1
      simpa using this
    rw [getElem?_inOrder_splitBytes _ _ hi] at h2
    have h1' : c.1 = byteAddr a i := by
      rw [accessAddrs, List.getElem?_map, List.getElem?_range hi] at h1
      exact (Option.some.inj h1).symm
    exact ⟨i, hi, Prod.ext h1' (Option.some.inj h2).symm, h1' ▸ h3⟩
  · rintro ⟨i, hi, rfl, h3⟩
    exact ⟨⟨i, by simp [accessAddrs, hi], getElem?_inOrder_splitBytes _ _ hi⟩, h3⟩

theorem storeCells_lt {s : State} {a : Word} {n : Nat} {v : Word} {c : Host.Cell} (h : c ∈ storeCells s a n v) :
    c.1 < 4294967296 := by
  obtain ⟨i, _, rfl, _⟩ := mem_storeCells.1 h
  exact byteAddr_lt a i

theorem nodup_storeCells (s : State) (a : Word) {n : Nat} (v : Word) (hn : n ≤ 4294967296) :
    ((storeCells s a n v).map Prod.fst).Nodup := by
  refine (List.Sublist.map Prod.fst List.filter_sublist).nodup ?_
  rw [List.map_fst_zip (by simp)]
  exact nodup_accessAddrs a hn

/-- A store keeps the canonical form of memory. -/
theorem wf_store_mem {s : State} (a : Word) (n : Nat) (v : Word) (h : Memory.wf s.mem = true) :
    Memory.wf (Memory.writeAll s.mem (storeCells s a n v)) = true :=
  Memory.wf_writeAll h fun _ hc => storeCells_lt hc

/-! ### ECALL -/

/-- A serviced ECALL halts with its record or resumes after it (60_exceptions.md R236). -/
theorem serve_cases (s : State) (reply : ServiceReply) :
    (reply.halt = true ∧ s.serve reply = s.raise .environmentCall 0) ∨
    (reply.halt = false ∧ s.serve reply = { s.replaceBytes (serviceCells s reply) with
      regs := reply.regs, pc := s.pc + 4, draws := s.draws + 1 }) := by
  cases h : reply.halt
  · exact .inr ⟨rfl, by simp [State.serve, h]⟩
  · exact .inl ⟨rfl, by simp [State.serve, h]⟩

/-- A service keeps the canonical form of memory. -/
theorem wf_service_mem {s : State} (reply : ServiceReply) (h : Memory.wf s.mem = true) :
    Memory.wf (Memory.writeAll s.mem (serviceCells s reply)) = true :=
  Memory.wf_writeAll_mainCells _ _ h

/-! ### Replaced bytes -/

/-- Noting keeps what was noted. -/
theorem mem_noteOverwritten_of_mem {mem : List Host.Cell} {c : Host.Cell} : ∀ {addrs : List Nat} {noted : List Host.Cell},
    c ∈ noted → c ∈ noteOverwritten mem noted addrs
  | [], _, h => h
  | b :: addrs, noted, h => by
    rw [noteOverwritten, List.foldl_cons]
    refine mem_noteOverwritten_of_mem (addrs := addrs) ?_
    split
    · exact h
    · exact List.mem_cons_of_mem _ h

/-- Every address given is noted with the byte memory held there. -/
theorem mem_noteOverwritten {mem : List Host.Cell} {b : Nat} : ∀ {addrs : List Nat} {noted : List Host.Cell},
    b ∈ addrs → (b, Memory.read mem b) ∈ noteOverwritten mem noted addrs
  | d :: addrs, noted, h => by
    rw [noteOverwritten, List.foldl_cons]
    rcases List.mem_cons.1 h with rfl | h
    · refine mem_noteOverwritten_of_mem (addrs := addrs) ?_
      split
      · rename_i hc
        simpa using hc
      · exact List.mem_cons_self
    · exact mem_noteOverwritten (addrs := addrs) h

end Sys2Proof.Machine
end

