-- ==== Sys2Proof/Laws/PerInstr.lean ====
section
/-! SUPPORT. One law per instruction, as syntax: its encoding belongs to the row of the opcode table that has its mnemonic
(30_encoding.md R85). -/

namespace Sys2Proof.Laws

/-! ### Words under a mask -/

/-- Equal fields have equal bits. -/
theorem bits_of_field {w v : Word} {k n : Nat} (h : w.extractLsb' k n = v.extractLsb' k n) {b : Nat} (hk : k ≤ b)
    (hb : b < k + n) : w.getLsbD b = v.getLsbD b := by
  have := congrArg (fun x => x.getLsbD (b - k)) h
  simpa [show b - k < n by omega, show k + (b - k) = b by omega] using this

/-- Two words with the same bits wherever the mask has one agree under the mask. -/
theorem and_mask_congr {w v m : Word} (h : ∀ b, b < 32 → m.getLsbD b = true → w.getLsbD b = v.getLsbD b) :
    w &&& m = v &&& m := by
  apply BitVec.eq_of_getLsbD_eq
  intro b hb
  rw [BitVec.getLsbD_and, BitVec.getLsbD_and]
  cases hm : m.getLsbD b
  · simp
  · rw [h b hb hm]

theorem masked_opcode {w : Word} (v : Word) (h : opcodeOf w = opcodeOf v) : w &&& 0x7F#32 = v &&& 0x7F#32 :=
  and_mask_congr fun b hb hm => bits_of_field h (Nat.zero_le _) (by revert hm; revert b; decide)

theorem masked_funct3 {w : Word} (v : Word) (h : opcodeOf w = opcodeOf v) (h3 : funct3Of w = funct3Of v) :
    w &&& 0x707F#32 = v &&& 0x707F#32 := by
  refine and_mask_congr fun b hb hm => ?_
  have : b < 7 ∨ 12 ≤ b ∧ b < 15 := by revert hm; revert b; decide
  rcases this with hb | hb
  · exact bits_of_field h (Nat.zero_le _) hb
  · exact bits_of_field h3 hb.1 hb.2

theorem masked_funct7 {w : Word} (v : Word) (h : opcodeOf w = opcodeOf v) (h3 : funct3Of w = funct3Of v)
    (h7 : funct7Of w = funct7Of v) : w &&& 0xFE00707F#32 = v &&& 0xFE00707F#32 := by
  refine and_mask_congr fun b hb hm => ?_
  have : b < 7 ∨ 12 ≤ b ∧ b < 15 ∨ 25 ≤ b ∧ b < 32 := by revert hm; revert b; decide
  rcases this with hb | hb | hb
  · exact bits_of_field h (Nat.zero_le _) hb
  · exact bits_of_field h3 hb.1 hb.2
  · exact bits_of_field h7 hb.1 hb.2

theorem masked_fence {w : Word} (v : Word) (h : opcodeOf w = opcodeOf v) (h3 : funct3Of w = funct3Of v)
    (hf : fmOf w = fmOf v) (hp : predOf w = predOf v) (hs : succOf w = succOf v) :
    w &&& 0xFFF0707F#32 = v &&& 0xFFF0707F#32 := by
  refine and_mask_congr fun b hb hm => ?_
  have : b < 7 ∨ 12 ≤ b ∧ b < 15 ∨ 28 ≤ b ∧ b < 32 ∨ 24 ≤ b ∧ b < 28 ∨ 20 ≤ b ∧ b < 24 := by revert hm; revert b; decide
  rcases this with hb | hb | hb | hb | hb
  · exact bits_of_field h (Nat.zero_le _) hb
  · exact bits_of_field h3 hb.1 hb.2
  · exact bits_of_field hf hb.1 hb.2
  · exact bits_of_field hp hb.1 hb.2
  · exact bits_of_field hs hb.1 hb.2

/-- A word that agrees with a row's value under the row's mask belongs to the row. -/
theorem matchesWord_of_masked {row : TableRow} {w : Word} (h : w &&& row.mask = row.value) : row.matchesWord w = true := by
  simp [TableRow.matchesWord, h]

/-! ### The law -/

/-- The instruction's word belongs to a row of the table, the one with the instruction's mnemonic. -/
def EncodeMatchesRow.Statement (i : Instr) : Prop :=
  ∃ row ∈ opcodeTable, row.mnemonic = i.mnemonic ∧ row.matchesWord (encode i) = true

theorem EncodeMatchesRow.lui (rd : Reg) (imm : BitVec 20) : EncodeMatchesRow.Statement (.lui rd imm) :=
  ⟨⟨"LUI", 0x0000007F, 0x00000037⟩, by decide, rfl, matchesWord_of_masked
    (masked_opcode 0x00000037#32 (opcodeOf_encodeU ..))⟩

theorem EncodeMatchesRow.auipc (rd : Reg) (imm : BitVec 20) : EncodeMatchesRow.Statement (.auipc rd imm) :=
  ⟨⟨"AUIPC", 0x0000007F, 0x00000017⟩, by decide, rfl, matchesWord_of_masked
    (masked_opcode 0x00000017#32 (opcodeOf_encodeU ..))⟩

theorem EncodeMatchesRow.jal (rd : Reg) (offset : BitVec 21) : EncodeMatchesRow.Statement (.jal rd offset) :=
  ⟨⟨"JAL", 0x0000007F, 0x0000006F⟩, by decide, rfl, matchesWord_of_masked
    (masked_opcode 0x0000006F#32 (opcodeOf_encodeJ ..))⟩

theorem EncodeMatchesRow.jalr (rd rs1 : Reg) (imm : BitVec 12) : EncodeMatchesRow.Statement (.jalr rd rs1 imm) :=
  ⟨⟨"JALR", 0x0000707F, 0x00000067⟩, by decide, rfl, matchesWord_of_masked
    (masked_funct3 0x00000067#32 (opcodeOf_encodeI ..) (funct3Of_encodeI ..))⟩

theorem EncodeMatchesRow.beq (rs1 rs2 : Reg) (offset : BitVec 13) : EncodeMatchesRow.Statement (.beq rs1 rs2 offset) :=
  ⟨⟨"BEQ", 0x0000707F, 0x00000063⟩, by decide, rfl, matchesWord_of_masked
    (masked_funct3 0x00000063#32 (opcodeOf_encodeB ..) (funct3Of_encodeB ..))⟩

theorem EncodeMatchesRow.bne (rs1 rs2 : Reg) (offset : BitVec 13) : EncodeMatchesRow.Statement (.bne rs1 rs2 offset) :=
  ⟨⟨"BNE", 0x0000707F, 0x00001063⟩, by decide, rfl, matchesWord_of_masked
    (masked_funct3 0x00001063#32 (opcodeOf_encodeB ..) (funct3Of_encodeB ..))⟩

theorem EncodeMatchesRow.blt (rs1 rs2 : Reg) (offset : BitVec 13) : EncodeMatchesRow.Statement (.blt rs1 rs2 offset) :=
  ⟨⟨"BLT", 0x0000707F, 0x00004063⟩, by decide, rfl, matchesWord_of_masked
    (masked_funct3 0x00004063#32 (opcodeOf_encodeB ..) (funct3Of_encodeB ..))⟩

theorem EncodeMatchesRow.bge (rs1 rs2 : Reg) (offset : BitVec 13) : EncodeMatchesRow.Statement (.bge rs1 rs2 offset) :=
  ⟨⟨"BGE", 0x0000707F, 0x00005063⟩, by decide, rfl, matchesWord_of_masked
    (masked_funct3 0x00005063#32 (opcodeOf_encodeB ..) (funct3Of_encodeB ..))⟩

theorem EncodeMatchesRow.bltu (rs1 rs2 : Reg) (offset : BitVec 13) : EncodeMatchesRow.Statement (.bltu rs1 rs2 offset) :=
  ⟨⟨"BLTU", 0x0000707F, 0x00006063⟩, by decide, rfl, matchesWord_of_masked
    (masked_funct3 0x00006063#32 (opcodeOf_encodeB ..) (funct3Of_encodeB ..))⟩

theorem EncodeMatchesRow.bgeu (rs1 rs2 : Reg) (offset : BitVec 13) : EncodeMatchesRow.Statement (.bgeu rs1 rs2 offset) :=
  ⟨⟨"BGEU", 0x0000707F, 0x00007063⟩, by decide, rfl, matchesWord_of_masked
    (masked_funct3 0x00007063#32 (opcodeOf_encodeB ..) (funct3Of_encodeB ..))⟩

theorem EncodeMatchesRow.lb (rd rs1 : Reg) (imm : BitVec 12) : EncodeMatchesRow.Statement (.lb rd rs1 imm) :=
  ⟨⟨"LB", 0x0000707F, 0x00000003⟩, by decide, rfl, matchesWord_of_masked
    (masked_funct3 0x00000003#32 (opcodeOf_encodeI ..) (funct3Of_encodeI ..))⟩

theorem EncodeMatchesRow.lh (rd rs1 : Reg) (imm : BitVec 12) : EncodeMatchesRow.Statement (.lh rd rs1 imm) :=
  ⟨⟨"LH", 0x0000707F, 0x00001003⟩, by decide, rfl, matchesWord_of_masked
    (masked_funct3 0x00001003#32 (opcodeOf_encodeI ..) (funct3Of_encodeI ..))⟩

theorem EncodeMatchesRow.lw (rd rs1 : Reg) (imm : BitVec 12) : EncodeMatchesRow.Statement (.lw rd rs1 imm) :=
  ⟨⟨"LW", 0x0000707F, 0x00002003⟩, by decide, rfl, matchesWord_of_masked
    (masked_funct3 0x00002003#32 (opcodeOf_encodeI ..) (funct3Of_encodeI ..))⟩

theorem EncodeMatchesRow.lbu (rd rs1 : Reg) (imm : BitVec 12) : EncodeMatchesRow.Statement (.lbu rd rs1 imm) :=
  ⟨⟨"LBU", 0x0000707F, 0x00004003⟩, by decide, rfl, matchesWord_of_masked
    (masked_funct3 0x00004003#32 (opcodeOf_encodeI ..) (funct3Of_encodeI ..))⟩

theorem EncodeMatchesRow.lhu (rd rs1 : Reg) (imm : BitVec 12) : EncodeMatchesRow.Statement (.lhu rd rs1 imm) :=
  ⟨⟨"LHU", 0x0000707F, 0x00005003⟩, by decide, rfl, matchesWord_of_masked
    (masked_funct3 0x00005003#32 (opcodeOf_encodeI ..) (funct3Of_encodeI ..))⟩

theorem EncodeMatchesRow.sb (rs1 rs2 : Reg) (imm : BitVec 12) : EncodeMatchesRow.Statement (.sb rs1 rs2 imm) :=
  ⟨⟨"SB", 0x0000707F, 0x00000023⟩, by decide, rfl, matchesWord_of_masked
    (masked_funct3 0x00000023#32 (opcodeOf_encodeS ..) (funct3Of_encodeS ..))⟩

theorem EncodeMatchesRow.sh (rs1 rs2 : Reg) (imm : BitVec 12) : EncodeMatchesRow.Statement (.sh rs1 rs2 imm) :=
  ⟨⟨"SH", 0x0000707F, 0x00001023⟩, by decide, rfl, matchesWord_of_masked
    (masked_funct3 0x00001023#32 (opcodeOf_encodeS ..) (funct3Of_encodeS ..))⟩

theorem EncodeMatchesRow.sw (rs1 rs2 : Reg) (imm : BitVec 12) : EncodeMatchesRow.Statement (.sw rs1 rs2 imm) :=
  ⟨⟨"SW", 0x0000707F, 0x00002023⟩, by decide, rfl, matchesWord_of_masked
    (masked_funct3 0x00002023#32 (opcodeOf_encodeS ..) (funct3Of_encodeS ..))⟩

theorem EncodeMatchesRow.addi (rd rs1 : Reg) (imm : BitVec 12) : EncodeMatchesRow.Statement (.addi rd rs1 imm) :=
  ⟨⟨"ADDI", 0x0000707F, 0x00000013⟩, by decide, rfl, matchesWord_of_masked
    (masked_funct3 0x00000013#32 (opcodeOf_encodeI ..) (funct3Of_encodeI ..))⟩

theorem EncodeMatchesRow.slti (rd rs1 : Reg) (imm : BitVec 12) : EncodeMatchesRow.Statement (.slti rd rs1 imm) :=
  ⟨⟨"SLTI", 0x0000707F, 0x00002013⟩, by decide, rfl, matchesWord_of_masked
    (masked_funct3 0x00002013#32 (opcodeOf_encodeI ..) (funct3Of_encodeI ..))⟩

theorem EncodeMatchesRow.sltiu (rd rs1 : Reg) (imm : BitVec 12) : EncodeMatchesRow.Statement (.sltiu rd rs1 imm) :=
  ⟨⟨"SLTIU", 0x0000707F, 0x00003013⟩, by decide, rfl, matchesWord_of_masked
    (masked_funct3 0x00003013#32 (opcodeOf_encodeI ..) (funct3Of_encodeI ..))⟩

theorem EncodeMatchesRow.xori (rd rs1 : Reg) (imm : BitVec 12) : EncodeMatchesRow.Statement (.xori rd rs1 imm) :=
  ⟨⟨"XORI", 0x0000707F, 0x00004013⟩, by decide, rfl, matchesWord_of_masked
    (masked_funct3 0x00004013#32 (opcodeOf_encodeI ..) (funct3Of_encodeI ..))⟩

theorem EncodeMatchesRow.ori (rd rs1 : Reg) (imm : BitVec 12) : EncodeMatchesRow.Statement (.ori rd rs1 imm) :=
  ⟨⟨"ORI", 0x0000707F, 0x00006013⟩, by decide, rfl, matchesWord_of_masked
    (masked_funct3 0x00006013#32 (opcodeOf_encodeI ..) (funct3Of_encodeI ..))⟩

theorem EncodeMatchesRow.andi (rd rs1 : Reg) (imm : BitVec 12) : EncodeMatchesRow.Statement (.andi rd rs1 imm) :=
  ⟨⟨"ANDI", 0x0000707F, 0x00007013⟩, by decide, rfl, matchesWord_of_masked
    (masked_funct3 0x00007013#32 (opcodeOf_encodeI ..) (funct3Of_encodeI ..))⟩

theorem EncodeMatchesRow.slli (rd rs1 : Reg) (shamt : BitVec 5) : EncodeMatchesRow.Statement (.slli rd rs1 shamt) :=
  ⟨⟨"SLLI", 0xFE00707F, 0x00001013⟩, by decide, rfl, matchesWord_of_masked
    (masked_funct7 0x00001013#32 (opcodeOf_encodeR ..) (funct3Of_encodeR ..) (funct7Of_encodeR ..))⟩

theorem EncodeMatchesRow.srli (rd rs1 : Reg) (shamt : BitVec 5) : EncodeMatchesRow.Statement (.srli rd rs1 shamt) :=
  ⟨⟨"SRLI", 0xFE00707F, 0x00005013⟩, by decide, rfl, matchesWord_of_masked
    (masked_funct7 0x00005013#32 (opcodeOf_encodeR ..) (funct3Of_encodeR ..) (funct7Of_encodeR ..))⟩

theorem EncodeMatchesRow.srai (rd rs1 : Reg) (shamt : BitVec 5) : EncodeMatchesRow.Statement (.srai rd rs1 shamt) :=
  ⟨⟨"SRAI", 0xFE00707F, 0x40005013⟩, by decide, rfl, matchesWord_of_masked
    (masked_funct7 0x40005013#32 (opcodeOf_encodeR ..) (funct3Of_encodeR ..) (funct7Of_encodeR ..))⟩

theorem EncodeMatchesRow.add (rd rs1 rs2 : Reg) : EncodeMatchesRow.Statement (.add rd rs1 rs2) :=
  ⟨⟨"ADD", 0xFE00707F, 0x00000033⟩, by decide, rfl, matchesWord_of_masked
    (masked_funct7 0x00000033#32 (opcodeOf_encodeR ..) (funct3Of_encodeR ..) (funct7Of_encodeR ..))⟩

theorem EncodeMatchesRow.sub (rd rs1 rs2 : Reg) : EncodeMatchesRow.Statement (.sub rd rs1 rs2) :=
  ⟨⟨"SUB", 0xFE00707F, 0x40000033⟩, by decide, rfl, matchesWord_of_masked
    (masked_funct7 0x40000033#32 (opcodeOf_encodeR ..) (funct3Of_encodeR ..) (funct7Of_encodeR ..))⟩

theorem EncodeMatchesRow.sll (rd rs1 rs2 : Reg) : EncodeMatchesRow.Statement (.sll rd rs1 rs2) :=
  ⟨⟨"SLL", 0xFE00707F, 0x00001033⟩, by decide, rfl, matchesWord_of_masked
    (masked_funct7 0x00001033#32 (opcodeOf_encodeR ..) (funct3Of_encodeR ..) (funct7Of_encodeR ..))⟩

theorem EncodeMatchesRow.slt (rd rs1 rs2 : Reg) : EncodeMatchesRow.Statement (.slt rd rs1 rs2) :=
  ⟨⟨"SLT", 0xFE00707F, 0x00002033⟩, by decide, rfl, matchesWord_of_masked
    (masked_funct7 0x00002033#32 (opcodeOf_encodeR ..) (funct3Of_encodeR ..) (funct7Of_encodeR ..))⟩

theorem EncodeMatchesRow.sltu (rd rs1 rs2 : Reg) : EncodeMatchesRow.Statement (.sltu rd rs1 rs2) :=
  ⟨⟨"SLTU", 0xFE00707F, 0x00003033⟩, by decide, rfl, matchesWord_of_masked
    (masked_funct7 0x00003033#32 (opcodeOf_encodeR ..) (funct3Of_encodeR ..) (funct7Of_encodeR ..))⟩

theorem EncodeMatchesRow.xor (rd rs1 rs2 : Reg) : EncodeMatchesRow.Statement (.xor rd rs1 rs2) :=
  ⟨⟨"XOR", 0xFE00707F, 0x00004033⟩, by decide, rfl, matchesWord_of_masked
    (masked_funct7 0x00004033#32 (opcodeOf_encodeR ..) (funct3Of_encodeR ..) (funct7Of_encodeR ..))⟩

theorem EncodeMatchesRow.srl (rd rs1 rs2 : Reg) : EncodeMatchesRow.Statement (.srl rd rs1 rs2) :=
  ⟨⟨"SRL", 0xFE00707F, 0x00005033⟩, by decide, rfl, matchesWord_of_masked
    (masked_funct7 0x00005033#32 (opcodeOf_encodeR ..) (funct3Of_encodeR ..) (funct7Of_encodeR ..))⟩

theorem EncodeMatchesRow.sra (rd rs1 rs2 : Reg) : EncodeMatchesRow.Statement (.sra rd rs1 rs2) :=
  ⟨⟨"SRA", 0xFE00707F, 0x40005033⟩, by decide, rfl, matchesWord_of_masked
    (masked_funct7 0x40005033#32 (opcodeOf_encodeR ..) (funct3Of_encodeR ..) (funct7Of_encodeR ..))⟩

theorem EncodeMatchesRow.or (rd rs1 rs2 : Reg) : EncodeMatchesRow.Statement (.or rd rs1 rs2) :=
  ⟨⟨"OR", 0xFE00707F, 0x00006033⟩, by decide, rfl, matchesWord_of_masked
    (masked_funct7 0x00006033#32 (opcodeOf_encodeR ..) (funct3Of_encodeR ..) (funct7Of_encodeR ..))⟩

theorem EncodeMatchesRow.and (rd rs1 rs2 : Reg) : EncodeMatchesRow.Statement (.and rd rs1 rs2) :=
  ⟨⟨"AND", 0xFE00707F, 0x00007033⟩, by decide, rfl, matchesWord_of_masked
    (masked_funct7 0x00007033#32 (opcodeOf_encodeR ..) (funct3Of_encodeR ..) (funct7Of_encodeR ..))⟩

theorem EncodeMatchesRow.fence (fm pred succ : BitVec 4) (rs1 rd : Reg) : EncodeMatchesRow.Statement (.fence fm pred succ rs1 rd) :=
  ⟨⟨"FENCE", 0x0000707F, 0x0000000F⟩, by decide, rfl, matchesWord_of_masked
    (masked_funct3 0x0000000F#32 (opcodeOf_encodeFence ..) (funct3Of_encodeFence ..))⟩

theorem EncodeMatchesRow.ecall : EncodeMatchesRow.Statement (.ecall) :=
  ⟨⟨"ECALL", 0xFFFFFFFF, 0x00000073⟩, by decide, rfl, by decide⟩

theorem EncodeMatchesRow.ebreak : EncodeMatchesRow.Statement (.ebreak) :=
  ⟨⟨"EBREAK", 0xFFFFFFFF, 0x00100073⟩, by decide, rfl, by decide⟩

theorem EncodeMatchesRow.fenceTso (rs1 rd : Reg) : EncodeMatchesRow.Statement (.fenceTso rs1 rd) :=
  ⟨⟨"FENCE.TSO", 0xFFF0707F, 0x8330000F⟩, by decide, rfl, matchesWord_of_masked
    (masked_fence 0x8330000F#32 (opcodeOf_encodeFence ..) (funct3Of_encodeFence ..) (fmOf_encodeFence ..) (predOf_encodeFence ..) (succOf_encodeFence ..))⟩

end Sys2Proof.Laws
end

