-- ==== Sys2Proof/Laws/Plic.lean ====
section
/-! SUPPORT. The PLIC's operations, said once: what a change of one source or target leaves alone, what a claim can answer,
what the gateway operations can do (60_exceptions.md R253 to R266). -/

namespace Sys2Proof.Machine

/-! ### One source, one target -/

@[simp] theorem Plic.targets_modifySource (pl : Plic) (s : Nat) (f : PlicSource → PlicSource) :
    (pl.modifySource s f).targets = pl.targets := by cases s <;> rfl
@[simp] theorem Plic.writes_modifySource (pl : Plic) (s : Nat) (f : PlicSource → PlicSource) :
    (pl.modifySource s f).writes = pl.writes := by cases s <;> rfl
@[simp] theorem Plic.claims_modifySource (pl : Plic) (s : Nat) (f : PlicSource → PlicSource) :
    (pl.modifySource s f).claims = pl.claims := by cases s <;> rfl
@[simp] theorem Plic.completions_modifySource (pl : Plic) (s : Nat) (f : PlicSource → PlicSource) :
    (pl.modifySource s f).completions = pl.completions := by cases s <;> rfl
@[simp] theorem Plic.length_sources_modifySource (pl : Plic) (s : Nat) (f : PlicSource → PlicSource) :
    (pl.modifySource s f).sources.length = pl.sources.length := by cases s <;> simp [Plic.modifySource]

/-- The sources after a change of source `s`. -/
theorem Plic.getElem?_modifySource (pl : Plic) (s k : Nat) (f : PlicSource → PlicSource) :
    (pl.modifySource s f).sources[k]? = if s = k + 1 then (pl.sources[k]?).map f else pl.sources[k]? := by
  cases s with
  | zero => simp [Plic.modifySource]
  | succ n => simp only [Plic.modifySource, List.getElem?_modify, Nat.add_right_cancel_iff]; split <;> simp

@[simp] theorem Plic.sources_modifyTarget (pl : Plic) (t : Nat) (f : PlicTarget → PlicTarget) :
    (pl.modifyTarget t f).sources = pl.sources := rfl
@[simp] theorem Plic.writes_modifyTarget (pl : Plic) (t : Nat) (f : PlicTarget → PlicTarget) :
    (pl.modifyTarget t f).writes = pl.writes := rfl
@[simp] theorem Plic.claims_modifyTarget (pl : Plic) (t : Nat) (f : PlicTarget → PlicTarget) :
    (pl.modifyTarget t f).claims = pl.claims := rfl
@[simp] theorem Plic.completions_modifyTarget (pl : Plic) (t : Nat) (f : PlicTarget → PlicTarget) :
    (pl.modifyTarget t f).completions = pl.completions := rfl
@[simp] theorem Plic.length_targets_modifyTarget (pl : Plic) (t : Nat) (f : PlicTarget → PlicTarget) :
    (pl.modifyTarget t f).targets.length = pl.targets.length := by simp [Plic.modifyTarget]

/-- The targets after a change of target `t`. -/
theorem Plic.getElem?_modifyTarget (pl : Plic) (t k : Nat) (f : PlicTarget → PlicTarget) :
    (pl.modifyTarget t f).targets[k]? = if t = k then (pl.targets[k]?).map f else pl.targets[k]? := by
  simp only [Plic.modifyTarget, List.getElem?_modify]; split <;> simp

/-! ### Claims -/

theorem Plic.mem_ids {pl : Plic} {s : Nat} : s ∈ pl.ids ↔ 1 ≤ s ∧ s ≤ pl.sources.length := by
  simp only [Plic.ids, List.mem_map, List.mem_range]
  constructor
  · rintro ⟨k, h, rfl⟩; omega
  · rintro ⟨h1, h2⟩; exact ⟨s - 1, by omega, by omega⟩

theorem Plic.mem_candidates {pl : Plic} {t s : Nat} : s ∈ pl.candidates t ↔
    s ∈ pl.ids ∧ pl.active t s = true ∧ pl.prioOf s ≠ 0 := by simp [Plic.candidates]

/-- The best of a list is in it. -/
theorem Plic.mem_of_best {pl : Plic} {s : Nat} : ∀ {l : List Nat}, pl.best l = some s → s ∈ l
  | [], h => by simp [Plic.best] at h
  | q :: rest, h => by
    unfold Plic.best at h
    split at h
    · cases h; exact List.mem_cons_self
    · rename_i r hr
      split at h
      · cases h; exact List.mem_cons_self
      · cases h; exact List.mem_cons_of_mem _ (Plic.mem_of_best hr)

/-- Only an empty list has no best source. -/
theorem Plic.best_eq_none {pl : Plic} : ∀ {l : List Nat}, pl.best l = none ↔ l = []
  | [] => by simp [Plic.best]
  | q :: rest => by
    unfold Plic.best
    split
    · simp
    · split <;> simp

/-- A claim answers 0 and changes nothing, or answers a candidate whose IP bit it clears (60_exceptions.md R265). -/
theorem Plic.claim_cases (pl : Plic) (t : Nat) :
    (pl.candidates t = [] ∧ pl.claim t = (0, pl)) ∨
    (∃ s, s ∈ pl.candidates t ∧ pl.best (pl.candidates t) = some s ∧
      pl.claim t = (s, pl.modifySource s fun ss => { ss with ip := false, claimedBy := some t })) := by
  unfold Plic.claim
  split
  · exact .inl ⟨Plic.best_eq_none.1 ‹_›, rfl⟩
  · exact .inr ⟨_, Plic.mem_of_best ‹_›, ‹_›, rfl⟩

/-! ### Gateways -/

@[simp] theorem PlicSource.ip_forward (ss : PlicSource) : ss.forward.ip = ss.ip := rfl
@[simp] theorem PlicSource.prio_forward (ss : PlicSource) : ss.forward.prio = ss.prio := rfl
@[simp] theorem PlicSource.busy_forward (ss : PlicSource) : ss.forward.busy = true := rfl
@[simp] theorem PlicSource.cnt_forward (ss : PlicSource) : ss.forward.cnt = ss.cnt := rfl
@[simp] theorem PlicSource.level_forward (ss : PlicSource) : ss.forward.level = ss.level := rfl
@[simp] theorem PlicSource.requests_forward (ss : PlicSource) : ss.forward.requests = ss.requests + 1 := rfl
@[simp] theorem PlicSource.claimedBy_forward (ss : PlicSource) : ss.forward.claimedBy = ss.claimedBy := rfl

/-- A gateway settles by forwarding, when it is idle with something to forward, or not at all. -/
theorem PlicSource.settle_cases (ss : PlicSource) (g : Gateway) :
    (ss.wants g = true ∧ ss.busy = false ∧ ss.settle g = ss.forward) ∨
    ((ss.wants g = false ∨ ss.busy = true) ∧ ss.settle g = ss) := by
  unfold PlicSource.settle
  cases hw : ss.wants g <;> cases hb : ss.busy <;> simp

/-- WARL: what a register holds is legal already. -/
theorem WarlMask.legalise_legalise (m : WarlMask) (v : Word) :
    WarlMask.legalise m (WarlMask.legalise m v) = WarlMask.legalise m v := by
  unfold WarlMask.legalise
  apply BitVec.eq_of_getLsbD_eq
  intro b hb
  simp only [BitVec.getLsbD_or, BitVec.getLsbD_and, BitVec.getLsbD_not]
  cases m.ones.getLsbD b <;> cases m.zeros.getLsbD b <;> cases v.getLsbD b <;> simp

/-- What a threshold holds after a write is legal, if any value is; and a legal value is held as written (60_exceptions.md R256). -/
theorem inRanges_legalThreshold {ranges : List ValueRange} {w : Word} (h : inRanges ranges w = true) (draw target : Nat)
    (v : Word) : inRanges ranges (legalThreshold ranges draw target v) = true := by
  unfold legalThreshold
  simp only
  split
  · assumption
  · split
    · assumption
    · simp only [inRanges, List.any_eq_true, Bool.and_eq_true, decide_eq_true_eq] at h ⊢
      obtain ⟨r, hr, h1, h2⟩ := h
      cases hf : ranges.find? fun r => decide (r.low.toNat ≤ r.high.toNat) with
      | none => exact absurd (List.find?_eq_none.1 hf r hr) (by simp; omega)
      | some q =>
        have := List.find?_some hf
        exact ⟨q, List.mem_of_find?_eq_some hf, Nat.le_refl _, by simpa using this⟩

theorem legalThreshold_of_inRanges {ranges : List ValueRange} {v : Word} (h : inRanges ranges v = true) (draw target : Nat) :
    legalThreshold ranges draw target v = v := by simp [legalThreshold, h]

theorem legalEnable_legalEnable (tp : TargetParams) (s : Nat) (b : Bool) :
    legalEnable tp s (legalEnable tp s b) = legalEnable tp s b := by
  unfold legalEnable
  cases tp.ieOnes.contains s <;> cases tp.ieZeros.contains s <;> cases b <;> rfl

end Sys2Proof.Machine
end

