-- ==== Sys2Proof/Laws/Step.lean ====
section
/-! SUPPORT. What a fetch, a hart's turn and a step can do, said once. -/

namespace Sys2Proof.Machine

/-- A fetch of bytes no store has written. -/
theorem fetch_clean {s : State} (hm : mapAllows s.config.memMap s.pc 4 .fetch = true) (hs : fetchesStored s = false) :
    fetch s = .word (fetchedWord s.pc (Memory.read s.mem)) s := by simp [fetch, hm, hs]

/-- A fetch changes at most the draw counter. -/
theorem fetch_word {s t : State} {w : Word} (h : fetch s = .word w t) : ∃ d, t = { s with draws := d } := by
  unfold fetch at h
  split at h
  · split at h
    · split at h
      · cases h; exact ⟨_, rfl⟩
      · cases h
    · cases h; exact ⟨_, rfl⟩
  · cases h

/-- What the hart's turn runs: the decoded instruction in the state before, but for the draw counter; the hart was running. -/
theorem ready_run {s t : State} {i : Instr} (h : ready s = .run i t) :
    s.trap = none ∧ ∃ d, t = { s with draws := d } := by
  unfold ready at h
  split at h
  · cases h
  · rename_i ht
    refine ⟨ht, ?_⟩
    repeat (split at h <;> first | cases h | skip)
    exact fetch_word ‹_›

/-- A turn that raises before any instruction runs adds a record at pc; at most the draw counter changes besides. -/
theorem ready_trapped {s t : State} (h : ready s = .trapped t) : s.trap = none ∧
    ∃ d c v, t = { s with draws := d, trap := some ⟨c, s.pc, v⟩ } ∧ (c = .instructionAccessFault ∨ c = .illegalInstruction) := by
  unfold ready at h
  split at h
  · cases h
  · rename_i ht
    refine ⟨ht, ?_⟩
    split at h
    · cases h
    · split at h
      · cases h
      · split at h
        · cases h
          exact ⟨s.draws, .instructionAccessFault, s.pc, rfl, .inl rfl⟩
        · cases h
        · rename_i w u hf
          obtain ⟨d, rfl⟩ := fetch_word hf
          split at h
          · cases h
          · cases h
            refine ⟨d, .illegalInstruction, w, ?_, .inr rfl⟩
            unfold reservedWord
            split; rfl

/-- The hart's turn that answers a next state ran an instruction or raised before one. -/
theorem hartTurn_cases {s t : State} (h : hartTurn s = .next t) :
    (∃ i u, ready s = .run i u ∧ exec i u = .next t) ∨ ready s = .trapped t := by
  unfold hartTurn at h
  split at h
  · exact .inl ⟨_, _, ‹_›, h⟩
  · cases h; exact .inr ‹_›
  · cases h
  · cases h

/-- A step is one turn: the hart's, with the agenda empty or the hart first on it, or another agent's. -/
theorem step_cases {s t : State} (h : step s = .next t) :
    (s.agenda = [] ∧ hartTurn s = .next t) ∨
    (∃ rest, s.agenda = .hart :: rest ∧ hartTurn { s with agenda := rest } = .next t) ∨
    (∃ a rest, s.agenda = .act a :: rest ∧ agentTurn a { s with agenda := rest } = .next t) := by
  unfold step at h
  split at h
  · exact .inl ⟨‹_›, h⟩
  · exact .inr (.inl ⟨_, ‹_›, h⟩)
  · exact .inr (.inr ⟨_, _, ‹_›, h⟩)

/-- An agent's turn moves a local pending bit, performs a store in main memory, moves an access of the hart on its way to the PLIC, or
is an action of the PLIC. -/
theorem agentTurn_cases {a : AgentAction} {s t : State} (h : agentTurn a s = .next t) :
    (∃ src asserted, a = .localLevel src asserted ∧ t = { s with localPending := setPending s.localPending src asserted }) ∨
    (∃ cells, a = .memoryWrite cells ∧ t = s.externalWrite cells) ∨
    (∃ k, a = .deliverStore k ∧ t = s.deliverStore k) ∨
    (∃ event b n, a = .answerAhead event b n ∧ t = s.answerAhead event b n) ∨
    (∃ event b n v, a = .storeAhead event b n v ∧ t = s.storeAhead event b n v) ∨
    (s.config.plic = none ∧ t = s) ∨
    (∃ p q, s.config.plic = some p ∧ plicAct p s.draws s.plic a = .ok q ∧
      t = { s with plic := q, draws := s.draws + drawsOf a }) := by
  unfold agentTurn at h
  split at h
  · cases h; exact .inl ⟨_, _, rfl, rfl⟩
  · cases h; exact .inr (.inl ⟨_, rfl, rfl⟩)
  · cases h; exact .inr (.inr (.inl ⟨_, rfl, rfl⟩))
  · cases h; exact .inr (.inr (.inr (.inl ⟨_, _, _, rfl, rfl⟩)))
  · cases h; exact .inr (.inr (.inr (.inr (.inl ⟨_, _, _, _, rfl, rfl⟩))))
  · split at h
    · cases h; exact .inr (.inr (.inr (.inr (.inr (.inl ⟨‹_›, rfl⟩)))))
    · split at h
      · cases h; exact .inr (.inr (.inr (.inr (.inr (.inr ⟨_, _, ‹_›, ‹_›, rfl⟩)))))
      · cases h

end Sys2Proof.Machine
end

