-- ==== Sys2Proof/Tests/Slice0.lean ====
section
/-! SUPPORT. The model's own tests: ill-formed terms refused, every constructor's word, one step per instruction with the values of
spec/95_test_vectors.md, the PLIC's worked examples, and a witness for every statement that has hypotheses. -/

namespace Sys2Proof.Tests

open Sys2Proof Sys2Proof.Machine

/-! ### Helpers -/

/-- A state at `pc` with some registers and bytes set, otherwise as after reset with configuration `c`. -/
def small (c : Config) (pc : Word) (regs : List (Reg × Word)) (mem : List Host.Cell) : State :=
  regs.foldl (fun s p => s.setX p.1 p.2) { State.reset with config := c, pc := pc, mem := Memory.writeAll [] mem }

/-- What one step on the word `w` from a small state leaves, seen through `f`. -/
def ran {α : Type} (w : Nat) (s : State) (f : State → α) : Option α :=
  match step (s.withFetchWord 32 w) with
  | .next t => some (f t)
  | _ => none

/-- A small state of the default configuration. -/
def at_ (pc : Word) (regs : List (Reg × Word)) (mem : List Host.Cell := []) : State := small Config.default pc regs mem

/-- Registers `r`, the pc and the trap record after a step. -/
def seen (r : Reg) (t : State) : Word × Word × Option TrapRecord := (t.x r, t.pc, t.trap)

/-- Bytes `a` to `a + 3` of memory. -/
def bytesAt (a : Nat) (t : State) : List Byte := (List.range 4).map fun i => Memory.read t.mem (a + i)

/-! ### WellFormed refuses -/

theorem test_odd_branch_offset_refused : (Instr.beq 1 2 5).wellFormed = false := by decide
theorem test_odd_bne_offset_refused : (Instr.bne 1 2 0x1FFF).wellFormed = false := by decide
theorem test_odd_jal_offset_refused : (Instr.jal 1 0x100001).wellFormed = false := by decide
theorem test_fence_written_as_tso_refused : (Instr.fence 0b1000 0b0011 0b0011 0 0).wellFormed = false := by decide

/-! ### Decoding: the spec's words -/

theorem test_decode_lui : decodeWord 0x123452B7#32 = .ok (.lui 5 0x12345) := by decide
theorem test_decode_auipc : decodeWord 0xFFFFF297#32 = .ok (.auipc 5 0xFFFFF) := by decide
theorem test_decode_jal : decodeWord 0xE01FF0EF#32 = .ok (.jal 1 0x1FFE00) := by decide
theorem test_decode_jalr : decodeWord 0x004080E7#32 = .ok (.jalr 1 1 4) := by decide
theorem test_decode_beq : decodeWord 0x80730063#32 = .ok (.beq 6 7 0x1000) := by decide
theorem test_decode_bne : decodeWord 0xFE731CE3#32 = .ok (.bne 6 7 0x1FF8) := by decide
theorem test_decode_blt : decodeWord 0x00734863#32 = .ok (.blt 6 7 16) := by decide
theorem test_decode_bge : decodeWord 0x00735863#32 = .ok (.bge 6 7 16) := by decide
theorem test_decode_bltu : decodeWord 0x00736863#32 = .ok (.bltu 6 7 16) := by decide
theorem test_decode_bgeu : decodeWord 0x00737863#32 = .ok (.bgeu 6 7 16) := by decide
theorem test_decode_lb : decodeWord 0xFFC30283#32 = .ok (.lb 5 6 0xFFC) := by decide
theorem test_decode_lh : decodeWord 0xFFE31283#32 = .ok (.lh 5 6 0xFFE) := by decide
theorem test_decode_lw : decodeWord 0xFFC32283#32 = .ok (.lw 5 6 0xFFC) := by decide
theorem test_decode_lbu : decodeWord 0x00334283#32 = .ok (.lbu 5 6 3) := by decide
theorem test_decode_lhu : decodeWord 0xFFE35283#32 = .ok (.lhu 5 6 0xFFE) := by decide
theorem test_decode_sb : decodeWord 0x007301A3#32 = .ok (.sb 6 7 3) := by decide
theorem test_decode_sh : decodeWord 0xFE731E23#32 = .ok (.sh 6 7 0xFFC) := by decide
theorem test_decode_sw : decodeWord 0xFE732E23#32 = .ok (.sw 6 7 0xFFC) := by decide
theorem test_decode_addi : decodeWord 0x80030293#32 = .ok (.addi 5 6 0x800) := by decide
theorem test_decode_slti : decodeWord 0xFFF32293#32 = .ok (.slti 5 6 0xFFF) := by decide
theorem test_decode_sltiu : decodeWord 0xFFF33293#32 = .ok (.sltiu 5 6 0xFFF) := by decide
theorem test_decode_xori : decodeWord 0x55534293#32 = .ok (.xori 5 6 0x555) := by decide
theorem test_decode_ori : decodeWord 0x0F036293#32 = .ok (.ori 5 6 0x0F0) := by decide
theorem test_decode_andi : decodeWord 0x80037293#32 = .ok (.andi 5 6 0x800) := by decide
theorem test_decode_slli : decodeWord 0x01F31293#32 = .ok (.slli 5 6 31) := by decide
theorem test_decode_srli : decodeWord 0x01F35293#32 = .ok (.srli 5 6 31) := by decide
theorem test_decode_srai : decodeWord 0x40435293#32 = .ok (.srai 5 6 4) := by decide
theorem test_decode_add : decodeWord 0x007302B3#32 = .ok (.add 5 6 7) := by decide
theorem test_decode_sub : decodeWord 0x407302B3#32 = .ok (.sub 5 6 7) := by decide
theorem test_decode_sll : decodeWord 0x007312B3#32 = .ok (.sll 5 6 7) := by decide
theorem test_decode_slt : decodeWord 0x007322B3#32 = .ok (.slt 5 6 7) := by decide
theorem test_decode_sltu : decodeWord 0x007332B3#32 = .ok (.sltu 5 6 7) := by decide
theorem test_decode_xor : decodeWord 0x007342B3#32 = .ok (.xor 5 6 7) := by decide
theorem test_decode_srl : decodeWord 0x007352B3#32 = .ok (.srl 5 6 7) := by decide
theorem test_decode_sra : decodeWord 0x407352B3#32 = .ok (.sra 5 6 7) := by decide
theorem test_decode_or : decodeWord 0x007362B3#32 = .ok (.or 5 6 7) := by decide
theorem test_decode_and : decodeWord 0x007372B3#32 = .ok (.and 5 6 7) := by decide
theorem test_decode_fence : decodeWord 0x0333028F#32 = .ok (.fence 0 3 3 6 5) := by decide
theorem test_decode_ecall : decodeWord 0x00000073#32 = .ok (.ecall) := by decide
theorem test_decode_ebreak : decodeWord 0x00100073#32 = .ok (.ebreak) := by decide
theorem test_decode_fenceTso : decodeWord 0x8330000F#32 = .ok (.fenceTso 0 0) := by decide

/-- Reserved words (V13): all zeros, all ones, FENCE.I, a shift by 32, a CSR instruction, ECALL with `rd = 1`. -/
theorem test_reserved_words :
    decodeWord 0#32 = .error .notThirtyTwoBit ∧ decodeWord 0xFFFFFFFF#32 = .error .majorOpcode ∧
    decodeWord 0x0000100F#32 = .error .miscMemFunct3 ∧ decodeWord 0x02001013#32 = .error .shiftImmFunct7 ∧
    decodeWord 0xC0002073#32 = .error .systemWord ∧ decodeWord 0x000000F3#32 = .error .systemWord := by decide

/-! ### One step per instruction (spec/95_test_vectors.md V1 to V12) -/

theorem test_lui : ran 0x123452B7 (at_ 0x100 []) (seen 5) = some (0x12345000, 0x104, none) := by decide
theorem test_auipc : ran 0xFFFFF297 (at_ 0xFFC []) (seen 5) = some (0xFFFFFFFC, 0x1000, none) := by decide
theorem test_jal : ran 0xE01FF0EF (at_ 0x100 []) (seen 1) = some (0x104, 0xFFFFFF00, none) := by decide
theorem test_jalr : ran 0x004080E7 (at_ 0x100 [(1, 0x3000)]) (seen 1) = some (0x104, 0x3004, none) := by decide
theorem test_beq : ran 0x80730063 (at_ 0x2000 [(6, 1), (7, 1)]) (seen 6) = some (1, 0x1000, none) := by decide
theorem test_bne : ran 0xFE731CE3 (at_ 0x100 [(6, 1)]) (seen 6) = some (1, 0xF8, none) := by decide
theorem test_blt : ran 0x00734863 (at_ 0x100 [(6, 0x80000000), (7, 0x7FFFFFFF)]) (seen 7) = some (0x7FFFFFFF, 0x110, none) := by decide
theorem test_bge : ran 0x00735863 (at_ 0x100 [(6, 0x80000000), (7, 0x7FFFFFFF)]) (seen 7) = some (0x7FFFFFFF, 0x104, none) := by decide
theorem test_bltu : ran 0x00736863 (at_ 0x100 [(6, 0xFFFFFFFF), (7, 0)]) (seen 6) = some (0xFFFFFFFF, 0x104, none) := by decide
theorem test_bgeu : ran 0x00737863 (at_ 0x100 [(6, 0xFFFFFFFF), (7, 0)]) (seen 6) = some (0xFFFFFFFF, 0x110, none) := by decide
theorem test_addi : ran 0x80030293 (at_ 0x100 [(6, 0x800)]) (seen 5) = some (0, 0x104, none) := by decide
theorem test_slti : ran 0xFFF32293 (at_ 0x100 [(6, 0xFFFFFFFE)]) (seen 5) = some (1, 0x104, none) := by decide
theorem test_sltiu : ran 0xFFF33293 (at_ 0x100 [(6, 0xFFFFFFFF)]) (seen 5) = some (0, 0x104, none) := by decide
theorem test_xori : ran 0x55534293 (at_ 0x100 [(6, 0xAAA)]) (seen 5) = some (0xFFF, 0x104, none) := by decide
theorem test_ori : ran 0x0F036293 (at_ 0x100 [(6, 0xF00F)]) (seen 5) = some (0xF0FF, 0x104, none) := by decide
theorem test_andi : ran 0x80037293 (at_ 0x100 [(6, 0xFFFFFFFF)]) (seen 5) = some (0xFFFFF800, 0x104, none) := by decide
theorem test_slli : ran 0x01F31293 (at_ 0x100 [(6, 1)]) (seen 5) = some (0x80000000, 0x104, none) := by decide
theorem test_srli : ran 0x01F35293 (at_ 0x100 [(6, 0x80000000)]) (seen 5) = some (1, 0x104, none) := by decide
theorem test_srai : ran 0x40435293 (at_ 0x100 [(6, 0xF0000000)]) (seen 5) = some (0xFF000000, 0x104, none) := by decide
theorem test_add : ran 0x007302B3 (at_ 0x100 [(6, 0xFFFFFFFF), (7, 1)]) (seen 5) = some (0, 0x104, none) := by decide
theorem test_sub : ran 0x407302B3 (at_ 0x100 [(6, 0), (7, 1)]) (seen 5) = some (0xFFFFFFFF, 0x104, none) := by decide
theorem test_sll : ran 0x007312B3 (at_ 0x100 [(6, 1), (7, 0xFFFFFFFF)]) (seen 5) = some (0x80000000, 0x104, none) := by decide
theorem test_slt : ran 0x007322B3 (at_ 0x100 [(6, 0x80000000), (7, 0x7FFFFFFF)]) (seen 5) = some (1, 0x104, none) := by decide
theorem test_sltu : ran 0x007332B3 (at_ 0x100 [(6, 0x80000000), (7, 0x7FFFFFFF)]) (seen 5) = some (0, 0x104, none) := by decide
theorem test_xor : ran 0x007342B3 (at_ 0x100 [(6, 0xFF00FF00), (7, 0x0FF00FF0)]) (seen 5) = some (0xF0F0F0F0, 0x104, none) := by decide
theorem test_srl : ran 0x007352B3 (at_ 0x100 [(6, 0x80000000), (7, 0x21)]) (seen 5) = some (0x40000000, 0x104, none) := by decide
theorem test_sra : ran 0x407352B3 (at_ 0x100 [(6, 0x80000000), (7, 0x1F)]) (seen 5) = some (0xFFFFFFFF, 0x104, none) := by decide
theorem test_or : ran 0x007362B3 (at_ 0x100 [(6, 0xFF00FF00), (7, 0x0FF00FF0)]) (seen 5) = some (0xFFF0FFF0, 0x104, none) := by decide
theorem test_and : ran 0x007372B3 (at_ 0x100 [(6, 0xFF00FF00), (7, 0x0FF00FF0)]) (seen 5) = some (0x0F000F00, 0x104, none) := by decide

/-- The bytes of V7, at 0x1000 to 0x1007. -/
def loadBytes : List Host.Cell :=
  [(0x1000, 0x80), (0x1001, 0x7F), (0x1002, 0xFE), (0x1003, 0xCA), (0x1004, 1), (0x1005, 2), (0x1006, 3), (0x1007, 0x84)]

theorem test_lb : ran 0xFFC30283 (at_ 0x100 [(6, 0x1004)] loadBytes) (seen 5) = some (0xFFFFFF80, 0x104, none) := by decide
theorem test_lh : ran 0xFFE31283 (at_ 0x100 [(6, 0x1004)] loadBytes) (seen 5) = some (0xFFFFCAFE, 0x104, none) := by decide
theorem test_lw : ran 0xFFC32283 (at_ 0x100 [(6, 0x1004)] loadBytes) (seen 5) = some (0xCAFE7F80, 0x104, none) := by decide
theorem test_lbu : ran 0x00334283 (at_ 0x100 [(6, 0x1004)] loadBytes) (seen 5) = some (0x84, 0x104, none) := by decide
theorem test_lhu : ran 0xFFE35283 (at_ 0x100 [(6, 0x1004)] loadBytes) (seen 5) = some (0xCAFE, 0x104, none) := by decide
theorem test_sb : ran 0x007301A3 (at_ 0x100 [(6, 0x1004), (7, 0xA1B2C3D4)]) (bytesAt 0x1004) = some [0, 0, 0, 0xD4] := by decide
theorem test_sh : ran 0xFE731E23 (at_ 0x100 [(6, 0x1004), (7, 0xA1B2C3D4)]) (bytesAt 0x1000) = some [0xD4, 0xC3, 0, 0] := by decide
theorem test_sw : ran 0xFE732E23 (at_ 0x100 [(6, 0x1004), (7, 0xA1B2C3D4)]) (bytesAt 0x1000) = some [0xD4, 0xC3, 0xB2, 0xA1] := by decide
theorem test_fence : ran 0x0120000F (at_ 0x100 []) (fun t => (t.pc, t.events)) = some (0x104, [.fence 0 1 2]) := by decide
theorem test_fenceTso : ran 0x8330000F (at_ 0x100 []) (fun t => (t.pc, t.events)) = some (0x104, [.fence 8 3 3]) := by decide
theorem test_ecall : ran 0x00000073 (at_ 0xFFFFFFFC [(10, 7)]) (seen 10) =
    some (7, 0xFFFFFFFC, some ⟨.environmentCall, 0xFFFFFFFC, 0⟩) := by decide
theorem test_ebreak : ran 0x00100073 (at_ 0x204 [(10, 7)]) (seen 10) =
    some (7, 0x204, some ⟨.breakpoint, 0x204, 0x204⟩) := by decide

/-! ### Exceptions and byte order (V5 to V10) -/

theorem test_jal_misaligned : ran 0x002000EF (at_ 0x100 [(1, 0x11111111)]) (seen 1) =
    some (0x11111111, 0x100, some ⟨.instructionAddressMisaligned, 0x100, 0x102⟩) := by decide
theorem test_jalr_misaligned : ran 0xFFC302E7 (at_ 0x100 [(6, 2), (5, 9)]) (seen 5) =
    some (9, 0x100, some ⟨.instructionAddressMisaligned, 0x100, 0xFFFFFFFE⟩) := by decide
theorem test_bne_misaligned_not_taken : ran 0x00731163 (at_ 0x100 [(6, 1), (7, 1)]) (seen 6) = some (1, 0x104, none) := by decide
theorem test_lw_x0_misaligned : ran 0x00132003 (at_ 0x100 [(6, 0x1000)]) (seen 0) =
    some (0, 0x100, some ⟨.loadAddressMisaligned, 0x100, 0x1001⟩) := by decide
theorem test_sw_misaligned : ran 0x00732123 (at_ 0x100 [(6, 0x1004), (7, 1)]) (seen 7) =
    some (1, 0x100, some ⟨.storeAddressMisaligned, 0x100, 0x1006⟩) := by decide
theorem test_illegal_zero_word : ran 0 (at_ 0x100 []) (seen 0) = some (0, 0x100, some ⟨.illegalInstruction, 0x100, 0⟩) := by decide

/-- The sample map of V10: code, data, and a device of four bytes. -/
def sampleMap : List Region :=
  [⟨0, 0x1000, .main, true, true, false, true, true, true⟩, ⟨0x1000, 0x1000, .main, false, true, true, true, true, true⟩,
   ⟨0x10000000, 4, .io, false, true, true, false, false, true⟩]

/-- The configuration of V10. -/
def sampleConfig : Config := { Config.default with memMap := sampleMap }

theorem test_big_endian_lw : ran 0xFFC32283 (small { Config.default with endian := .big } 0x100 [(6, 0x1004)] loadBytes) (seen 5) =
    some (0x807FFECA, 0x104, none) := by decide
theorem test_store_to_code_region : ran 0x00732023 (small sampleConfig 0x100 [(6, 0x800)] []) (seen 6) =
    some (0x800, 0x100, some ⟨.storeAccessFault, 0x100, 0x800⟩) := by decide
theorem test_byte_of_word_device : ran 0x00030283 (small sampleConfig 0x100 [(6, 0x10000000)] []) (seen 6) =
    some (0x10000000, 0x100, some ⟨.loadAccessFault, 0x100, 0x10000000⟩) := by decide
theorem test_spanning_load : ran 0x00032283 (small { sampleConfig with misaligned := .always .support } 0x100 [(6, 0xFFE)]
    [(0xFFE, 1), (0xFFF, 2), (0x1000, 3), (0x1001, 4)]) (seen 5) = some (0x04030201, 0x104, none) := by decide

/-! ### The PLIC (S13, S14; 60_exceptions.md R257 to R266) -/

/-- Three sources whose priorities are hardwired to 1 (S14), but for the mask of source 1, and one target. -/
def plicOf (first : WarlMask) : PlicParams :=
  { sources := [⟨.level, first⟩, ⟨.edgeIgnoring, ⟨1, 0xFFFFFFFE⟩⟩, ⟨.edgeCounting, ⟨1, 0xFFFFFFFE⟩⟩],
    targets := [⟨some .machine, [⟨0, 0⟩, ⟨5, 7⟩], [], []⟩],
    registers := [⟨0x2004, 4, .priority 1⟩, ⟨0x2010, 4, .pending 0 4⟩, ⟨0x2020, 4, .enable 0 0 4⟩, ⟨0x2030, 4, .threshold 0⟩,
      ⟨0x2040, 4, .claimComplete 0⟩, ⟨0x2050, 1, .claimComplete 0⟩, ⟨0x2052, 2, .threshold 0⟩] }

/-- All priorities 1 (S14). -/
def degenerate : PlicParams := plicOf ⟨1, 0xFFFFFFFE⟩

/-- The three sources pending, enabled and of priority 1. -/
def threePending : Plic :=
  { sources := List.replicate 3 ⟨true, 1, true, 0, false, 0, none⟩, targets := [⟨[true, true, true], 0, false, []⟩],
    writes := [], claims := [], completions := [] }

/-- The PLIC after `n` claims of target 0. -/
def afterClaims : Nat → Plic → Plic
  | 0, pl => pl
  | n + 1, pl => afterClaims n (pl.claim 0).2

theorem test_claims_in_id_order :
    ((List.range 4).map fun n => ((afterClaims n threePending).claim 0).1) = [1, 2, 3, 0] := by decide
theorem test_eip_drops_with_the_last_claim :
    ((List.range 4).map fun n => (afterClaims n threePending).eip 0) = [true, true, true, false] := by decide

/-- S13: a register of three bits, bit 0 hardwired to 1. -/
theorem test_priority_discovery :
    let p := plicOf ⟨1, 0xFFFFFFF8⟩
    let read (w : Word) : Word := ((((Plic.initial p).writeReg (.priority 1) w).writeRegister p 0).readReg (.priority 1)).1
    read 0 = 1 ∧ read 0xFFFFFFFF = 7 := by decide

/-- A platform with main memory below 0x1000 and the PLIC's registers at 0x2000. -/
def plicConfig (p : PlicParams) : Config :=
  { Config.default with
    memMap := [⟨0, 0x1000, .main, true, true, true, true, true, true⟩, ⟨0x2000, 0x1000, .io, false, true, true, true, true, true⟩],
    plic := some p }

/-- The hart beside the PLIC in state `pl`. -/
def beside (pl : Plic) (regs : List (Reg × Word)) : State := { small (plicConfig degenerate) 0x100 regs [] with plic := pl }

theorem test_hart_claims : ran 0x00032283 (beside threePending [(6, 0x2040)]) (fun t => (t.x 5, t.plic.eip 0)) =
    some (1, true) := by decide
theorem test_hart_completes : ran 0x00732023 (beside threePending [(6, 0x2040), (7, 2)]) (fun t => ((t.deliverStore 0).plic.completions, t.plic.completions)) =
    some ([(0, 2)], []) := by decide

/-- A threshold whose legal values are 0 and 5 to 7. -/
theorem test_threshold_legal_values : inRanges [⟨0, 0⟩, ⟨5, 7⟩] 5 = true ∧ inRanges [⟨0, 0⟩, ⟨5, 7⟩] 3 = false := by decide

/-- Two stores on their way to the PLIC, events 0 and 2, with a FENCE O,O between them or an access. -/
def twoPosted (between : Event) : State :=
  { beside threePending [(6, 0x2040)] with
    events := [.access ⟨false, true, false, false⟩ 0x2030 4 5, between, .access ⟨false, true, false, false⟩ 0x2040 4 2],
    posted := [⟨.threshold 0, 5, 0⟩, ⟨.claimComplete 0, 2, 2⟩] }

/-- The younger store may overtake the older one, but for a FENCE O,O between them (20_memory.md R60). -/
theorem test_deliver_order : (twoPosted (.access ⟨false, false, true, false⟩ 0 4 0)).deliverStore 1 =
      { twoPosted (.access ⟨false, false, true, false⟩ 0 4 0) with
        plic := { threePending with completions := [(0, 2)] }, posted := [⟨.threshold 0, 5, 0⟩] } ∧
    (twoPosted (.fence 0 0b0100 0b0100)).deliverStore 1 = twoPosted (.fence 0 0b0100 0b0100) := by decide

/-- A claim load leaves the stores on their way, but for those that a FENCE O,I orders before it. -/
theorem test_claim_and_fence : ran 0x00032283 (twoPosted (.fence 0 0b0100 0b0100)) (fun t => (t.x 5, t.posted.length)) =
      some (1, 2) ∧
    ran 0x00032283 (twoPosted (.fence 0 0b0100 0b1000)) (fun t => (t.x 5, t.posted, t.plic.writes)) =
      some (1, [⟨.claimComplete 0, 2, 2⟩], [⟨.threshold 0, 5⟩]) := by decide

/-- A claim by LBU at a register of width 1, and a threshold write by SH at one of width 2. -/
theorem test_narrow_registers : ran 0x05034283 (beside threePending [(6, 0x2000)]) (fun t => t.x 5) = some 1 ∧
    ran 0x04731923 (beside threePending [(6, 0x2000), (7, 0x10005)]) (fun t => t.posted) = some [⟨.threshold 0, 5, 0⟩] := by
  decide

/-- A store the PLIC has seen ahead is not sent again. -/
theorem test_store_ahead : ran 0x02732823 ((beside threePending [(6, 0x2000), (7, 5)]).storeAhead 0 0x2030 4 5)
    (fun t => (t.posted, t.ahead, t.plic.writes)) = some ([], [], [⟨.threshold 0, 5⟩]) := by decide

/-- A device's store is seen by the hart's next load. -/
theorem test_external_write : step { at_ 0x100 [] with agenda := [.act (.memoryWrite [(0x1000, 7)])] } =
    .next { at_ 0x100 [] with mem := [(0x1000, 7)], overwritten := [(0x1000, 0)] } := rfl

/-! ### Witnesses: states and operands that meet the statements' hypotheses -/

theorem witness_EncodedInstructionDecodes : (Instr.jal 31 0x1FFFFE).wellFormed = true ∧ (Instr.bgeu 31 0 0x1000).wellFormed = true ∧
    (Instr.fence 8 3 2 0 0).wellFormed = true ∧ (Instr.addi 0 0 0).wellFormed = true := by decide

theorem witness_DecodedWordReencodes : decodeWord 0x0FF0000F#32 = .ok (.fence 0 15 15 0 0) := by decide

theorem witness_DecoderFollowsOpcodeTable : decodeWord 0x00000013#32 = .ok nop ∧
    (∀ row ∈ opcodeTable, row.matchesWord 0#32 = false) ∧ TableRow.matchesWord ⟨"ADDI", 0x0000707F, 0x00000013⟩ 0x00000013#32 = true ∧
    ⟨"ADDI", 0x0000707F, 0x00000013⟩ ∈ opcodeTable ∧
    (⟨"FENCE.TSO", 0xFFF0707F, 0x8330000F⟩ ∈ opcodeTable ∧ ⟨"FENCE", 0x0000707F, 0x0000000F⟩ ∈ opcodeTable ∧
      TableRow.matchesWord ⟨"FENCE.TSO", 0xFFF0707F, 0x8330000F⟩ 0x8330000F#32 = true ∧
      TableRow.matchesWord ⟨"FENCE", 0x0000707F, 0x0000000F⟩ 0x8330000F#32 = true) := by decide

theorem witness_RegisterZeroIsHardwired : (31 : Reg) ≠ 0 ∧ (30 : Reg) ≠ 31 := by decide

theorem witness_AddAndSubtract : IsIWord 0x80030293#32 0b0010011 0b000 5 6 0x800 ∧
    IsRWord 0x007302B3#32 0b0110011 0b000 0b0000000 5 6 7 ∧
    IsRWord 0x407302B3#32 0b0110011 0b000 0b0100000 5 6 7 := by
  unfold IsIWord IsRWord; decide

theorem witness_SetLessThan : IsIWord 0xFFF32293#32 0b0010011 0b010 5 6 0xFFF ∧
    IsIWord 0xFFF33293#32 0b0010011 0b011 5 6 0xFFF ∧
    IsRWord 0x007322B3#32 0b0110011 0b010 0b0000000 5 6 7 ∧
    IsRWord 0x007332B3#32 0b0110011 0b011 0b0000000 5 6 7 := by
  unfold IsIWord IsRWord; decide

theorem witness_LogicWithImmediate : IsIWord 0x55534293#32 0b0010011 0b100 5 6 0x555 ∧
    IsIWord 0x0F036293#32 0b0010011 0b110 5 6 0x0F0 ∧
    IsIWord 0x80037293#32 0b0010011 0b111 5 6 0x800 ∧
    (31 : Nat) < 32 := by
  unfold IsIWord; decide

theorem witness_LogicWithRegister : IsRWord 0x007342B3#32 0b0110011 0b100 0b0000000 5 6 7 ∧
    IsRWord 0x007362B3#32 0b0110011 0b110 0b0000000 5 6 7 ∧
    IsRWord 0x007372B3#32 0b0110011 0b111 0b0000000 5 6 7 ∧
    (31 : Nat) < 32 := by
  unfold IsRWord; decide

theorem witness_ShiftByConstant : IsRWord 0x01F31293#32 0b0010011 0b001 0b0000000 5 6 31 ∧
    IsRWord 0x01F35293#32 0b0010011 0b101 0b0000000 5 6 31 ∧
    IsRWord 0x40435293#32 0b0010011 0b101 0b0100000 5 6 4 := by
  unfold IsRWord; decide

theorem witness_ShiftByRegister : IsRWord 0x007312B3#32 0b0110011 0b001 0b0000000 5 6 7 ∧
    IsRWord 0x007352B3#32 0b0110011 0b101 0b0000000 5 6 7 ∧
    IsRWord 0x407352B3#32 0b0110011 0b101 0b0100000 5 6 7 := by
  unfold IsRWord; decide

theorem witness_UpperImmediate : IsUWord 0x123452B7#32 0b0110111 5 0x12345 ∧
    IsUWord 0xFFFFF297#32 0b0010111 5 0xFFFFF := by
  unfold IsUWord; decide

theorem witness_ComputationalDependsOnSourcesOnly : isComputational (.add 0 5 6) = true ∧
    (∀ r ∈ sources (.add 0 5 6), (at_ 0x100 [(5, 1), (7, 2)]).x r = (at_ 0x100 [(5, 1), (7, 3)]).x r) ∧
    (at_ 0x100 [(5, 1), (7, 2)]).pc = (at_ 0x100 [(5, 1), (7, 3)]).pc := by decide

theorem witness_HintsChangeOnlyPc : isHint (.add 0 5 6) = true ∧ isHint (.fence 0 0 3 0 0) = true ∧ isHint (.fence 0 15 0 0 0) = true ∧
    isHint nop = false := by decide

/-- JAL words; and from pc 0x100 the target at offset -512 is aligned, the one at offset 2 is not. -/
theorem witness_JumpAndLink : IsJWord 0xE01FF0EF#32 0b1101111 1 0x1FFE00 ∧
    (BitVec.ofInt 32 ((at_ 0x100 []).pc.toInt + (0x1FFE00#21).toInt)).toNat % 4 = 0 ∧
    (BitVec.ofInt 32 ((at_ 0x100 []).pc.toInt + (2#21).toInt)).toNat % 4 ≠ 0 := by
  unfold IsJWord; decide

/-- JALR: sums 0x205 and 0x202. -/
theorem witness_JumpAndLinkRegister : IsIWord 0x005300E7#32 0b1100111 0b000 1 6 5 ∧
    (BitVec.ofNat 32 ((BitVec.ofInt 32 (((at_ 0x100 [(6, 0x200)]).x 6).toInt + (5#12).toInt)).toNat / 2 * 2)).toNat % 4 = 0 ∧
    (BitVec.ofNat 32 ((BitVec.ofInt 32 (((at_ 0x100 [(6, 0x201)]).x 6).toInt + (1#12).toInt)).toNat / 2 * 2)).toNat % 4 ≠ 0 := by
  unfold IsIWord; decide

/-- A word of each branch; at pc 0x2000 with x6 = x7 = 1, BEQ is taken to an aligned target (-4096) and to a misaligned one (+4094),
BNE is not taken, and each other comparison is decided one way or the other. -/
theorem witness_ConditionalBranches : IsBWord 0x80730063#32 0b1100011 0b000 6 7 0x1000 ∧
    IsBWord 0xFE731CE3#32 0b1100011 0b001 6 7 0x1FF8 ∧ IsBWord 0x00734863#32 0b1100011 0b100 6 7 16 ∧
    IsBWord 0x00735863#32 0b1100011 0b101 6 7 16 ∧ IsBWord 0x00736863#32 0b1100011 0b110 6 7 16 ∧
    IsBWord 0x00737863#32 0b1100011 0b111 6 7 16 ∧
    (let s := at_ 0x2000 [(6, 1), (7, 1)]
     (s.x 6).toNat = (s.x 7).toNat ∧ ¬(s.x 6).toInt < (s.x 7).toInt ∧ (s.x 7).toInt ≤ (s.x 6).toInt ∧
     ¬(s.x 6).toNat < (s.x 7).toNat ∧ (s.x 7).toNat ≤ (s.x 6).toNat ∧
     (BitVec.ofInt 32 (s.pc.toInt + (0x1000#13).toInt)).toNat % 4 = 0 ∧
     (BitVec.ofInt 32 (s.pc.toInt + (0x0FFE#13).toInt)).toNat % 4 ≠ 0) := by
  unfold IsBWord; decide

theorem witness_SynthesizedBranches :
    (BitVec.ofInt 32 ((at_ 0x100 []).pc.toInt + (0x1000#13).toInt)).toNat % 4 = 0 := by decide

/-- An aligned access, and a misaligned one under each policy; the load and the store kinds. -/
theorem witness_AccessChecksInOrder : (0xFFFFFFFC#32).toNat % 4 = 0 ∧ (0xFFFFFFFF#32).toNat % 4 ≠ 0 ∧
    (0xFFFFFFFF#32).toNat % 1 = 0 ∧ (1#32).toNat % 2 ≠ 0 ∧
    (at_ 0 []).config.misaligned = .always .trapMisaligned ∧
    (small { sampleConfig with misaligned := .always .trapAccessFault } 0 [] []).config.misaligned = .always .trapAccessFault ∧
    (small { sampleConfig with misaligned := .always .support } 0 [] []).config.misaligned = .always .support ∧
    (small { sampleConfig with misaligned := .perAccess } 0 [] []).config.misaligned = .perAccess := by decide

/-- Under V10's map, an access of every width and kind that raises. -/
theorem witness_FaultingAccessTraps :
    let s := small sampleConfig 0x100 [(6, 0x2000)] []
    0x2000#32 = BitVec.ofInt 32 ((s.x 6).toInt + (0#12).toInt) ∧
    checkAccess s 0x2000 1 .load = some .loadAccessFault ∧ checkAccess s 0x2000 2 .load = some .loadAccessFault ∧
    checkAccess s 0x2000 4 .load = some .loadAccessFault ∧ checkAccess s 0x2000 1 .store = some .storeAccessFault ∧
    checkAccess s 0x2000 2 .store = some .storeAccessFault ∧ checkAccess s 0x2000 4 .store = some .storeAccessFault := by decide

/-- LH and SW at an odd address raise the misaligned exceptions. -/
theorem witness_AlignedAccessNeverMisaligned :
    let s := at_ 0x100 [(6, 0x1001)]
    s.trap = none ∧ exec (.lh 5 6 0) s = .next { s with trap := some ⟨.loadAddressMisaligned, 0x100, 0x1001⟩ } ∧
    exec (.sw 6 7 0) s = .next { s with trap := some ⟨.storeAddressMisaligned, 0x100, 0x1001⟩ } := ⟨rfl, rfl, rfl⟩

theorem witness_LoadStoreWordsDecode : IsIWord 0xFFC30283#32 0b0000011 0b000 5 6 0xFFC ∧
    IsIWord 0xFFE31283#32 0b0000011 0b001 5 6 0xFFE ∧
    IsIWord 0xFFC32283#32 0b0000011 0b010 5 6 0xFFC ∧
    IsIWord 0x00334283#32 0b0000011 0b100 5 6 3 ∧
    IsIWord 0xFFE35283#32 0b0000011 0b101 5 6 0xFFE ∧
    IsSWord 0x007301A3#32 0b0100011 0b000 6 7 3 ∧
    IsSWord 0xFE731E23#32 0b0100011 0b001 6 7 0xFFC ∧
    IsSWord 0xFE732E23#32 0b0100011 0b010 6 7 0xFFC := by
  unfold IsIWord IsSWord; decide

/-- Loads of every width at the top of the address space, and of a device. -/
theorem witness_LoadsGiveTheBytes : ReachesMemory (at_ 0x100 []) 0xFFFFFFFF 1 .load ∧
    ReachesMemory (at_ 0x100 []) 0xFFFFFFFE 2 .load ∧ ReachesMemory (at_ 0x100 []) 0xFFFFFFFC 4 .load ∧
    ReachesMemory (small sampleConfig 0x100 [] []) 0x10000000 4 .load := by
  unfold ReachesMemory; decide

/-- Stores of every width at the top of the address space, and to a device. -/
theorem witness_StoresPutTheBytes : ReachesMemory (at_ 0x100 []) 0xFFFFFFFF 1 .store ∧
    ReachesMemory (at_ 0x100 []) 0xFFFFFFFE 2 .store ∧ ReachesMemory (at_ 0x100 []) 0xFFFFFFFC 4 .store ∧
    ReachesMemory (small sampleConfig 0x100 [] []) 0x10000000 4 .store ∧ Memory.wf (at_ 0x100 [] loadBytes).mem = true := by
  unfold ReachesMemory; decide

/-- Device loads of each width, the last at the end of the device's window. -/
theorem witness_DeviceAnswersAreFree :
    let s := small (plicConfig degenerate) 0x100 [(6, 0x2FFC)] []
    0x2FFC#32 = BitVec.ofInt 32 ((s.x 6).toInt + (0#12).toInt) ∧
    0x2FFF#32 = BitVec.ofInt 32 ((s.x 6).toInt + (3#12).toInt) ∧ ReachesMemory s 0x2FFF 1 .load ∧
    ReachesMemory s 0x2FFC 2 .load ∧ ReachesMemory s 0x2FFC 4 .load ∧
    AllDevice s 0x2FFF 1 ∧ AllDevice s 0x2FFC 2 ∧ AllDevice s 0x2FFC 4 := by
  unfold ReachesMemory AllDevice; decide

/-- A word stored at the last aligned address of main memory, little- and big-endian. -/
theorem witness_MixedWidthReads : (0xFFC#32).toNat % 4 = 0 ∧
    (∀ e, let s := small { plicConfig degenerate with endian := e } 0x100 [] []
      Memory.wf s.mem = true ∧ plicAccess s 0xFFC 4 = none ∧
      (∀ i, i < 4 → isDevice s.config.memMap (byteAddr 0xFFC i) = false) ∧ checkAccess s 0xFFC 4 .store = none) := by
  refine ⟨by decide, fun e => ?_⟩
  cases e <;> decide

theorem witness_OnlyStoresChangeMemory : isStore .ecall = false ∧ isStore (.addi 5 6 1) = false ∧ isLoad (.addi 5 6 1) = false ∧
    (at_ 0x100 []).config.trapMode = .fatal := by decide

theorem witness_CanonicalMemory : Memory.wf (Memory.writeAll [] loadBytes) = true ∧ (4294967295 : Nat) < 4294967296 ∧
    (0 : Nat) ≠ 4294967295 := by decide

theorem witness_FencesAdvanceAndAreRecorded : IsFenceWord 0x8330000F 0b1000 0b0011 0b0011 0 0 ∧
    IsFenceWord 0xFFFF8F8F 0xF 0xF 0xF 31 31 ∧ IsFenceWord 0x0120000F 0 0b0001 0b0010 0 0 := by
  unfold IsFenceWord; decide

theorem witness_FenceModes : ¬((1 : BitVec 4) = 0b1000 ∧ (3 : BitVec 4) = 0b0011 ∧ (3 : BitVec 4) = 0b0011) ∧
    ((0 : BitVec 4) = 0 ∨ (3 : BitVec 4) = 0) := by decide

theorem witness_FenceObligationOverHistory :
    ∀ e ∈ ([.access ⟨false, false, true, false⟩ 0x1000 4 7] : List Event), ∃ k a n v, e = .access k a n v :=
  fun e he => ⟨⟨false, false, true, false⟩, 0x1000, 4, 7, by simpa using he⟩

theorem witness_EnvironmentCallAndBreakpointTrap : (at_ 0xFFFFFFFC []).config.trapMode = .fatal := by decide

theorem witness_ServicedEcall :
    (small { Config.default with trapMode := .service } 0x200 [] []).config.trapMode = .service ∧
    Memory.wf (small { Config.default with trapMode := .service } 0x200 [] loadBytes).mem = true ∧
    (⟨true, Vector.replicate 31 0, []⟩ : ServiceReply).halt = true ∧
    (⟨false, Vector.replicate 31 1, [(0xFFFFFFFF, 3)]⟩ : ServiceReply).halt = false ∧
    isMain Config.default.memMap 0xFFFFFFFF = true := by decide

theorem witness_TrapsArePrecise :
    let s := at_ 0x100 [(1, 0x11111111)]
    s.trap = none ∧ exec (.jal 1 2) s = .next { s with trap := some ⟨.instructionAddressMisaligned, 0x100, 0x102⟩ } := ⟨rfl, rfl⟩

/-- A launch: the NOP at the last word of memory. -/
def launched : State := (at_ 0xFFFFFFFC []).withFetchWord 32 0x00000013

theorem witness_StepRunsDecodedInstruction : launched.trap = none ∧ launched.config.numHarts = 1 ∧
    launched.config.interrupts = false ∧ mapAllows launched.config.memMap launched.pc 4 .fetch = true ∧
    fetchesStored launched = false ∧ nop.wellFormed = true ∧ launched.agenda = [] ∧
    decode [Memory.read launched.mem (byteAddr launched.pc 0), Memory.read launched.mem (byteAddr launched.pc 1),
      Memory.read launched.mem (byteAddr launched.pc 2), Memory.read launched.mem (byteAddr launched.pc 3)] = .ok (nop, []) := by
  decide

theorem witness_FetchAndDecodeTraps :
    (let s := small sampleConfig 0x1000 [] []
     s.agenda = [] ∧ s.trap = none ∧ s.config.numHarts = 1 ∧ s.config.interrupts = false ∧
     mapAllows s.config.memMap s.pc 4 .fetch = false) ∧
    (let s := at_ 0x100 []
     s.agenda = [] ∧ s.trap = none ∧ mapAllows s.config.memMap s.pc 4 .fetch = true ∧ fetchesStored s = false ∧
     (∀ j, j < 4 → Memory.read s.mem (byteAddr s.pc j) = (0#32).extractLsb' (8 * j) 8) ∧
     decodeWord 0#32 = .error .notThirtyTwoBit) := by decide

/-- A hart about to fetch a byte that a store replaced, under either value of CODE_WRITABLE. -/
def rewritten (writable : Bool) : State :=
  { small { Config.default with codeWritable := writable } 0x100 [] [(0x103, 0xFF)] with overwritten := [(0x103, 0)] }

theorem witness_FetchAfterStore : checkAccess (at_ 0x100 []) 0xFFFFFFFC 4 .store = none ∧
    isDevice (at_ 0x100 []).config.memMap (byteAddr 0xFFFFFFFC 3) = false ∧
    (∀ b, (0x103, 0) ∈ (rewritten b).overwritten ∧ 0x103 = byteAddr (rewritten b).pc 3 ∧ (rewritten b).trap = none ∧
      (rewritten b).agenda = [] ∧ (rewritten b).config.numHarts = 1 ∧ (rewritten b).config.interrupts = false ∧
      mapAllows (rewritten b).config.memMap (rewritten b).pc 4 .fetch = true ∧ (rewritten b).config.codeWritable = b) := by decide

theorem witness_LaunchesWithoutMeaningAreRefused :
    (small { Config.default with numHarts := 2 } 0 [] []).config.numHarts ≠ 1 ∧
    (small { Config.default with interrupts := true } 0 [] []).config.numHarts = 1 ∧
    (small { Config.default with interrupts := true } 0 [] []).config.interrupts = true := by decide

/-- A halted hart with turn `t` first on the agenda. -/
def halted (turns : List Turn) : State :=
  { at_ 0x204 [] with trap := some ⟨.breakpoint, 0x204, 0x204⟩, agenda := turns }

theorem witness_HaltedHartTakesNoStep : (halted []).trap = some ⟨.breakpoint, 0x204, 0x204⟩ ∧ (halted []).agenda = [] ∧
    (halted [.hart]).agenda = [.hart] ∧
    step (halted [.act (.localLevel (.timer .machine) true)]) = .next { halted [] with localPending := [.timer .machine] } ∧
    (let s := { launched with agenda := [.act .processClaim] }
     s.trap = none ∧ step s = .next launched) :=
  ⟨rfl, rfl, rfl, rfl, rfl, rfl⟩

/-- The launched NOP's state has the invariant and takes a step. -/
theorem witness_StepKeepsInvariant : StateInv launched ∧ step launched = .next launched.advance := by
  refine ⟨⟨by decide, by decide, ?_, nofun, rfl, List.nodup_nil, ⟨List.Pairwise.nil, nofun⟩, List.nodup_nil⟩, rfl⟩
  unfold PcAligned; decide

theorem witness_PcStaysAligned : PcAligned launched ∧ step launched = .next launched.advance := by
  refine ⟨?_, rfl⟩
  unfold PcAligned; decide

theorem witness_StepKeepsConfiguration : step launched = .next launched.advance := rfl

/-- A well-formed configuration with no PLIC and one with a PLIC. -/
theorem witness_BootIsTheInitialState : Config.wf sampleConfig = true ∧ sampleConfig.plic = none ∧
    Config.wf (plicConfig degenerate) = true ∧ (plicConfig degenerate).plic = some degenerate ∧
    (loadBytes.map Prod.fst).Nodup ∧ isMain sampleConfig.memMap 0x1FFF = true := by decide

/-- The start state of the degenerate PLIC, source by source and target by target. -/
theorem legal_initial : PlicLegal degenerate (Plic.initial degenerate) := by
  refine ⟨rfl, rfl, fun k sp ss hp hs => ?_, fun k tp tt hp ht => ?_⟩
  · have : k = 0 ∨ k = 1 ∨ k = 2 := by
      have := (List.getElem?_eq_some_iff.1 hp).1
      simp [degenerate, plicOf] at this
      omega
    rcases this with rfl | rfl | rfl <;> (cases hp; cases hs; unfold SourceLegal; decide)
  · have : k = 0 := by
      have := (List.getElem?_eq_some_iff.1 hp).1
      simp [degenerate, plicOf] at this
      omega
    subst this
    cases hp; cases ht
    refine ⟨rfl, fun k b hb => ?_, by decide⟩
    have : k < 3 := (List.getElem?_eq_some_iff.1 hb).1
    have : k = 0 ∨ k = 1 ∨ k = 2 := by omega
    rcases this with rfl | rfl | rfl <;> (cases hb; decide)

theorem witness_PlicStart : PlicStart degenerate (Plic.initial degenerate) :=
  ⟨legal_initial, rfl, rfl, rfl, by decide, by decide⟩

theorem witness_PlicActionsKeepLegal : PlicLegal degenerate (Plic.initial degenerate) ∧
    plicAct degenerate 0 (Plic.initial degenerate) (.sendClaim 0) = .ok { Plic.initial degenerate with claims := [0] } :=
  ⟨legal_initial, rfl⟩

theorem witness_EipIsCombinational : threePending.targets[0]? = some ⟨[true, true, true], 0, false, []⟩ ∧
    (Plic.initial degenerate).targets[0]? = some ⟨[false, false, false], 0, false, []⟩ ∧
    (∀ ss ∈ (Plic.initial degenerate).sources, ss.ip = true → ss.prio = 0) := by decide

/-- A claim with no candidate (nothing enabled), and one with three. -/
theorem witness_ClaimAnswersTheBestSource : threePending.targets[0]? = some ⟨[true, true, true], 0, false, []⟩ ∧
    (Plic.initial degenerate).candidates 0 = [] ∧ threePending.candidates 0 = [1, 2, 3] := by decide

theorem witness_PriorityRegistersAreWarl : (plicOf ⟨1, 0xFFFFFFF8⟩).sources[0]? = some ⟨.level, ⟨1, 0xFFFFFFF8⟩⟩ ∧
    (Plic.initial (plicOf ⟨1, 0xFFFFFFF8⟩)).sources[0]? = some ⟨false, 1, false, 0, false, 0, none⟩ ∧
    WarlMask.wf ⟨1, 0xFFFFFFF8⟩ = true ∧ (31 : Nat) < 32 ∧
    degenerate.targets[0]? = some ⟨some .machine, [⟨0, 0⟩, ⟨5, 7⟩], [], []⟩ ∧
    threePending.targets[0]? = some ⟨[true, true, true], 0, false, []⟩ ∧
    (∃ r ∈ ([⟨0, 0⟩, ⟨5, 7⟩] : List ValueRange), r.low.toNat ≤ r.high.toNat) ∧
    (∃ r ∈ ([⟨0, 0⟩, ⟨5, 7⟩] : List ValueRange), r.low.toNat ≤ (7#32).toNat ∧ (7#32).toNat ≤ r.high.toNat) ∧
    (1 ≤ 2 + 1 ∧ 2 + 1 < 1 + 3) ∧ ¬(0 ≤ 2 + 1 ∧ 2 + 1 < 0 + 3) ∧ (3 < 4 ∧ 1 ≤ 0 + 3 ∧ 0 + 3 ≤ 3) ∧ ¬(1 ≤ 0 + 0) ∧
    (let s (act : AgentAction) := { beside threePending [] with agenda := [.act act] }
     (s .writeRegister).config.plic = some degenerate ∧ (s .writeRegister).agenda = .act .writeRegister :: [] ∧
     (s (.busWrite (.threshold 0) 5)).agenda = .act (.busWrite (.threshold 0) 5) :: [] ∧ threePending.writes = []) := by decide

/-- A claimed source whose level is asserted, and an idle one, for an enabled and a disabled target. -/
theorem witness_CompletionReleasesTheGateway :
    let pl := { threePending with sources := [⟨false, 1, true, 0, true, 0, some 0⟩, ⟨false, 1, false, 0, false, 0, none⟩,
      ⟨false, 1, true, 0, false, 0, some 0⟩] }
    pl.targets[0]? = some ⟨[true, true, true], 0, false, []⟩ ∧ degenerate.sources[0]? = some ⟨.level, ⟨1, 0xFFFFFFFE⟩⟩ ∧
    [true, true, true].getD 2 false = true ∧ [false, false, false].getD 0 false = false ∧
    (Plic.initial degenerate).targets[0]? = some ⟨[false, false, false], 0, false, []⟩ ∧
    (∃ ss, pl.sources[0]? = some ss ∧ ss.claimedBy = some 0 ∧ ss.level = true) ∧
    (∃ ss, pl.sources[1]? = some ss ∧ ss.claimedBy ≠ some 0) ∧
    (∃ ss, pl.sources[2]? = some ss ∧ ss.claimedBy = some 0 ∧ ss.level = false) ∧ pl.sources.length < 4 ∧
    (let s (sent : List (Nat × Nat)) := { beside { pl with completions := sent } [] with agenda := [.act .deliverCompletion] }
     (s []).config.plic = some degenerate ∧ (s [(0, 1)]).plic.completions = (0, 1) :: [] ∧
     (∃ q, Plic.complete degenerate pl 0 1 = .ok q) ∧ Plic.complete degenerate pl 0 2 = .error .completionUnspecified) := by
  refine ⟨rfl, rfl, rfl, rfl, rfl, ⟨_, rfl, rfl, rfl⟩, ⟨_, rfl, ?_⟩, ⟨_, rfl, rfl, rfl⟩, ?_, rfl, rfl, ⟨_, rfl⟩, rfl⟩ <;> decide

/-- An idle gateway, a busy one with a request in its queue, one whose request was accepted; and a claim message waiting. -/
theorem witness_IgnoringGatewaySendsOneRequest :
    (let idle : PlicSource := ⟨false, 1, false, 0, false, 0, none⟩
     idle.busy = false ∧ idle.requests = 0 ∧ idle.ip = false) ∧
    (let waiting : PlicSource := ⟨false, 1, true, 2, false, 1, none⟩
     waiting.busy = true ∧ 0 < waiting.requests ∧ waiting.ip = false) ∧
    (⟨true, 1, true, 0, false, 0, none⟩ : PlicSource).ip = true ∧
    ({ threePending with claims := [0, 0] } : Plic).claims = 0 :: [0] ∧
    threePending.targets[0]? = some ⟨[true, true, true], 0, false, []⟩ ∧
    (let s (act : AgentAction) := { beside threePending [] with agenda := [.act act] }
     (s .processClaim).config.plic = some degenerate ∧ (s (.sourceLevel 1 true)).agenda = .act (.sourceLevel 1 true) :: [] ∧
     degenerate.sources[0]? = some ⟨.level, ⟨1, 0xFFFFFFFE⟩⟩ ∧ threePending.sources[0]? = some ⟨true, 1, true, 0, false, 0, none⟩ ∧
     degenerate.sources.length < 4 ∧ threePending.targets.length ≤ 1 ∧ threePending.claims = []) ∧
    launched.config.plic = none := by decide

theorem witness_NotificationDeliversEip :
    let s := { beside threePending [] with agenda := [.act (.notifyTarget 0)] }
    s.config.plic = some degenerate ∧ s.plic.targets[0]? = some ⟨[true, true, true], 0, false, []⟩ ∧
    s.agenda = .act (.notifyTarget 0) :: [] ∧ degenerate.targets[0]? = some ⟨some .machine, [⟨0, 0⟩, ⟨5, 7⟩], [], []⟩ ∧
    s.plic.eip 0 = true := by decide

theorem witness_HartClaimsByLoad :
    let s := beside threePending [(6, 0x2040)]
    0x2040#32 = BitVec.ofInt 32 ((s.x 6).toInt + (0#12).toInt) ∧ checkAccess s 0x2040 4 .load = none ∧
    plicAccess s 0x2040 4 = some (degenerate, .claimComplete 0) ∧ (∀ e ∈ s.ahead, e.event ≠ s.events.length) ∧
    checkAccess s 0x2050 1 .load = none ∧ plicAccess s 0x2050 1 = some (degenerate, .claimComplete 0) ∧
    checkAccess s 0x2052 2 .load = none ∧ plicAccess s 0x2052 2 = some (degenerate, .threshold 0) ∧
    s.plic.claims = [] ∧ ({ threePending with claims := [0] } : Plic).claims ≠ [] ∧
    (let w := twoPosted (.access ⟨false, false, true, false⟩ 0 4 0)
     w.x 6 = s.x 6 ∧ plicAccess w 0x2040 4 = some (degenerate, .claimComplete 0) ∧
     ∀ q ∈ w.posted, fencedBefore w.events q.event deviceInput = false) ∧
    (let w := twoPosted (.fence 0 0b0100 0b1000)
     checkAccess w 0x2040 4 .load = none ∧ plicAccess w 0x2040 4 = some (degenerate, .claimComplete 0) ∧ w.ahead = [] ∧
     fencedBefore w.events 0 deviceInput = true ∧ fencedBefore w.events 2 deviceInput = false) ∧
    checkAccess s 0x2004 4 .load = none ∧ plicAccess s 0x2004 4 = some (degenerate, .priority 1) ∧
    (∃ ss, s.plic.sources[0]? = some ss ∧ ss.prio = 1) ∧
    checkAccess s 0x2010 4 .load = none ∧ plicAccess s 0x2010 4 = some (degenerate, .pending 0 4) ∧
    checkAccess s 0x2020 4 .load = none ∧ plicAccess s 0x2020 4 = some (degenerate, .enable 0 0 4) ∧
    checkAccess s 0x2030 4 .load = none ∧ plicAccess s 0x2030 4 = some (degenerate, .threshold 0) ∧
    s.plic.targets[0]? = some ⟨[true, true, true], 0, false, []⟩ := by
  refine ⟨by decide, by decide, by decide, by decide, by decide, by decide, by decide, by decide, by decide,
    by decide, by decide, by decide, by decide, by decide, ⟨_, rfl, rfl⟩, ?_⟩
  decide

theorem witness_HartWritesPlicByStore :
    let s := beside threePending [(6, 0x2000)]
    0x2040#32 = BitVec.ofInt 32 ((s.x 6).toInt + (0x40#12).toInt) ∧ checkAccess s 0x2040 4 .store = none ∧
    plicAccess s 0x2040 4 = some (degenerate, .claimComplete 0) ∧ checkAccess s 0x2004 4 .store = none ∧
    plicAccess s 0x2004 4 = some (degenerate, .priority 1) ∧ checkAccess s 0x2010 4 .store = none ∧
    plicAccess s 0x2010 4 = some (degenerate, .pending 0 4) ∧ checkAccess s 0x2020 4 .store = none ∧
    plicAccess s 0x2020 4 = some (degenerate, .enable 0 0 4) ∧ checkAccess s 0x2030 4 .store = none ∧
    plicAccess s 0x2030 4 = some (degenerate, .threshold 0) ∧ checkAccess s 0x2050 1 .store = none ∧
    plicAccess s 0x2050 1 = some (degenerate, .claimComplete 0) ∧ checkAccess s 0x2052 2 .store = none ∧
    plicAccess s 0x2052 2 = some (degenerate, .threshold 0) ∧ ∀ e ∈ s.ahead, e.event ≠ s.events.length := by decide

/-- Two stores on their way stand in the history's order. -/
theorem witness_posted_in_order : PostedInOrder (twoPosted (.fence 0 0b0100 0b1000)) := by unfold PostedInOrder; decide

/-- Each form of a load and a store. -/
theorem witness_load_and_store_forms : IsLoad (.lb 5 6 0) 5 6 0 1 (fun m => BitVec.ofInt 32 (BitVec.ofNat 8 m).toInt) ∧
    IsLoad (.lbu 5 6 0) 5 6 0 1 (BitVec.ofNat 32) ∧ IsLoad (.lh 5 6 0) 5 6 0 2 (fun m => BitVec.ofInt 32 (BitVec.ofNat 16 m).toInt) ∧
    IsLoad (.lhu 5 6 0) 5 6 0 2 (BitVec.ofNat 32) ∧ IsLoad (.lw 5 6 0) 5 6 0 4 (BitVec.ofNat 32) ∧
    IsStore (.sb 6 7 0) 6 7 0 1 ∧ IsStore (.sh 6 7 0) 6 7 0 2 ∧ IsStore (.sw 6 7 0) 6 7 0 4 := by simp [IsLoad, IsStore]

theorem witness_LocalPendingFollowsCondition :
    ({ at_ 0 [] with agenda := [.act (.localLevel (.software .machine) true)] } : State).agenda =
      .act (.localLevel (.software .machine) true) :: [] ∧
    exec nop launched = .next launched.advance := ⟨rfl, rfl⟩

theorem witness_OtherAgentsStoresArePerformed :
    let s := { at_ 0x100 [] loadBytes with agenda := [.act (.memoryWrite [(0xFFFFFFFF, 7), (0, 1)])] }
    s.agenda = .act (.memoryWrite [(0xFFFFFFFF, 7), (0, 1)]) :: [] ∧ Memory.wf s.mem = true ∧
    (([(0xFFFFFFFF, 7), (0, 1)] : List Host.Cell).map Prod.fst).Nodup ∧
    isMain s.config.memMap 0xFFFFFFFF = true ∧ isMain s.config.memMap 0x100000000 = false := by decide

/-- A delivery that may happen and one a FENCE forbids; a load with nothing seen ahead, one that takes an early answer and one that a
FENCE keeps from it; a store seen ahead, in time and too early; an early answer. -/
theorem witness_OnlyFencesOrderPlicAccesses :
    (let s := { twoPosted (.fence 0 0b0100 0b0100) with agenda := [.act (.deliverStore 1)] }
     s.config.plic = some degenerate ∧ s.posted[1]? = some ⟨.claimComplete 0, 2, 2⟩ ∧
     s.posted[0]? = some ⟨.threshold 0, 5, 0⟩ ∧ mustPrecede s.events 0 2 = true) ∧
    (let s := twoPosted (.access ⟨false, false, true, false⟩ 0 4 0)
     s.posted[0]? = some ⟨.threshold 0, 5, 0⟩ ∧ mustPrecede s.events 0 2 = false ∧ s.ahead = [] ∧
     0x2040#32 = BitVec.ofInt 32 ((s.x 6).toInt + (0#12).toInt) ∧ checkAccess s 0x2040 4 .load = none ∧
     plicAccess s 0x2040 4 = some (degenerate, .claimComplete 0)) ∧
    (let e : EarlyAccess := ⟨3, false, 0x2040, 4, 1, 1, [], [0]⟩
     let s := { twoPosted (.access ⟨false, false, true, false⟩ 0 4 0) with ahead := [⟨7, true, 0, 1, 0, 0, [], []⟩, e] }
     SeenInTime s false 0x2040 4 e ∧ exec (.lw 5 6 0) s = .next { s.writeAndAdvance 5 1 with
       ahead := [⟨7, true, 0, 1, 0, 0, [], []⟩], draws := 1,
       events := s.events ++ [.access ⟨true, false, false, false⟩ 0x2040 4 1] }) ∧
    (let s := { twoPosted (.fence 0 0b0100 0b1000) with ahead := [⟨3, false, 0x2040, 4, 1, 0, [], []⟩] }
     ¬∃ e, SeenInTime s false 0x2040 4 e) ∧
    (let e : EarlyAccess := ⟨3, true, 0x2040, 4, 0, 0, [], []⟩
     let s (between : Event) := { twoPosted between with ahead := [e] }
     checkAccess (s (.fence 0 0 0)) 0x2040 4 .store = none ∧ EarlyOnce (s (.fence 0 0 0)) ∧
     SeenInTime (s (.fence 0 0 0)) true 0x2040 4 e ∧ ¬∃ f, SeenInTime (s (.fence 0 0b0100 0b0100)) true 0x2040 4 f) ∧
    (let s := { beside threePending [] with agenda := [.act (.answerAhead 0 0x2040 4)] }
     plicAccess s 0x2040 4 = some (degenerate, .claimComplete 0) ∧ s.events.length ≤ 0 ∧
     ∀ e ∈ s.ahead, e.event ≠ 0) := by
  have notSeen (s : State) (store : Bool) (e : EarlyAccess) (h : s.ahead = [e]) (j : Nat) (hj : j < s.events.length)
      (hm : e.seenAt ≤ j ∧ j ∉ e.earlier) (hf : fencedBefore s.events j (if store then deviceOutput else deviceInput) = true) :
      ¬∃ f, SeenInTime s store 0x2040 4 f := by
    rintro ⟨f, h1, -, -, -, -, h2⟩
    rw [h, List.mem_singleton] at h1
    subst h1
    rw [h2 j hj (.inl ⟨hm.1, fun hc => hm.2 hc.1⟩)] at hf
    cases hf
  refine ⟨by decide, by decide, ⟨⟨by decide, rfl, rfl, rfl, rfl, by decide⟩, rfl⟩,
    notSeen _ _ _ rfl 0 (by decide) (by decide) (by decide),
    ⟨by decide, by unfold EarlyOnce; decide, ⟨by decide, rfl, rfl, rfl, rfl, by decide⟩,
      notSeen _ _ _ rfl 0 (by decide) (by decide) (by decide)⟩, by decide⟩

end Sys2Proof.Tests
end

/-! The proofs of the statements about 00_scope.md: a hart's turn runs the decoded instruction, and another agent's store
is performed at its turn. -/

namespace Sys2Proof.Machine

/-! ### The hart's turn (00_scope.md R12) -/

/-- Four bytes decode to an instruction, with no byte left, when their word does. -/
theorem decode_four_eq_ok_iff {b0 b1 b2 b3 : Byte} {i : Instr} :
    decode [b0, b1, b2, b3] = .ok (i, []) ↔ decodeWord (wordOfBytes b0 b1 b2 b3) = .ok i := by
  cases h : decodeWord (wordOfBytes b0 b1 b2 b3) <;> simp [decode, h]

/-- A hart that may take a step is ready to run what the fetched word decodes to. -/
theorem ready_of_fetch {s t : State} {w : Word} {i : Instr} (ht : s.trap = none) (hh : s.config.numHarts = 1)
    (hi : s.config.interrupts = false) (hf : fetch s = .word w t) (hd : decodeWord w = .ok i) : ready s = .run i t := by
  simp [ready, ht, hh, hi, hf, hd]

/-- A hart's turn that is ready to run an instruction is that instruction's meaning. -/
theorem hartTurn_of_ready {s t : State} {i : Instr} (h : ready s = .run i t) : hartTurn s = exec i t := by
  simp [hartTurn, h]

/-- The turn of a hart that may take a step, at four bytes that no store has written. -/
theorem hartTurn_clean {s : State} {i : Instr} (ht : s.trap = none) (hh : s.config.numHarts = 1)
    (hi : s.config.interrupts = false) (hm : mapAllows s.config.memMap s.pc 4 .fetch = true) (hs : fetchesStored s = false)
    (hd : decodeWord (fetchedWord s.pc (Memory.read s.mem)) = .ok i) : hartTurn s = exec i s :=
  hartTurn_of_ready (ready_of_fetch ht hh hi (fetch_clean hm hs) hd)

theorem step_of_agenda_nil {s : State} (h : s.agenda = []) : step s = hartTurn s := by simp [step, h]

theorem step_of_agenda_hart {s : State} {rest : List Turn} (h : s.agenda = .hart :: rest) :
    step s = hartTurn { s with agenda := rest } := by simp [step, h]

theorem step_of_agenda_act {s : State} {a : AgentAction} {rest : List Turn} (h : s.agenda = .act a :: rest) :
    step s = agentTurn a { s with agenda := rest } := by simp [step, h]

/-- Settles O39: the two turns of the hart are `hartTurn_clean` of the state with and without the turn on its agenda. -/
theorem stepRunsDecodedInstruction : Obligations.StepRunsDecodedInstruction := by
  intro s i ht hh hi hm hs _ hd
  have hw : decodeWord (fetchedWord s.pc (Memory.read s.mem)) = .ok i := decode_four_eq_ok_iff.1 hd
  constructor
  · intro ha
    rw [step_of_agenda_nil ha]
    exact hartTurn_clean ht hh hi hm hs hw
  · intro rest ha
    rw [step_of_agenda_hart ha]
    exact hartTurn_clean (s := { s with agenda := rest }) ht hh hi hm hs hw

/-! ### Stores from outside the hart (20_memory.md R61) -/

/-- The addresses of the cells in main memory differ if those of all the cells do. -/
theorem nodup_mainCells (regions : List Region) {cells : List Host.Cell} (h : (cells.map Prod.fst).Nodup) :
    ((mainCells regions cells).map Prod.fst).Nodup :=
  (List.filter_sublist.map Prod.fst).nodup h

/-- Writing the cells of main memory leaves a byte alone that no cell names in main memory. -/
theorem Memory.read_writeAll_mainCells_of_not_main {regions : List Region} {cells : List Host.Cell} {b : Nat}
    (m : List Host.Cell) (h : ∀ c ∈ cells, c.1 = b → isMain regions b = false) :
    Memory.read (Memory.writeAll m (mainCells regions cells)) b = Memory.read m b := by
  refine Memory.read_writeAll_of_forall_ne _ m fun c hc hb => ?_
  obtain ⟨hmem, hmain, -⟩ := mem_mainCells.1 hc
  rw [hb, h c hmem hb] at hmain
  cases hmain

/-- A cell of main memory reads back, when no two cells name one address. -/
theorem Memory.read_writeAll_mainCells_of_mem {regions : List Region} {cells m : List Host.Cell} {c : Host.Cell}
    (hm : Memory.wf m = true) (hn : (cells.map Prod.fst).Nodup) (hc : c ∈ mainCells regions cells) :
    Memory.read (Memory.writeAll m (mainCells regions cells)) c.1 = c.2 :=
  Memory.read_writeAll_of_mem hm (fun _ hd => (mem_mainCells.1 hd).2.2) (nodup_mainCells regions hn) hc

/-- Settles O59: the turn replaces the bytes of the cells in main memory, and the rules for a write and for the note of what it
replaces say what that does. -/
theorem otherAgentsStoresArePerformed : Obligations.OtherAgentsStoresArePerformed := by
  intro s cells rest ha hwf
  refine ⟨_, _, step_of_agenda_act ha, Memory.wf_writeAll_mainCells _ cells hwf,
    fun b hb => Memory.read_writeAll_mainCells_of_not_main s.mem hb, fun c => mem_noteOverwritten_of_mem, ?_⟩
  intro hn c hc hmain hlt
  have hcell : c ∈ mainCells s.config.memMap cells := mem_mainCells.2 ⟨hc, hmain, hlt⟩
  exact ⟨Memory.read_writeAll_mainCells_of_mem hwf hn hcell, mem_noteOverwritten (List.mem_map_of_mem hcell)⟩

end Sys2Proof.Machine

/-! The proofs of the statements about 10_state.md: the register file, what an instruction and a turn leave unchanged, and the
machine's invariant. -/

namespace Sys2Proof.Machine

/-! ### The register file (10_state.md R21, R22) -/

theorem State.setX_zero (s : State) (v : Word) : s.setX 0#5 v = s := rfl

/-- Settles O6: what a register reads after a write, at x0, at the register written and at another one. -/
theorem registerZeroIsHardwired : Obligations.RegisterZeroIsHardwired := by
  intro s r v
  refine ⟨s.x_zero, (s.setX r v).x_zero, fun hr => ?_, fun q hq => ?_, s.setX_zero v, rfl⟩
  · rw [State.x_setX, if_pos rfl]; exact if_neg hr
  · rw [State.x_setX, if_neg hq]

/-! ### Loads into x0 (10_state.md R22, 45_hints.md R216) -/

/-- A load into x0 leaves what the load into `rd` leaves, but for the registers, which stay as they were. -/
theorem load_x0 (s : State) (rd : Reg) (a : Word) (n : Nat) (extend : Word → Word) :
    s.load 0 a n extend = { s.load rd a n extend with regs := s.regs } := by
  rcases hc : checkAccess s a n .load with _ | c
  · simp only [State.load, memRead_ok hc]
    rfl
  · simp only [State.load, memRead_error hc]
    rfl

/-- Settles O28: each of the five is `State.load` of its width and extension, with `rd` or with x0. -/
theorem loadToX0StillAccesses : Obligations.LoadToX0StillAccesses := by
  intro s rd rs1 imm i i0 h
  obtain ⟨a, n, extend, hi, hi0⟩ : ∃ a n extend, exec i s = .next (s.load rd a n extend) ∧
      exec i0 s = .next (s.load 0 a n extend) := by
    rcases h with ⟨rfl, rfl⟩ | ⟨rfl, rfl⟩ | ⟨rfl, rfl⟩ | ⟨rfl, rfl⟩ | ⟨rfl, rfl⟩
    all_goals exact ⟨_, _, _, rfl, rfl⟩
  rw [load_x0 s rd] at hi0
  exact ⟨_, _, hi, hi0, fun _ => rfl, rfl, rfl, rfl, rfl, rfl, rfl, rfl, rfl⟩

/-! ### What an instruction can do -/

/-- What an instruction does on its own, with no access: it writes a register, moves the pc to an aligned place, records a FENCE, or
raises. -/
inductive HartEffect (s : State) : State → Prop
  | computes (rd : Reg) (v : Word) : HartEffect s (s.writeAndAdvance rd v)
  | jumps (rd : Reg) (v target : Word) (aligned : target.toNat % 4 = 0) : HartEffect s ((s.setX rd v).goto target)
  | goes (target : Word) (aligned : target.toNat % 4 = 0) : HartEffect s (s.goto target)
  | advances : HartEffect s s.advance
  | fences (fm pred succ : BitVec 4) : HartEffect s (s.record (.fence fm pred succ)).advance
  | raises (c : Cause) (tval : Word) : HartEffect s (s.raise c tval)

/-- After a load that passed its checks (20_memory.md R41). -/
def State.afterLoad (s : State) (rd : Reg) (a : Word) (n : Nat) (extend : Word → Word) : State :=
  State.writeAndAdvance { s with
    plic := (readValue s a n).plic, posted := (readValue s a n).posted, ahead := (readValue s a n).ahead,
    draws := drawsAfter s a n,
    events := s.events ++ [.access (accessKinds s a n .load) a n (readValue s a n).value] } rd (extend (readValue s a n).value)

/-- After a store that passed its checks (20_memory.md R42). -/
def State.afterStore (s : State) (a : Word) (n : Nat) (v : Word) : State :=
  State.advance { s.replaceBytes (storeCells s a n v) with
    posted := postedAfterStore s a n v, ahead := aheadAfterStore s a n v, draws := drawsAfter s a n,
    events := s.events ++ [.access (accessKinds s a n .store) a n (lowBytes n v)] }

/-- After an ECALL that the environment serviced (60_exceptions.md R236). -/
def State.afterService (s : State) (reply : ServiceReply) : State :=
  { s.replaceBytes (serviceCells s reply) with regs := reply.regs, pc := s.pc + 4, draws := s.draws + 1 }

/-- What an instruction does: an effect of its own, or a load, a store or a serviced ECALL that completes. -/
inductive ExecEffect (i : Instr) (s : State) : State → Prop
  | own {t : State} (h : HartEffect s t) : ExecEffect i s t
  | loads (hi : isLoad i = true) (rd : Reg) (a : Word) (n : Nat) (extend : Word → Word) :
      ExecEffect i s (s.afterLoad rd a n extend)
  | stores (hi : isStore i = true) (a : Word) (n : Nat) (v : Word) : ExecEffect i s (s.afterStore a n v)
  | resumes (hi : i = .ecall) (hm : s.config.trapMode = .service) (reply : ServiceReply) :
      ExecEffect i s (s.afterService reply)

theorem jumpAndLink_effect (s : State) (rd : Reg) (t : Word) : HartEffect s (s.jumpAndLink rd t) := by
  rcases jumpAndLink_cases s rd t with ⟨ht, e⟩ | ⟨-, e⟩
  · rw [e]; exact .jumps _ _ _ ht
  · rw [e]; exact .raises _ _

theorem branch_effect (s : State) (taken : Bool) (t : Word) : HartEffect s (s.branch taken t) := by
  rcases branch_cases s taken t with ⟨-, ht, e⟩ | ⟨-, -, e⟩ | ⟨-, e⟩
  · rw [e]; exact .goes _ ht
  · rw [e]; exact .raises _ _
  · rw [e]; exact .advances

theorem load_effect {i : Instr} (hi : isLoad i = true) (s : State) (rd : Reg) (a : Word) (n : Nat) (extend : Word → Word) :
    ExecEffect i s (s.load rd a n extend) := by
  rcases load_cases s rd a n extend with ⟨c, -, e⟩ | ⟨-, e⟩ <;> rw [e]
  · exact .own (.raises c a)
  · exact .loads hi rd a n extend

theorem store_effect {i : Instr} (hi : isStore i = true) (s : State) (a : Word) (n : Nat) (v : Word) :
    ExecEffect i s (s.store a n v) := by
  rcases store_cases s a n v with ⟨c, -, e⟩ | ⟨-, e⟩ <;> rw [e]
  · exact .own (.raises c a)
  · exact .stores hi a n v

theorem serve_effect {s : State} (hm : s.config.trapMode = .service) (reply : ServiceReply) :
    ExecEffect .ecall s (s.serve reply) := by
  rcases serve_cases s reply with ⟨-, e⟩ | ⟨-, e⟩ <;> rw [e]
  · exact .own (.raises .environmentCall 0)
  · exact .resumes rfl hm reply

theorem ecall_effect (s : State) : ∃ t, exec .ecall s = .next t ∧ ExecEffect .ecall s t := by
  cases hm : s.config.trapMode with
  | fatal => exact ⟨_, by simp only [exec, execEcall, hm], .own (.raises .environmentCall 0)⟩
  | service =>
    exact ⟨_, by simp only [exec, execEcall, hm], serve_effect hm (Config.ecallService s.draws s.regs s.mem s.pc)⟩

/-- Every instruction answers a next state, and what it does is one of these effects. -/
theorem exec_effect (i : Instr) (s : State) : ∃ t, exec i s = .next t ∧ ExecEffect i s t := by
  cases i with
  | lui | auipc | addi | slti | sltiu | xori | ori | andi | slli | srli | srai | add | sub | sll | slt | sltu | xor | srl | sra
  | or | and => exact ⟨_, rfl, .own (.computes _ _)⟩
  | jal | jalr => exact ⟨_, rfl, .own (jumpAndLink_effect ..)⟩
  | beq | bne | blt | bge | bltu | bgeu => exact ⟨_, rfl, .own (branch_effect ..)⟩
  | lb | lh | lw | lbu | lhu => exact ⟨_, rfl, load_effect rfl ..⟩
  | sb | sh | sw => exact ⟨_, rfl, store_effect rfl ..⟩
  | fence | fenceTso => exact ⟨_, rfl, .own (.fences _ _ _)⟩
  | ecall => exact ecall_effect s
  | ebreak => exact ⟨_, rfl, .own (.raises _ _)⟩

theorem execEffect_of_next {i : Instr} {s t : State} (h : exec i s = .next t) : ExecEffect i s t := by
  obtain ⟨u, hu, he⟩ := exec_effect i s
  rw [hu] at h
  cases h
  exact he

/-- An effect of the instruction's own touches the registers, the pc, the trap record and the history only. -/
theorem HartEffect.frame {s t : State} (h : HartEffect s t) : SamePlatform s t ∧ t.mem = s.mem ∧
    t.overwritten = s.overwritten ∧ t.draws = s.draws ∧ s.events.length ≤ t.events.length := by
  cases h with
  | fences => exact ⟨⟨rfl, rfl, rfl, rfl, rfl, rfl⟩, rfl, rfl, rfl, by simp⟩
  | _ => exact ⟨⟨rfl, rfl, rfl, rfl, rfl, rfl⟩, rfl, rfl, rfl, Nat.le_refl _⟩

/-- Settles O30: of the effects an instruction can have, only a store and a serviced ECALL reach memory, and of the others only a load
reaches a device. -/
theorem onlyStoresChangeMemory : Obligations.OnlyStoresChangeMemory := by
  intro s t i hs hecall h
  cases execEffect_of_next h with
  | own he =>
    obtain ⟨⟨-, hplic, hposted, hahead, -, -⟩, hmem, hover, hdraws, -⟩ := he.frame
    exact ⟨fun a => by rw [hmem], hover, fun _ => ⟨hplic, hposted, hahead, hdraws⟩⟩
  | loads hi => exact ⟨fun _ => rfl, rfl, fun hl => absurd hl (by simp [hi])⟩
  | stores hi => exact absurd hs (by simp [hi])
  | resumes hi hm => exact absurd (hecall hi) (by simp [hm])

/-! ### What a step can do -/

/-- A property that the model's counters and agenda do not touch is kept by every step, if it is kept by what an instruction does, by
the exceptions raised before one, and by other agents' turns. -/
theorem step_preserves {P : State → Prop} (hbook : ∀ s draws agenda, P s → P { s with draws := draws, agenda := agenda })
    (hexec : ∀ i s t, s.trap = none → P s → ExecEffect i s t → P t)
    (hraise : ∀ s c tval, s.trap = none → P s → P (s.raise c tval))
    (hagent : ∀ a s t, P s → agentTurn a s = .next t → P t) {s t : State} (hs : P s) (h : step s = .next t) : P t := by
  have hart {u : State} (hu : P u) (h : hartTurn u = .next t) : P t := by
    rcases hartTurn_cases h with ⟨i, v, hr, he⟩ | hr
    · obtain ⟨ht, d, rfl⟩ := ready_run hr
      exact hexec i { u with draws := d } t ht (hbook u d u.agenda hu) (execEffect_of_next he)
    · obtain ⟨ht, d, c, v, rfl, -⟩ := ready_trapped hr
      exact hraise { u with draws := d } c v ht (hbook u d u.agenda hu)
  rcases step_cases h with ⟨-, h⟩ | ⟨rest, -, h⟩ | ⟨a, rest, -, h⟩
  · exact hart hs h
  · exact hart (hbook s _ rest hs) h
  · exact hagent a _ t (hbook s _ rest hs) h

/-- Another agent's turn leaves the hart's pc and trap record and the configuration alone. -/
theorem agentTurn_frame {a : AgentAction} {s t : State} (h : agentTurn a s = .next t) :
    t.pc = s.pc ∧ t.trap = s.trap ∧ t.config = s.config := by
  rcases agentTurn_cases h with ⟨src, b, -, rfl⟩ | ⟨cells, -, rfl⟩ | ⟨k, -, rfl⟩ | ⟨event, b, n, -, rfl⟩ |
    ⟨event, b, n, v, -, rfl⟩ | ⟨-, rfl⟩ | ⟨p, q, -, -, rfl⟩
  · exact ⟨rfl, rfl, rfl⟩
  · exact ⟨rfl, rfl, rfl⟩
  · rcases deliverStore_cases s k with e | ⟨_, _, -, -, e⟩ <;> rw [e] <;> exact ⟨rfl, rfl, rfl⟩
  · rcases answerAhead_cases s event b n with e | ⟨_, _, _, -, -, -, -, e⟩ <;> rw [e] <;> exact ⟨rfl, rfl, rfl⟩
  · rcases storeAhead_cases s event b n v with e | ⟨_, _, _, -, -, -, -, e⟩ <;> rw [e] <;> exact ⟨rfl, rfl, rfl⟩
  · exact ⟨rfl, rfl, rfl⟩
  · exact ⟨rfl, rfl, rfl⟩

/-- No instruction changes the configuration. -/
theorem ExecEffect.config_eq {i : Instr} {s t : State} (h : ExecEffect i s t) : t.config = s.config := by
  cases h with
  | own h =>
    obtain ⟨⟨hconfig, -⟩, -⟩ := h.frame
    exact hconfig
  | loads | stores | resumes => rfl

/-- Settles O48: no turn, of the hart or of another agent, changes the configuration. -/
theorem stepKeepsConfiguration : Obligations.StepKeepsConfiguration := by
  intro s t h
  exact step_preserves (P := fun u => u.config = s.config) (fun _ _ _ hu => hu)
    (fun i u v _ hu he => he.config_eq.trans hu) (fun _ _ _ _ hu => hu)
    (fun a u v hu ha => (agentTurn_frame ha).2.2.trans hu) rfl h

/-! ### The pc and the trap record (10_state.md R26, 60_exceptions.md R233) -/

/-- An instruction that completes keeps the trap record and leaves the pc at 4 past its own or at an aligned target; one that raises
halts the hart at its own pc. -/
def MovesPc (s t : State) : Prop :=
  (t.trap = s.trap ∧ (t.pc = s.pc + 4 ∨ t.pc.toNat % 4 = 0)) ∨ (t.pc = s.pc ∧ ∃ c tval, t.trap = some ⟨c, s.pc, tval⟩)

theorem movesPc_raise (s : State) (c : Cause) (tval : Word) : MovesPc s (s.raise c tval) := .inr ⟨rfl, c, tval, rfl⟩

theorem HartEffect.movesPc {s t : State} (h : HartEffect s t) : MovesPc s t := by
  cases h with
  | computes | advances | fences => exact .inl ⟨rfl, .inl rfl⟩
  | jumps _ _ _ ht | goes _ ht => exact .inl ⟨rfl, .inr ht⟩
  | raises c tval => exact movesPc_raise s c tval

theorem ExecEffect.movesPc {i : Instr} {s t : State} (h : ExecEffect i s t) : MovesPc s t := by
  cases h with
  | own h => exact h.movesPc
  | loads | stores | resumes => exact .inl ⟨rfl, .inl rfl⟩

theorem MovesPc.pcAligned {s t : State} (h : MovesPc s t) (hs : PcAligned s) : PcAligned t := by
  unfold PcAligned at *
  rcases h with ⟨-, hpc | hpc⟩ | ⟨hpc, -⟩
  · rw [hpc, show (s.pc + 4).toNat = (s.pc.toNat + 4) % 2 ^ 32 from BitVec.toNat_add ..]; omega
  · exact hpc
  · rw [hpc]; exact hs

theorem MovesPc.trapAtPc {s t : State} (h : MovesPc s t) (hs : s.trap = none) : TrapAtPc t := by
  intro rec hrec
  rcases h with ⟨htrap, -⟩ | ⟨hpc, c, tval, htrap⟩
  · rw [htrap, hs] at hrec; cases hrec
  · rw [htrap] at hrec; cases hrec; exact hpc.symm

/-- Settles O47: an instruction moves the pc as `MovesPc` says, and other agents leave it alone. -/
theorem pcStaysAligned : Obligations.PcStaysAligned := by
  intro s t hs h
  refine step_preserves (P := PcAligned) (fun _ _ _ hu => hu) (fun i u v _ hu he => he.movesPc.pcAligned hu)
    (fun u c tval _ hu => (movesPc_raise u c tval).pcAligned hu) (fun a u v hu ha => ?_) hs h
  rw [PcAligned, (agentTurn_frame ha).1]
  exact hu

/-! ### The PLIC stays legal (60_exceptions.md R254 to R256, R259) -/

/-- Only the state of sources and targets counts. -/
theorem PlicLegal.congr {p : PlicParams} {pl ql : Plic} (h : PlicLegal p pl) (hs : ql.sources = pl.sources)
    (ht : ql.targets = pl.targets) : PlicLegal p ql := by
  rw [PlicLegal, hs, ht]
  exact h

/-- A change of one source that keeps it legal keeps the PLIC legal. -/
theorem PlicLegal.modifySource {p : PlicParams} {pl : Plic} {s : Nat} {f : PlicSource → PlicSource} (h : PlicLegal p pl)
    (hf : ∀ sp ss, sourceParams? p s = some sp → pl.source? s = some ss → SourceLegal sp ss → SourceLegal sp (f ss)) :
    PlicLegal p (pl.modifySource s f) := by
  obtain ⟨hsl, htl, hs, ht⟩ := h
  refine ⟨by rw [Plic.length_sources_modifySource, hsl], by rw [Plic.targets_modifySource, htl], fun k sp ss hsp hss => ?_,
    fun k tp tt htp htt => ht k tp tt htp (by rwa [Plic.targets_modifySource] at htt)⟩
  rw [Plic.getElem?_modifySource] at hss
  split at hss
  · rename_i hk
    subst hk
    obtain ⟨old, hold, rfl⟩ := Option.map_eq_some_iff.1 hss
    exact hf sp old hsp hold (hs k sp old hsp hold)
  · exact hs k sp ss hsp hss

/-- A change of one target that keeps it legal keeps the PLIC legal. -/
theorem PlicLegal.modifyTarget {p : PlicParams} {pl : Plic} {t : Nat} {f : PlicTarget → PlicTarget} (h : PlicLegal p pl)
    (hf : ∀ tp tt, p.targets[t]? = some tp → TargetLegal p.sources.length tp tt → TargetLegal p.sources.length tp (f tt)) :
    PlicLegal p (pl.modifyTarget t f) := by
  obtain ⟨hsl, htl, hs, ht⟩ := h
  refine ⟨hsl, by rw [Plic.length_targets_modifyTarget, htl], hs, fun k tp tt htp htt => ?_⟩
  rw [Plic.getElem?_modifyTarget] at htt
  split at htt
  · rename_i hk
    subst hk
    obtain ⟨old, hold, rfl⟩ := Option.map_eq_some_iff.1 htt
    exact hf tp old htp (ht t tp old htp hold)
  · exact ht k tp tt htp htt

/-! #### One source -/

/-- An idle gateway may forward a request. -/
theorem sourceLegal_forward {sp : SourceParams} {ss : PlicSource} (hprio : WarlMask.legalise sp.prio ss.prio = ss.prio)
    (htoken : ss.ip.toNat + ss.requests + ss.claimedBy.isSome.toNat = ss.busy.toNat)
    (hcnt : sp.gateway ≠ .edgeCounting → ss.cnt = 0) (hb : ss.busy = false) : SourceLegal sp ss.forward := by
  refine ⟨hprio, ?_, fun _ => rfl, hcnt⟩
  rw [hb, Bool.toNat_false] at htoken
  rw [PlicSource.ip_forward, PlicSource.requests_forward, PlicSource.claimedBy_forward, PlicSource.busy_forward,
    Bool.toNat_true]
  omega

/-- A gateway that settles is legal, if it was but for something to forward. -/
theorem sourceLegal_settle {sp : SourceParams} {ss : PlicSource} (hprio : WarlMask.legalise sp.prio ss.prio = ss.prio)
    (htoken : ss.ip.toNat + ss.requests + ss.claimedBy.isSome.toNat = ss.busy.toNat)
    (hcnt : sp.gateway ≠ .edgeCounting → ss.cnt = 0) : SourceLegal sp (ss.settle sp.gateway) := by
  rcases ss.settle_cases sp.gateway with ⟨-, hb, e⟩ | ⟨hw, e⟩ <;> rw [e]
  · exact sourceLegal_forward hprio htoken hcnt hb
  · exact ⟨hprio, htoken, fun h => hw.resolve_left (by simp [h]), hcnt⟩

/-- The line may move: a level gateway settles, the others do not read it. -/
theorem SourceLegal.setLevel {sp : SourceParams} {ss : PlicSource} (h : SourceLegal sp ss) (asserted : Bool) :
    SourceLegal sp (ss.setLevel sp.gateway asserted) := by
  obtain ⟨hprio, htoken, -, hcnt⟩ := id h
  cases hg : sp.gateway with
  | level =>
    rw [PlicSource.setLevel, ← hg]
    exact sourceLegal_settle hprio htoken hcnt
  | edgeIgnoring | edgeCounting => exact h

/-- An edge is counted or forwarded, or lost. -/
theorem SourceLegal.edge {sp : SourceParams} {ss : PlicSource} (h : SourceLegal sp ss) :
    SourceLegal sp (ss.edge sp.gateway) := by
  obtain ⟨hprio, htoken, -, hcnt⟩ := id h
  cases hg : sp.gateway with
  | level => exact h
  | edgeIgnoring =>
    rw [PlicSource.edge]
    cases hb : ss.busy with
    | true => exact h
    | false => exact sourceLegal_forward hprio htoken hcnt hb
  | edgeCounting =>
    rw [PlicSource.edge, ← hg]
    exact sourceLegal_settle hprio htoken fun hn => absurd hg hn

/-- An accepted request moves from the queue to the IP bit. -/
theorem SourceLegal.accept {sp : SourceParams} {ss : PlicSource} (h : SourceLegal sp ss) :
    SourceLegal sp (ss.accept sp.gateway) := by
  obtain ⟨hprio, htoken, -, hcnt⟩ := id h
  unfold PlicSource.accept
  split
  · rename_i hc
    obtain ⟨hreq, hip⟩ := hc
    rw [hip, Bool.toNat_false] at htoken
    have hle := ss.busy.toNat_le
    have hbusy : ss.busy = true := Bool.toNat_eq_one.1 (by omega)
    refine ⟨hprio, ?_, fun _ => hbusy, fun hg => ?_⟩
    · change 1 + (ss.requests - 1) + ss.claimedBy.isSome.toNat = ss.busy.toNat
      omega
    · rw [if_neg hg]
      exact hcnt hg
  · exact h

/-- A claimed request moves from the IP bit to its claim. -/
theorem SourceLegal.claim {sp : SourceParams} {ss : PlicSource} (h : SourceLegal sp ss) (hip : ss.ip = true) (t : Nat) :
    SourceLegal sp { ss with ip := false, claimedBy := some t } := by
  obtain ⟨hprio, htoken, hwants, hcnt⟩ := h
  refine ⟨hprio, ?_, ?_, hcnt⟩
  · have hle := ss.busy.toNat_le
    rw [hip, Bool.toNat_true] at htoken
    change 0 + ss.requests + 1 = ss.busy.toNat
    omega
  · cases hg : sp.gateway <;> rw [hg] at hwants <;> exact hwants

/-- A completed request is gone, and the gateway settles. -/
theorem SourceLegal.release {sp : SourceParams} {ss : PlicSource} (h : SourceLegal sp ss) (hc : ss.claimedBy.isSome = true) :
    SourceLegal sp (ss.release sp.gateway) := by
  obtain ⟨hprio, htoken, -, hcnt⟩ := h
  refine sourceLegal_settle hprio ?_ hcnt
  have hle := ss.busy.toNat_le
  rw [hc, Bool.toNat_true] at htoken
  change ss.ip.toNat + ss.requests + 0 = 0
  omega

/-- A priority register takes a legal value. -/
theorem SourceLegal.setPrio {sp : SourceParams} {ss : PlicSource} (h : SourceLegal sp ss) (v : Word) :
    SourceLegal sp { ss with prio := WarlMask.legalise sp.prio v } := by
  obtain ⟨-, htoken, hwants, hcnt⟩ := h
  refine ⟨WarlMask.legalise_legalise sp.prio v, htoken, ?_, hcnt⟩
  cases hg : sp.gateway <;> rw [hg] at hwants <;> exact hwants

/-! #### One target -/

/-- An enable register takes legal bits. -/
theorem TargetLegal.writeEnables {n : Nat} {tp : TargetParams} {tt : PlicTarget} (h : TargetLegal n tp tt) (first count : Nat)
    (v : Word) : TargetLegal n tp { tt with ie := writeEnables tp first count v tt.ie } := by
  obtain ⟨hlen, hie, hthr⟩ := h
  refine ⟨by simpa [Machine.writeEnables] using hlen, fun k b hb => ?_, hthr⟩
  obtain ⟨old, hold, rfl⟩ := Option.map_eq_some_iff.1 (List.getElem?_mapIdx.symm.trans hb)
  split
  · exact legalEnable_legalEnable ..
  · exact hie k old hold

/-- A threshold register takes a legal value. -/
theorem TargetLegal.setThreshold {n : Nat} {tp : TargetParams} {tt : PlicTarget} (h : TargetLegal n tp tt) (draw t : Nat)
    (v : Word) : TargetLegal n tp { tt with thr := legalThreshold tp.thr draw t v } := by
  obtain ⟨hlen, hie, hthr⟩ := h
  exact ⟨hlen, hie, inRanges_legalThreshold hthr draw t v⟩

/-! #### The actions -/

section
variable {p : PlicParams} {pl : Plic}

/-- An active source is pending (60_exceptions.md R257). -/
theorem Plic.ip_of_active {t s : Nat} {ss : PlicSource} (ha : pl.active t s = true) (hs : pl.source? s = some ss) :
    ss.ip = true := by
  rw [Plic.active, hs] at ha
  cases ht : pl.targets[t]? with
  | none => rw [ht] at ha; cases ha
  | some tt => rw [ht] at ha; exact (Bool.and_eq_true_iff.1 ha).1

theorem PlicLegal.claim (h : PlicLegal p pl) (t : Nat) : PlicLegal p (pl.claim t).2 := by
  rcases pl.claim_cases t with ⟨-, e⟩ | ⟨s, hs, -, e⟩ <;> rw [e]
  · exact h
  · refine h.modifySource fun sp ss _ hss hl => hl.claim ?_ t
    obtain ⟨-, hactive, -⟩ := Plic.mem_candidates.1 hs
    exact Plic.ip_of_active hactive hss

theorem PlicLegal.respond (h : PlicLegal p pl) (t : Nat) : PlicLegal p (pl.respond t) :=
  (h.claim t).modifyTarget fun _ _ _ hl => hl

theorem PlicLegal.processClaim (h : PlicLegal p pl) : PlicLegal p pl.processClaim := by
  unfold Plic.processClaim
  split
  · exact h
  · rename_i t rest _
    exact (h.congr (ql := { pl with claims := rest }) rfl rfl).respond t

theorem PlicLegal.foldl_respond : ∀ (l : List Nat) {pl : Plic}, PlicLegal p pl → PlicLegal p (l.foldl Plic.respond pl)
  | [], _, h => h
  | t :: l, _, h => PlicLegal.foldl_respond l (h.respond t)

theorem PlicLegal.drainClaims (h : PlicLegal p pl) : PlicLegal p pl.drainClaims :=
  PlicLegal.foldl_respond _ (h.congr rfl rfl)

/-- Of the register loads only a claim changes the PLIC. -/
theorem PlicLegal.readReg (h : PlicLegal p pl) (reg : PlicReg) : PlicLegal p (pl.readReg reg).2 := by
  cases reg with
  | claimComplete t => exact h.drainClaims.claim t
  | _ => exact h

/-- A message that arrives waits in a queue. -/
theorem PlicLegal.receive_all (h : PlicLegal p pl) (l : List PostedStore) : PlicLegal p (l.foldl Plic.receive pl) := by
  obtain ⟨hs, ht, -⟩ := foldl_receive l pl
  exact h.congr hs ht

theorem PlicLegal.receive (h : PlicLegal p pl) (q : PostedStore) : PlicLegal p (pl.receive q) := h.receive_all [q]

theorem PlicLegal.applyWrite (h : PlicLegal p pl) (draw : Nat) (w : PlicWrite) : PlicLegal p (pl.applyWrite p draw w) := by
  unfold Plic.applyWrite
  cases w.reg with
  | priority s =>
    dsimp only
    split
    case h_2 => exact h
    case h_1 sp hsp =>
      refine h.modifySource fun sp' ss hsp' _ hl => ?_
      obtain rfl := Option.some.inj (hsp.symm.trans hsp')
      exact hl.setPrio w.value
  | enable t first count =>
    dsimp only
    split
    case h_2 => exact h
    case h_1 tp htp =>
      refine h.modifyTarget fun tp' tt htp' hl => ?_
      obtain rfl := Option.some.inj (htp.symm.trans htp')
      exact hl.writeEnables first count w.value
  | threshold t =>
    dsimp only
    split
    case h_2 => exact h
    case h_1 tp htp =>
      refine h.modifyTarget fun tp' tt htp' hl => ?_
      obtain rfl := Option.some.inj (htp.symm.trans htp')
      exact hl.setThreshold draw t w.value
  | pending | claimComplete => exact h

theorem PlicLegal.writeRegister (h : PlicLegal p pl) (draw : Nat) : PlicLegal p (pl.writeRegister p draw) := by
  unfold Plic.writeRegister
  split
  · exact h
  · rename_i w rest _
    exact (h.congr (ql := { pl with writes := rest }) rfl rfl).applyWrite draw w

/-- A gateway operation keeps the PLIC legal if it keeps the source it works on legal. -/
theorem PlicLegal.atGateway {s : Nat} {f : PlicSource → Gateway → PlicSource} (h : PlicLegal p pl)
    (hf : ∀ sp ss, pl.source? s = some ss → SourceLegal sp ss → SourceLegal sp (f ss sp.gateway)) :
    PlicLegal p (pl.atGateway p s f) := by
  unfold Plic.atGateway
  split
  · rename_i sp hsp
    refine h.modifySource fun sp' ss hsp' hss hl => ?_
    obtain rfl := Option.some.inj (hsp.symm.trans hsp')
    exact hf sp ss hss hl
  · exact h

/-- A completion that is not refused is ignored or releases the gateway of a claimed source. -/
theorem PlicLegal.complete {ql : Plic} {t s : Nat} (h : PlicLegal p pl) (hq : pl.complete p t s = .ok ql) :
    PlicLegal p ql := by
  unfold Plic.complete at hq
  split at hq
  · rename_i tt ss htt hss
    split at hq
    · cases hq; exact h
    · split at hq
      · rename_i hclaimed
        cases hq
        refine h.atGateway fun sp ss' hss' hl => hl.release ?_
        obtain rfl := Option.some.inj (hss.symm.trans hss')
        exact hclaimed ▸ rfl
      · cases hq
  · cases hq

theorem PlicLegal.deliverCompletion {ql : Plic} (h : PlicLegal p pl) (hq : pl.deliverCompletion p = .ok ql) :
    PlicLegal p ql := by
  unfold Plic.deliverCompletion at hq
  split at hq
  · cases hq; exact h
  · rename_i rest _
    exact (h.congr (ql := { pl with completions := rest }) rfl rfl).complete hq

/-- Every action keeps the PLIC legal. -/
theorem PlicLegal.plicAct {ql : Plic} {draw : Nat} {a : AgentAction} (h : PlicLegal p pl)
    (hq : plicAct p draw pl a = .ok ql) : PlicLegal p ql := by
  cases a with
  | deliverCompletion => exact h.deliverCompletion hq
  | memoryWrite | localLevel | deliverStore | answerAhead | storeAhead => cases hq; exact h
  | sourceLevel s asserted => cases hq; exact h.atGateway fun sp ss _ hl => hl.setLevel asserted
  | sourceEdge s => cases hq; exact h.atGateway fun sp ss _ hl => hl.edge
  | acceptRequest s => cases hq; exact h.atGateway fun sp ss _ hl => hl.accept
  | writeRegister => cases hq; exact h.writeRegister draw
  | processClaim => cases hq; exact h.processClaim
  | notifyTarget t => cases hq; exact h.modifyTarget fun _ _ _ hl => hl
  | sendClaim t => cases hq; exact h.congr rfl rfl
  | busWrite reg v => cases hq; exact h.receive ⟨reg, v, 0⟩
  | takeResponse t => cases hq; exact h.modifyTarget fun _ _ _ hl => hl

end

/-! ### The parts of the invariant -/

/-- With a PLIC the invariant asks that it be legal. -/
theorem plicInv_iff {s : State} {p : PlicParams} (hp : s.config.plic = some p) : PlicInv s ↔ PlicLegal p s.plic := by
  rw [PlicInv, hp]

/-- What keeps a PLIC legal keeps the PLIC part of the invariant. -/
theorem PlicInv.map {s t : State} {p : PlicParams} (h : PlicInv s) (hp : s.config.plic = some p) (hc : t.config = s.config)
    (hq : PlicLegal p s.plic → PlicLegal p t.plic) : PlicInv t :=
  (plicInv_iff (hc ▸ hp)).2 (hq ((plicInv_iff hp).1 h))

theorem PlicInv.congr {s t : State} (h : PlicInv s) (hc : t.config = s.config) (hp : t.plic = s.plic) : PlicInv t := by
  rw [PlicInv, hc, hp]
  exact h

/-- What the PLIC is after a load. -/
theorem PlicInv.readValue {s : State} (h : PlicInv s) (a : Word) (n : Nat) :
    PlicInv { s with plic := (readValue s a n).plic } := by
  cases hreg : plicAccess s a n with
  | none => exact h.congr rfl (by simp [Machine.readValue, hreg])
  | some r =>
    obtain ⟨p, reg⟩ := r
    rw [readValue_plic hreg]
    rcases plicLoad_cases s reg a n with ⟨e, -, he⟩ | ⟨-, he⟩ <;> rw [he]
    · exact h
    · exact h.map (config_of_plicAccess hreg) rfl fun hl => (hl.receive_all _).readReg reg

/-- Stores may leave the way to the PLIC while the history grows. -/
theorem PostedInOrder.mono {s t : State} (h : PostedInOrder s) (hp : t.posted.Sublist s.posted)
    (he : s.events.length ≤ t.events.length) : PostedInOrder t := by
  obtain ⟨hord, hlt⟩ := h
  exact ⟨hord.sublist hp, fun q hq => (hlt q (hp.subset hq)).trans_le he⟩

/-- The store that enters the history may join them. -/
theorem PostedInOrder.append {s t : State} {q : PostedStore} (h : PostedInOrder s) (hp : t.posted = s.posted ++ [q])
    (hq : q.event = s.events.length) (he : t.events.length = s.events.length + 1) : PostedInOrder t := by
  obtain ⟨hord, hlt⟩ := h
  rw [PostedInOrder, hp, he]
  refine ⟨List.pairwise_append.2 ⟨hord, List.pairwise_singleton _ _, fun r hr e he => ?_⟩, fun r hr => ?_⟩
  · rw [List.mem_singleton.1 he, hq]
    exact hlt r hr
  · rcases List.mem_append.1 hr with hr | hr
    · exact (hlt r hr).trans (Nat.lt_succ_self _)
    · rw [List.mem_singleton.1 hr, hq]
      exact Nat.lt_succ_self _

theorem EarlyOnce.mono {s t : State} (h : EarlyOnce s) (ha : t.ahead.Sublist s.ahead) : EarlyOnce t :=
  (ha.map EarlyAccess.event).nodup h

/-- An access may be seen ahead if none of its event has been. -/
theorem EarlyOnce.append {s t : State} {e : EarlyAccess} (h : EarlyOnce s) (ha : t.ahead = s.ahead ++ [e])
    (he : ∀ f ∈ s.ahead, f.event ≠ e.event) : EarlyOnce t := by
  rw [EarlyOnce, ha, List.map_append]
  refine List.Nodup.append h (List.nodup_singleton _) fun k hk hk' => ?_
  obtain ⟨f, hf, rfl⟩ := List.mem_map.1 hk
  exact he f hf (List.mem_singleton.1 hk')

/-- A load adds nothing to the hart's accesses on their way. -/
theorem readValue_sublist (s : State) (a : Word) (n : Nat) :
    (readValue s a n).posted.Sublist s.posted ∧ (readValue s a n).ahead.Sublist s.ahead := by
  cases hreg : plicAccess s a n with
  | none => simp [readValue, hreg]
  | some r =>
    obtain ⟨p, reg⟩ := r
    rw [readValue_plic hreg]
    rcases plicLoad_cases s reg a n with ⟨e, -, he⟩ | ⟨-, he⟩ <;> rw [he]
    · exact ⟨List.Sublist.refl _, List.filter_sublist⟩
    · exact ⟨sublist_splitPosted .., List.Sublist.refl _⟩

theorem PostedInOrder.afterStore {s : State} (h : PostedInOrder s) (a : Word) (n : Nat) (v : Word) :
    PostedInOrder (s.afterStore a n v) := by
  have hlen : (s.afterStore a n v).events.length = s.events.length + 1 := by simp [State.afterStore]
  have stay (hp : postedAfterStore s a n v = s.posted) : PostedInOrder (s.afterStore a n v) :=
    h.mono (hp ▸ List.Sublist.refl _) (hlen ▸ Nat.le_succ _)
  cases hreg : plicAccess s a n with
  | none => exact stay (postedAfterStore_memory v hreg)
  | some r =>
    obtain ⟨p, reg⟩ := r
    cases hs : s.seenStore a n v with
    | true => exact stay (afterStore_seen hreg hs).1
    | false => exact h.append (postedAfterStore_plic hreg hs) rfl hlen

theorem aheadAfterStore_sublist (s : State) (a : Word) (n : Nat) (v : Word) :
    (aheadAfterStore s a n v).Sublist s.ahead := by
  unfold aheadAfterStore
  split
  · exact List.filter_sublist
  · exact List.Sublist.refl _

/-- A pending bit is listed once, whether it is set or cleared. -/
theorem nodup_setPending {pending : List LocalSource} (h : pending.Nodup) (src : LocalSource) (asserted : Bool) :
    (setPending pending src asserted).Nodup := by
  unfold setPending
  split
  · split
    · exact h
    · rename_i hc
      exact List.nodup_cons.2 ⟨by simpa using hc, h⟩
  · exact h.filter _

/-! ### The invariant -/

/-- An effect of the instruction's own keeps the invariant of a running hart. -/
theorem HartEffect.stateInv {s t : State} (he : HartEffect s t) (ht : s.trap = none) (h : StateInv s) : StateInv t := by
  obtain ⟨hconf, hmem, hpc, -, hplic, hlocal, hposted, hearly⟩ := h
  obtain ⟨⟨ec, ep, eposted, eahead, elocal, -⟩, emem, -, -, hlen⟩ := he.frame
  exact ⟨ec ▸ hconf, emem ▸ hmem, he.movesPc.pcAligned hpc, he.movesPc.trapAtPc ht, hplic.congr ec ep, elocal ▸ hlocal,
    hposted.mono (eposted ▸ List.Sublist.refl _) hlen, hearly.mono (eahead ▸ List.Sublist.refl _)⟩

/-- So does every instruction. -/
theorem ExecEffect.stateInv {i : Instr} {s t : State} (he : ExecEffect i s t) (ht : s.trap = none) (h : StateInv s) :
    StateInv t := by
  obtain ⟨hconf, hmem, hpc, -, hplic, hlocal, hposted, hearly⟩ := id h
  have hpc' := he.movesPc.pcAligned hpc
  have htrap' := he.movesPc.trapAtPc ht
  cases he with
  | own he => exact he.stateInv ht h
  | loads _ rd a n extend =>
    obtain ⟨hps, has⟩ := readValue_sublist s a n
    exact ⟨hconf, hmem, hpc', htrap', hplic.readValue a n, hlocal, hposted.mono hps (by simp [State.afterLoad]),
      hearly.mono has⟩
  | stores _ a n v =>
    exact ⟨hconf, wf_store_mem a n v hmem, hpc', htrap', hplic, hlocal, hposted.afterStore a n v,
      hearly.mono (aheadAfterStore_sublist s a n v)⟩
  | resumes _ _ reply => exact ⟨hconf, wf_service_mem reply hmem, hpc', htrap', hplic, hlocal, hposted, hearly⟩

theorem StateInv.deliverStore {s : State} (h : StateInv s) (k : Nat) : StateInv (s.deliverStore k) := by
  rcases deliverStore_cases s k with e | ⟨p, q, hp, -, e⟩ <;> rw [e]
  · exact h
  · obtain ⟨hconf, hmem, hpc, htrap, hplic, hlocal, hposted, hearly⟩ := h
    exact ⟨hconf, hmem, hpc, htrap, hplic.map hp rfl fun hl => hl.receive q, hlocal,
      hposted.mono (List.eraseIdx_sublist _ _) (Nat.le_refl _), hearly⟩

/-- An access that the PLIC sees ahead leaves the PLIC legal and is the only one of its event. -/
theorem StateInv.seeAhead {s : State} {p : PlicParams} {ql : Plic} {e : EarlyAccess} (h : StateInv s)
    (hp : s.config.plic = some p) (hq : PlicLegal p s.plic → PlicLegal p ql) (he : ∀ f ∈ s.ahead, f.event ≠ e.event) :
    StateInv { s with plic := ql, ahead := s.ahead ++ [e] } := by
  obtain ⟨hconf, hmem, hpc, htrap, hplic, hlocal, hposted, hearly⟩ := h
  exact ⟨hconf, hmem, hpc, htrap, hplic.map hp rfl hq, hlocal, hposted, hearly.append rfl he⟩

theorem StateInv.answerAhead {s : State} (h : StateInv s) (event : Nat) (a : Word) (n : Nat) :
    StateInv (s.answerAhead event a n) := by
  rcases answerAhead_cases s event a n with e | ⟨p, reg, acc, hreg, -, hne, rfl, e⟩ <;> rw [e]
  · exact h
  · exact h.seeAhead (config_of_plicAccess hreg) (fun hl => hl.readReg reg) hne

theorem StateInv.storeAhead {s : State} (h : StateInv s) (event : Nat) (a : Word) (n : Nat) (v : Word) :
    StateInv (s.storeAhead event a n v) := by
  rcases storeAhead_cases s event a n v with e | ⟨p, reg, acc, hreg, -, hne, rfl, e⟩ <;> rw [e]
  · exact h
  · exact h.seeAhead (config_of_plicAccess hreg) (fun hl => hl.receive _) hne

/-- Every turn of another agent keeps the invariant. -/
theorem agentTurn_stateInv {a : AgentAction} {s t : State} (h : StateInv s) (ha : agentTurn a s = .next t) : StateInv t := by
  obtain ⟨hconf, hmem, hpc, htrap, hplic, hlocal, hposted, hearly⟩ := id h
  rcases agentTurn_cases ha with ⟨src, b, -, rfl⟩ | ⟨cells, -, rfl⟩ | ⟨k, -, rfl⟩ | ⟨event, b, n, -, rfl⟩ |
    ⟨event, b, n, v, -, rfl⟩ | ⟨-, rfl⟩ | ⟨p, q, hp, hq, rfl⟩
  · exact ⟨hconf, hmem, hpc, htrap, hplic, nodup_setPending hlocal src b, hposted, hearly⟩
  · exact ⟨hconf, Memory.wf_writeAll_mainCells _ cells hmem, hpc, htrap, hplic, hlocal, hposted, hearly⟩
  · exact h.deliverStore k
  · exact h.answerAhead event b n
  · exact h.storeAhead event b n v
  · exact h
  · exact ⟨hconf, hmem, hpc, htrap, hplic.map hp rfl fun hl => hl.plicAct hq, hlocal, hposted, hearly⟩

/-- Settles O44: what an instruction does, an exception before one, and another agent's turn each keep the invariant. -/
theorem stepKeepsInvariant : Obligations.StepKeepsInvariant := by
  intro s t hs h
  exact step_preserves (P := StateInv) (fun _ _ _ hu => hu) (fun i u v ht hu he => he.stateInv ht hu)
    (fun u c tval ht hu => (HartEffect.raises c tval).stateInv ht hu) (fun a u v hu ha => agentTurn_stateInv hu ha) hs h

/-- Settles O45: the default configuration is well-formed, and a hart that has done nothing has nothing pending. -/
theorem resetHasInvariant : Obligations.ResetHasInvariant := by
  have hconf : Config.wf State.reset.config = true := by decide
  have htrap : TrapAtPc State.reset := fun _ h => nomatch h
  have hposted : PostedInOrder State.reset := ⟨List.Pairwise.nil, fun _ h => nomatch h⟩
  exact ⟨hconf, Memory.wf_reset, rfl, htrap, rfl, List.nodup_nil, hposted, List.nodup_nil⟩

end Sys2Proof.Machine

/-! The proofs of the statements about 20_memory.md: the canonical memory, the checks of an access, what a load reads back, a fetch
of stored bytes, and the order in which the PLIC sees the hart's accesses. -/

namespace Sys2Proof.Machine

/-! ### Launches without a meaning (20_memory.md R62) -/

theorem hartTurn_of_severalHarts {s : State} (ht : s.trap = none) (hh : s.config.numHarts ≠ 1) :
    hartTurn s = .refused .severalHarts := by simp [hartTurn, ready, ht, hh]

theorem hartTurn_of_interrupts {s : State} (ht : s.trap = none) (hh : s.config.numHarts = 1)
    (hi : s.config.interrupts = true) : hartTurn s = .refused .interruptsEnabled := by simp [hartTurn, ready, ht, hh, hi]

/-- Settles O42: the hart's turn asks for one hart and no interrupts before it fetches. -/
theorem launchesWithoutMeaningAreRefused : Obligations.LaunchesWithoutMeaningAreRefused := by
  intro s ht ha
  rw [step_of_agenda_nil ha]
  exact ⟨hartTurn_of_severalHarts ht, hartTurn_of_interrupts ht⟩

/-! ### The canonical form (20_memory.md R40) -/

/-- What a canonical memory with a first cell is: the cell is listed rightly, and the rest begins after it. -/
theorem Memory.wfFrom_cons {low k : Nat} {b : Byte} {rest : List Host.Cell} :
    Memory.wfFrom low ((k, b) :: rest) = true ↔
      low ≤ k ∧ k < 4294967296 ∧ b ≠ unlistedByte ∧ Memory.wfFrom (k + 1) rest = true := by
  simp only [Memory.wfFrom, Bool.and_eq_true, decide_eq_true_eq, bne_iff_ne, and_assoc]

/-- The first cell's address reads as its byte, which no unlisted address does. -/
theorem Memory.read_head_ne {low k : Nat} {b : Byte} {rest : List Host.Cell}
    (h : Memory.wfFrom low ((k, b) :: rest) = true) : Memory.read ((k, b) :: rest) k ≠ unlistedByte := by
  obtain ⟨-, -, hb, -⟩ := Memory.wfFrom_cons.1 h
  simpa [Memory.read] using hb

/-- Of canonical memories that read alike, neither begins later than the other. -/
theorem Memory.head_le {low low' k k' : Nat} {b b' : Byte} {rest rest' : List Host.Cell}
    (h : Memory.wfFrom low ((k, b) :: rest) = true) (h' : Memory.wfFrom low' ((k', b') :: rest') = true)
    (heq : ∀ a, Memory.read ((k, b) :: rest) a = Memory.read ((k', b') :: rest') a) : k' ≤ k := by
  by_contra hlt
  obtain ⟨-, hk, hb, hr⟩ := Memory.wfFrom_cons.1 h'
  have hfrom : Memory.wfFrom k' ((k', b') :: rest') = true := Memory.wfFrom_cons.2 ⟨Nat.le_refl _, hk, hb, hr⟩
  exact Memory.read_head_ne h ((heq k).trans (Memory.read_below hfrom (by omega)))

/-- The rests of two canonical memories with the same first cell read alike if the memories do. -/
theorem Memory.read_tail_eq {k : Nat} {b : Byte} {rest rest' : List Host.Cell} (h : Memory.wfFrom (k + 1) rest = true)
    (h' : Memory.wfFrom (k + 1) rest' = true)
    (heq : ∀ a, Memory.read ((k, b) :: rest) a = Memory.read ((k, b) :: rest') a) (a : Nat) :
    Memory.read rest a = Memory.read rest' a := by
  by_cases ha : k = a
  · rw [Memory.read_below h (by omega), Memory.read_below h' (by omega)]
  · simpa [Memory.read, ha] using heq a

/-- Canonical memories that read alike are equal. -/
theorem Memory.eq_of_read_eq : ∀ {m m' : List Host.Cell} {low low' : Nat}, Memory.wfFrom low m = true →
    Memory.wfFrom low' m' = true → (∀ a, Memory.read m a = Memory.read m' a) → m = m'
  | [], [], _, _, _, _, _ => rfl
  | [], (k, _) :: _, _, _, _, h', heq => absurd (heq k).symm (Memory.read_head_ne h')
  | (k, _) :: _, [], _, _, h, _, heq => absurd (heq k) (Memory.read_head_ne h)
  | (k, b) :: rest, (k', b') :: rest', _, _, h, h', heq => by
    have hk : k = k' := Nat.le_antisymm (Memory.head_le h' h fun a => (heq a).symm) (Memory.head_le h h' heq)
    subst hk
    have hb : b = b' := by simpa [Memory.read] using heq k
    subst hb
    obtain ⟨-, -, -, hr⟩ := Memory.wfFrom_cons.1 h
    obtain ⟨-, -, -, hr'⟩ := Memory.wfFrom_cons.1 h'
    rw [Memory.eq_of_read_eq hr hr' (Memory.read_tail_eq hr hr' heq)]

/-- Settles O31: the form is unique by induction on the two lists, and the rules for a write say the rest. -/
theorem canonicalMemory : Obligations.CanonicalMemory :=
  ⟨fun _ _ => Memory.eq_of_read_eq,
    fun m _ b hm ha => ⟨Memory.wf_write b hm ha, Memory.read_write_self b hm, fun _ hc => Memory.read_write_ne b hc m⟩⟩

/-! ### The memory map (20_memory.md R52) -/

theorem Region.holds_iff {r : Region} {b : Nat} : Region.holds r b = true ↔ r.base ≤ b ∧ b < r.base + r.size := by
  simp [Region.holds]

theorem all_accessAddrs {a : Word} {n : Nat} {f : Nat → Bool} :
    (accessAddrs a n).all f = true ↔ ∀ j, j < n → f (byteAddr a j) = true := by simp [accessAddrs]

theorem any_accessAddrs {a : Word} {n : Nat} {f : Nat → Bool} :
    (accessAddrs a n).any f = true ↔ ∃ j, j < n ∧ f (byteAddr a j) = true := by simp [accessAddrs]

theorem Region.hasWidth_iff {r : Region} {n : Nat} (hn : n = 1 ∨ n = 2 ∨ n = 4) : Region.hasWidth r n = true ↔
    (n = 1 → r.width1 = true) ∧ (n = 2 → r.width2 = true) ∧ (n = 4 → r.width4 = true) := by
  rcases hn with rfl | rfl | rfl <;> simp [Region.hasWidth]

/-- What a region that permits a load or a store has. -/
theorem Region.permits_iff {r : Region} {n : Nat} {k : Access} (hn : n = 1 ∨ n = 2 ∨ n = 4) (hk : k = .load ∨ k = .store) :
    Region.permits r n k = true ↔ (k = .load → r.load = true) ∧ (k = .store → r.store = true) ∧
      (n = 1 → r.width1 = true) ∧ (n = 2 → r.width2 = true) ∧ (n = 4 → r.width4 = true) := by
  rw [← Region.hasWidth_iff hn]
  rcases hk with rfl | rfl <;> simp [Region.permits, and_comm]

/-- What a region that permits a fetch has. -/
theorem Region.permits_fetch_iff {r : Region} :
    Region.permits r 4 .fetch = true ↔ r.fetch = true ∧ r.kind = .main ∧ r.width4 = true := by
  simp only [Region.permits, Region.hasWidth, Bool.and_eq_true, beq_iff_eq]
  tauto

theorem mapAllows_iff {regions : List Region} {a : Word} {n : Nat} {k : Access} : mapAllows regions a n k = true ↔
    ∃ r ∈ regions, Region.permits r n k = true ∧ ∀ j, j < n → r.base ≤ byteAddr a j ∧ byteAddr a j < r.base + r.size := by
  simp only [mapAllows, List.any_eq_true, Bool.and_eq_true, all_accessAddrs, Region.holds_iff]

theorem mapAllowsSpanning_iff {regions : List Region} {a : Word} {n : Nat} {k : Access} :
    mapAllowsSpanning regions a n k = true ↔
      ∃ r ∈ regions, ∃ q ∈ regions, Region.permits r n k = true ∧ Region.permits q n k = true ∧
        ∀ j, j < n → (r.base ≤ byteAddr a j ∧ byteAddr a j < r.base + r.size) ∨
          (q.base ≤ byteAddr a j ∧ byteAddr a j < q.base + q.size) := by
  simp only [mapAllowsSpanning, List.any_eq_true, Bool.and_eq_true, all_accessAddrs, Bool.or_eq_true, Region.holds_iff]
  exact ⟨fun ⟨r, hr, hp, q, hq, hp', h⟩ => ⟨r, hr, q, hq, hp, hp', h⟩,
    fun ⟨r, hr, q, hq, hp, hp', h⟩ => ⟨r, hr, hp, q, hq, hp', h⟩⟩

/-! ### Checks of an access (20_memory.md R46 to R48) -/

/-- The check against the map: `allowed`, or the access fault of its kind. -/
def faultUnless (k : Access) (allowed : Bool) : Option Cause := if allowed then none else some (accessFaultCause k)

theorem faultUnless_cases (k : Access) (allowed : Bool) :
    (faultUnless k allowed = none ∨ faultUnless k allowed = some (accessFaultCause k)) ∧
      (faultUnless k allowed = none ↔ allowed = true) := by
  cases allowed <;> simp [faultUnless]

theorem checkAccess_aligned {a : Word} {n : Nat} (s : State) (k : Access) (h : a.toNat % n = 0) :
    checkAccess s a n k = faultUnless k (mapAllows s.config.memMap a n k) := by
  rw [checkAccess, if_pos ((isAligned_iff a n).2 h), faultUnless]

theorem misalignedOutcome_always {s : State} {o : MisalignedOutcome} (h : s.config.misaligned = .always o) (a : Word) (n : Nat) :
    misalignedOutcome s a n = o := by simp [misalignedOutcome, h]

/-- What a misaligned access does, by the outcome chosen for it. -/
theorem checkAccess_misaligned {a : Word} {n : Nat} (s : State) (k : Access) (h : a.toNat % n ≠ 0) :
    (misalignedOutcome s a n = .trapMisaligned → checkAccess s a n k = some (misalignedCause k)) ∧
    (misalignedOutcome s a n = .trapAccessFault → checkAccess s a n k = some (accessFaultCause k)) ∧
    (misalignedOutcome s a n = .support →
      checkAccess s a n k = faultUnless k (mapAllowsSpanning s.config.memMap a n k)) := by
  have ha : ¬isAligned a n = true := fun e => h ((isAligned_iff a n).1 e)
  refine ⟨fun ho => ?_, fun ho => ?_, fun ho => ?_⟩ <;> simp only [checkAccess, if_neg ha, ho, faultUnless]

/-- A check looks at the map and at the outcome of a misaligned access only. -/
theorem checkAccess_congr {s t : State} {a : Word} {n : Nat} (k : Access) (hm : t.config.memMap = s.config.memMap)
    (ho : misalignedOutcome t a n = misalignedOutcome s a n) : checkAccess t a n k = checkAccess s a n k := by
  simp only [checkAccess, hm, ho]

/-- Settles O21: the check by alignment and outcome, with what the map allows said region by region. -/
theorem accessChecksInOrder : Obligations.AccessChecksInOrder := by
  refine ⟨fun s a n k misaligned fault hn hk => ?_, fun regions a => ?_⟩
  · obtain ⟨hload, rfl, rfl⟩ : (k = .load ∨ k = .store) ∧ misaligned = misalignedCause k ∧ fault = accessFaultCause k := by
      rcases hk with ⟨rfl, rfl, rfl⟩ | ⟨rfl, rfl, rfl⟩
      · exact ⟨.inl rfl, rfl, rfl⟩
      · exact ⟨.inr rfl, rfl, rfl⟩
    intro permitted inside
    have hp (r : Region) : Region.permits r n k = true ↔ permitted r := Region.permits_iff hn hload
    refine ⟨fun ha => ?_, fun ha => ?_⟩
    · simp only [← hp, inside]
      rw [checkAccess_aligned s k ha, ← mapAllows_iff]
      exact faultUnless_cases ..
    · obtain ⟨htrap, hfault, hsupport⟩ := checkAccess_misaligned s k ha
      refine ⟨fun h => htrap (misalignedOutcome_always h a n), fun h => hfault (misalignedOutcome_always h a n),
        fun h => ?_, fun _ => ⟨misalignedOutcome s a n, (checkAccess_congr k rfl rfl).symm⟩⟩
      simp only [← hp, inside]
      rw [hsupport (misalignedOutcome_always h a n), ← mapAllowsSpanning_iff]
      exact faultUnless_cases ..
  · simp only [mapAllows_iff, Region.permits_fetch_iff, and_assoc]

/-! ### Effective addresses (20_memory.md R58) -/

/-- The effective address of a load: `x[rs1] + sext(imm)` modulo 2^32. -/
theorem effectiveAddress_immI (base : Word) (imm : BitVec 12) :
    effectiveAddress base (immI imm) = BitVec.ofInt 32 (base.toInt + imm.toInt) := by
  rw [effectiveAddress, immI, BitVec.signExtend, BitVec.ofInt_add, BitVec.ofInt_toInt]

/-- The effective address of a store. -/
theorem effectiveAddress_immS (base : Word) (imm : BitVec 12) :
    effectiveAddress base (immS imm) = BitVec.ofInt 32 (base.toInt + imm.toInt) := effectiveAddress_immI base imm

/-! ### Who raises an address-misaligned exception (20_memory.md R47) -/

/-- A check that answers an address-misaligned exception was of a misaligned address. -/
theorem misaligned_of_checkAccess {s : State} {a : Word} {n : Nat} {k : Access} {c : Cause}
    (h : checkAccess s a n k = some c) (hc : c = .loadAddressMisaligned ∨ c = .storeAddressMisaligned) : a.toNat % n ≠ 0 := by
  rcases checkAccess_cases s a n k with e | e | ⟨-, ha⟩
  · rw [e] at h; cases h
  · rw [e] at h; cases h; cases k <;> simp [accessFaultCause] at hc
  · exact ha

/-- A load that raises an address-misaligned exception is at a misaligned address. -/
theorem misaligned_of_load_traps {s : State} {rd rs1 : Reg} {imm : BitVec 12} {n : Nat} {extend : Word → Word}
    {rec : TrapRecord} (hs : s.trap = none)
    (h : (s.load rd (effectiveAddress (s.x rs1) (immI imm)) n extend).trap = some rec)
    (hc : rec.cause = .loadAddressMisaligned ∨ rec.cause = .storeAddressMisaligned) :
    (BitVec.ofInt 32 ((s.x rs1).toInt + imm.toInt)).toNat % n ≠ 0 := by
  rw [effectiveAddress_immI] at h
  rcases load_cases s rd _ n extend with ⟨c, hcheck, e⟩ | ⟨-, e⟩ <;> rw [e] at h
  · cases h; exact misaligned_of_checkAccess hcheck hc
  · exact absurd h (by simp [hs])

/-- So is a store. -/
theorem misaligned_of_store_traps {s : State} {rs1 : Reg} {imm : BitVec 12} {n : Nat} {v : Word} {rec : TrapRecord}
    (hs : s.trap = none) (h : (s.store (effectiveAddress (s.x rs1) (immS imm)) n v).trap = some rec)
    (hc : rec.cause = .loadAddressMisaligned ∨ rec.cause = .storeAddressMisaligned) :
    (BitVec.ofInt 32 ((s.x rs1).toInt + imm.toInt)).toNat % n ≠ 0 := by
  rw [effectiveAddress_immS] at h
  rcases store_cases s _ n v with ⟨c, hcheck, e⟩ | ⟨-, e⟩ <;> rw [e] at h
  · cases h; exact misaligned_of_checkAccess hcheck hc
  · exact absurd h (by simp [hs])

theorem cause_of_jumpAndLink_traps {s : State} {rd : Reg} {t : Word} {rec : TrapRecord} (hs : s.trap = none)
    (h : (s.jumpAndLink rd t).trap = some rec) : rec.cause = .instructionAddressMisaligned := by
  rcases jumpAndLink_cases s rd t with ⟨-, e⟩ | ⟨-, e⟩ <;> rw [e] at h
  · exact absurd h (by simp [hs])
  · cases h; rfl

theorem cause_of_branch_traps {s : State} {taken : Bool} {t : Word} {rec : TrapRecord} (hs : s.trap = none)
    (h : (s.branch taken t).trap = some rec) : rec.cause = .instructionAddressMisaligned := by
  rcases branch_cases s taken t with ⟨-, -, e⟩ | ⟨-, -, e⟩ | ⟨-, e⟩ <;> rw [e] at h
  · exact absurd h (by simp [hs])
  · cases h; rfl
  · exact absurd h (by simp [hs])

theorem cause_of_ecall_traps {s t : State} {rec : TrapRecord} (hs : s.trap = none) (he : exec .ecall s = .next t)
    (h : t.trap = some rec) : rec.cause = .environmentCall := by
  cases hm : s.config.trapMode with
  | fatal =>
    simp only [exec, execEcall, hm] at he
    cases he; cases h; rfl
  | service =>
    simp only [exec, execEcall, hm] at he
    cases he
    rcases serve_cases s (Config.ecallService s.draws s.regs s.mem s.pc) with ⟨-, e⟩ | ⟨-, e⟩ <;> rw [e] at h
    · cases h; rfl
    · exact absurd h (by simp [hs])

/-- Settles O23: of the instructions only a load or a store whose check raises can have one of the two causes, and then its address is
misaligned for its width. -/
theorem alignedAccessNeverMisaligned : Obligations.AlignedAccessNeverMisaligned := by
  intro s t i rec hs h ht hc
  have other {c : Cause} (hrec : rec.cause = c) (hne : c ≠ .loadAddressMisaligned ∧ c ≠ .storeAddressMisaligned) : False :=
    hc.elim (fun e => hne.1 (hrec.symm.trans e)) (fun e => hne.2 (hrec.symm.trans e))
  cases i with
  | lui | auipc | addi | slti | sltiu | xori | ori | andi | slli | srli | srai | add | sub | sll | slt | sltu | xor | srl | sra
  | or | and | fence | fenceTso => cases h; exact absurd ht (by simp [hs])
  | jal | jalr => cases h; exact (other (cause_of_jumpAndLink_traps hs ht) (by decide)).elim
  | beq | bne | blt | bge | bltu | bgeu => cases h; exact (other (cause_of_branch_traps hs ht) (by decide)).elim
  | ecall => exact (other (cause_of_ecall_traps hs h ht) (by decide)).elim
  | ebreak => cases h; cases ht; exact (other (c := .breakpoint) rfl (by decide)).elim
  | lb | lbu => cases h; exact absurd (Nat.mod_one _) (misaligned_of_load_traps hs ht hc)
  | sb => cases h; exact absurd (Nat.mod_one _) (misaligned_of_store_traps hs ht hc)
  | lh rd rs1 imm => cases h; exact ⟨rd, rs1, 0, imm, .inl ⟨.inl rfl, misaligned_of_load_traps hs ht hc⟩⟩
  | lhu rd rs1 imm => cases h; exact ⟨rd, rs1, 0, imm, .inl ⟨.inr (.inl rfl), misaligned_of_load_traps hs ht hc⟩⟩
  | sh rs1 rs2 imm => cases h; exact ⟨0, rs1, rs2, imm, .inl ⟨.inr (.inr rfl), misaligned_of_store_traps hs ht hc⟩⟩
  | lw rd rs1 imm => cases h; exact ⟨rd, rs1, 0, imm, .inr ⟨.inl rfl, misaligned_of_load_traps hs ht hc⟩⟩
  | sw rs1 rs2 imm => cases h; exact ⟨0, rs1, rs2, imm, .inr ⟨.inr rfl, misaligned_of_store_traps hs ht hc⟩⟩

/-! ### The five loads and the three stores (20_memory.md R41, R42) -/

/-- The low `n` bytes of a word, sign-extended, as the numbers they stand for. -/
theorem signExtendFrom_eq (n : Nat) (w : Word) :
    signExtendFrom (8 * n) w = BitVec.ofInt 32 (BitVec.ofNat (8 * n) (w.toNat % 256 ^ n)).toInt := by
  have h : w.setWidth (8 * n) = BitVec.ofNat (8 * n) (w.toNat % 256 ^ n) := by
    apply BitVec.eq_of_toNat_eq
    rw [BitVec.toNat_setWidth, BitVec.toNat_ofNat, Nat.pow_mul, Nat.mod_mod]
  rw [signExtendFrom, h, BitVec.signExtend]

/-- The low `n` bytes of a word, zero-extended. -/
theorem zeroExtendFrom_eq {n : Nat} (w : Word) : zeroExtendFrom (8 * n) w = BitVec.ofNat 32 (w.toNat % 256 ^ n) := by
  apply BitVec.eq_of_toNat_eq
  rw [zeroExtendFrom, BitVec.toNat_setWidth, BitVec.toNat_setWidth, BitVec.toNat_ofNat, Nat.pow_mul]

theorem width_of_isLoad {i : Instr} {rd rs1 : Reg} {imm : BitVec 12} {n : Nat} {v : Nat → Word}
    (h : IsLoad i rd rs1 imm n v) : 0 < n ∧ n ≤ 4 := by
  rcases h with ⟨-, rfl, -⟩ | ⟨-, rfl, -⟩ | ⟨-, rfl, -⟩ | ⟨-, rfl, -⟩ | ⟨-, rfl, -⟩ <;> decide

theorem width_of_isStore {i : Instr} {rs1 rs2 : Reg} {imm : BitVec 12} {n : Nat} (h : IsStore i rs1 rs2 imm n) :
    0 < n ∧ n ≤ 4 := by
  rcases h with ⟨-, rfl⟩ | ⟨-, rfl⟩ | ⟨-, rfl⟩ <;> decide

/-- A load is `State.load` of its width at its effective address, with an extension that gives the value its bytes stand for. -/
theorem exec_of_isLoad {i : Instr} {rd rs1 : Reg} {imm : BitVec 12} {n : Nat} {v : Nat → Word}
    (h : IsLoad i rd rs1 imm n v) : ∃ extend : Word → Word, (∀ w, extend w = v (w.toNat % 256 ^ n)) ∧
      ∀ s, exec i s = .next (s.load rd (BitVec.ofInt 32 ((s.x rs1).toInt + imm.toInt)) n extend) := by
  simp only [← effectiveAddress_immI]
  rcases h with ⟨rfl, rfl, rfl⟩ | ⟨rfl, rfl, rfl⟩ | ⟨rfl, rfl, rfl⟩ | ⟨rfl, rfl, rfl⟩ | ⟨rfl, rfl, rfl⟩
  · exact ⟨_, signExtendFrom_eq 1, fun _ => rfl⟩
  · exact ⟨_, zeroExtendFrom_eq (n := 1), fun _ => rfl⟩
  · exact ⟨_, signExtendFrom_eq 2, fun _ => rfl⟩
  · exact ⟨_, zeroExtendFrom_eq (n := 2), fun _ => rfl⟩
  · refine ⟨id, fun w => ?_, fun _ => rfl⟩
    rw [← zeroExtendFrom_eq, zeroExtendFrom, BitVec.setWidth_eq, BitVec.setWidth_eq, id]

/-- A store is `State.store` of its width at its effective address. -/
theorem exec_of_isStore {i : Instr} {rs1 rs2 : Reg} {imm : BitVec 12} {n : Nat} (h : IsStore i rs1 rs2 imm n) (s : State) :
    exec i s = .next (s.store (BitVec.ofInt 32 ((s.x rs1).toInt + imm.toInt)) n (s.x rs2)) := by
  rw [← effectiveAddress_immS]
  rcases h with ⟨rfl, rfl⟩ | ⟨rfl, rfl⟩ | ⟨rfl, rfl⟩ <;> rfl

/-- A load that passes its check completes as `State.afterLoad`. -/
theorem exec_load_of_check {i : Instr} {rd rs1 : Reg} {imm : BitVec 12} {n : Nat} {v : Nat → Word}
    (h : IsLoad i rd rs1 imm n v) : ∃ extend : Word → Word, (∀ w, extend w = v (w.toNat % 256 ^ n)) ∧
      ∀ s, checkAccess s (BitVec.ofInt 32 ((s.x rs1).toInt + imm.toInt)) n .load = none →
        exec i s = .next (s.afterLoad rd (BitVec.ofInt 32 ((s.x rs1).toInt + imm.toInt)) n extend) := by
  obtain ⟨extend, hext, hexec⟩ := exec_of_isLoad h
  refine ⟨extend, hext, fun s hcheck => ?_⟩
  simp only [hexec, State.load, memRead_ok hcheck, State.afterLoad]

/-- A store that passes its check completes as `State.afterStore`. -/
theorem exec_store_of_check {i : Instr} {rs1 rs2 : Reg} {imm : BitVec 12} {n : Nat} {s : State} (h : IsStore i rs1 rs2 imm n)
    (hcheck : checkAccess s (BitVec.ofInt 32 ((s.x rs1).toInt + imm.toInt)) n .store = none) :
    exec i s = .next (s.afterStore (BitVec.ofInt 32 ((s.x rs1).toInt + imm.toInt)) n (s.x rs2)) := by
  simp only [exec_of_isStore h, State.store, memWrite_ok hcheck, State.afterStore]

/-- The destination of a load that passed its check. -/
theorem State.x_afterLoad (s : State) (rd : Reg) (a : Word) (n : Nat) (extend : Word → Word) :
    (s.afterLoad rd a n extend).x rd = if rd = 0#5 then 0#32 else extend (readValue s a n).value := by
  rw [State.afterLoad, State.x_writeAndAdvance, if_pos rfl]

/-- The value of a load that reaches no PLIC register, from what it finds at each address. -/
theorem readValue_bytes {s : State} {a : Word} {n : Nat} {f : Nat → Byte} (hn : n ≤ 4) (hp : plicAccess s a n = none)
    (h : ∀ j, j < n → s.loadByte (byteAddr a j) = f j) :
    (readValue s a n).value = BitVec.ofNat 32 (bytesValue s.config.endian ((List.range n).map f)) := by
  have hbytes : (accessAddrs a n).map s.loadByte = (List.range n).map f := by
    rw [accessAddrs, List.map_map]
    exact List.map_congr_left fun j hj => h j (List.mem_range.1 hj)
  rw [readValue_memory hp hn, hbytes]

/-! ### Loads from devices (20_memory.md R54) -/

/-- A load whose bytes are all a device's is a device input, and draws. -/
theorem accessKinds_allDevice {s : State} {a : Word} {n : Nat} (hn : 0 < n) (h : AllDevice s a n) :
    accessKinds s a n .load = deviceInput ∧ drawsAfter s a n = s.draws + 1 := by
  have hdev : (accessAddrs a n).any (isDevice s.config.memMap) = true := any_accessAddrs.2 ⟨0, hn, h 0 hn⟩
  have hmem : ((accessAddrs a n).any fun b => !isDevice s.config.memMap b) = false := by
    rw [← Bool.not_eq_true, any_accessAddrs]
    rintro ⟨j, hj, hb⟩
    simp [h j hj] at hb
  simp [accessKinds, drawsAfter, deviceInput, hdev, hmem]

/-- A load whose bytes are all a device's reads the device's answers to the draw. -/
theorem readValue_allDevice {s : State} {a : Word} {n : Nat} (hn : n ≤ 4) (hp : plicAccess s a n = none)
    (h : AllDevice s a n) : (readValue s a n).value = BitVec.ofNat 32 (bytesValue s.config.endian
      ((List.range n).map fun j => Config.deviceByte s.draws (byteAddr a j))) :=
  readValue_bytes hn hp fun j hj => by rw [State.loadByte, if_pos (h j hj)]

/-- Settles O27: a load completes as `State.afterLoad` with the device's answers for its value, whatever the memory. -/
theorem deviceAnswersAreFree : Obligations.DeviceAnswersAreFree := by
  intro s rd rs1 imm a n i ha hi hreach hdev
  obtain ⟨hcheck, hplic⟩ := hreach
  subst ha
  obtain ⟨v, hload⟩ : ∃ v, IsLoad i rd rs1 imm n v := by
    rcases hi with ⟨rfl | rfl, rfl⟩ | ⟨rfl | rfl, rfl⟩ | ⟨rfl, rfl⟩
    · exact ⟨_, .inl ⟨rfl, rfl, rfl⟩⟩
    · exact ⟨_, .inr (.inl ⟨rfl, rfl, rfl⟩)⟩
    · exact ⟨_, .inr (.inr (.inl ⟨rfl, rfl, rfl⟩))⟩
    · exact ⟨_, .inr (.inr (.inr (.inl ⟨rfl, rfl, rfl⟩)))⟩
    · exact ⟨_, .inr (.inr (.inr (.inr ⟨rfl, rfl, rfl⟩)))⟩
  obtain ⟨hn, hn4⟩ := width_of_isLoad hload
  obtain ⟨extend, -, hexec⟩ := exec_load_of_check hload
  obtain ⟨hkinds, hdraws⟩ := accessKinds_allDevice hn hdev
  have hvalue := readValue_allDevice hn4 hplic hdev
  refine ⟨_, _, hexec s hcheck, hdraws, fun _ => rfl, ?_, hvalue,
    fun mem => ⟨_, hexec { s with mem := mem } hcheck, ?_, rfl⟩⟩
  · exact congrArg (fun kinds => s.events ++ [Event.access kinds _ n (readValue s _ n).value]) hkinds
  · have hmem := (readValue_allDevice (s := { s with mem := mem }) hn4 hplic hdev).trans hvalue.symm
    rw [State.x_afterLoad, State.x_afterLoad, ← hmem]
    rfl

/-! ### Loads after a store (20_memory.md R43, R57) -/

/-- What a store that passes its check leaves of the configuration, memory and the bytes noted. -/
theorem memWrite_eq_ok {s t : State} {a : Word} {n : Nat} {v : Word} (h : memWrite s a n v = .ok t) :
    t.config = s.config ∧ t.mem = Memory.writeAll s.mem (storeCells s a n v) ∧
      t.overwritten = noteOverwritten s.mem s.overwritten ((storeCells s a n v).map Prod.fst) := by
  cases hc : checkAccess s a n .store with
  | none => rw [memWrite_ok hc] at h; cases h; exact ⟨rfl, rfl, rfl⟩
  | some c => rw [memWrite_error hc] at h; cases h

/-- An access with a byte in main memory reaches no PLIC register. -/
theorem plicAccess_of_allMain {s : State} {a : Word} {n : Nat} (hn : 0 < n) (h : AllMain s a n) : plicAccess s a n = none := by
  cases hreg : plicAccess s a n with
  | none => rfl
  | some r =>
    have hdev := isDevice_of_plicAccess hreg (byteAddr a 0) (mem_accessAddrs.2 ⟨0, hn, rfl⟩)
    rw [h 0 hn] at hdev
    cases hdev

/-- A load whose bytes are all in main memory reads them. -/
theorem readValue_allMain {s : State} {a : Word} {n : Nat} (hn : 0 < n) (hn4 : n ≤ 4) (h : AllMain s a n) :
    (readValue s a n).value =
      BitVec.ofNat 32 (bytesValue s.config.endian ((List.range n).map fun j => Memory.read s.mem (byteAddr a j))) :=
  readValue_bytes hn4 (plicAccess_of_allMain hn h) fun j hj => by
    rw [State.loadByte, if_neg (Bool.eq_false_iff.1 (h j hj))]

/-- Each byte a store puts in main memory reads back. -/
theorem read_memWrite {s t : State} {a : Word} {n : Nat} {v : Word} {j : Nat} (hwf : Memory.wf s.mem = true)
    (hn : n ≤ 4294967296) (h : memWrite s a n v = .ok t) (hj : j < n) (hm : isDevice s.config.memMap (byteAddr a j) = false) :
    Memory.read t.mem (byteAddr a j) = storedByte s.config.endian n v j := by
  obtain ⟨-, hmem, -⟩ := memWrite_eq_ok h
  rw [hmem]
  exact Memory.read_writeAll_of_mem hwf (fun _ hc => storeCells_lt hc) (nodup_storeCells s a v hn)
    (mem_storeCells.2 ⟨j, hj, rfl, hm⟩)

/-- A load of `n` bytes from byte `i` on of a word just stored reads the bytes the store put there. -/
theorem readValue_memWrite {s t : State} {a v : Word} {i n : Nat} (hwf : Memory.wf s.mem = true) (hmain : AllMain s a 4)
    (h : memWrite s a 4 v = .ok t) (hn : 0 < n) (hi : i + n ≤ 4) : (readValue t (a + BitVec.ofNat 32 i) n).value =
      BitVec.ofNat 32 (bytesValue s.config.endian ((List.range n).map fun j => storedByte s.config.endian 4 v (i + j))) := by
  obtain ⟨hconf, -, -⟩ := memWrite_eq_ok h
  have ht : AllMain t (a + BitVec.ofNat 32 i) n := fun j hj => by
    rw [hconf, byteAddr_add]; exact hmain _ (by omega)
  rw [readValue_allMain hn (by omega) ht, hconf]
  refine congrArg (fun l => BitVec.ofNat 32 (bytesValue s.config.endian l)) (List.map_congr_left fun j hj => ?_)
  have hj := List.mem_range.1 hj
  rw [byteAddr_add]
  exact read_memWrite hwf (by decide) h (by omega) (hmain _ (by omega))

/-- Two bytes as a zero-extended number, the low one first. -/
theorem ofNat_littleValue_two (hi lo : Byte) : BitVec.ofNat 32 (littleValue [lo, hi]) = (hi ++ lo).setWidth 32 := by
  apply BitVec.eq_of_toNat_eq
  rw [BitVec.toNat_ofNat, BitVec.toNat_setWidth, toNat_append_add]
  simp only [littleValue]
  omega

/-- The number four bytes make. -/
theorem toNat_append_bytes (b3 b2 b1 b0 : Byte) : (b3 ++ b2 ++ b1 ++ b0).toNat =
    b0.toNat + 256 * (b1.toNat + 256 * (b2.toNat + 256 * b3.toNat)) := by
  refine (toNat_append_add (b3 ++ b2 ++ b1) b0).trans ?_
  rw [toNat_append_add, toNat_append_add]
  omega

/-- Each byte of a word made of four. -/
theorem byteOf_append_bytes (b3 b2 b1 b0 : Byte) :
    byteOf (b3 ++ b2 ++ b1 ++ b0).toNat 0 = b0 ∧ byteOf (b3 ++ b2 ++ b1 ++ b0).toNat 1 = b1 ∧
    byteOf (b3 ++ b2 ++ b1 ++ b0).toNat 2 = b2 ∧ byteOf (b3 ++ b2 ++ b1 ++ b0).toNat 3 = b3 := by
  have h0 := b0.isLt
  have h1 := b1.isLt
  have h2 := b2.isLt
  have h3 := b3.isLt
  simp only [byteOf, toNat_append_bytes]
  refine ⟨?_, ?_, ?_, ?_⟩ <;> apply BitVec.eq_of_toNat_eq <;> rw [BitVec.toNat_ofNat] <;> omega

/-- The bytes a store puts at its addresses, one after another. -/
theorem map_storedByte (e : Endian) (n : Nat) (v : Word) :
    (List.range n).map (storedByte e n v) = inOrder e (splitBytes n v) := by
  refine List.ext_getElem? fun j => ?_
  by_cases hj : j < n
  · rw [getElem?_inOrder_splitBytes e v hj, List.getElem?_map, List.getElem?_range hj, Option.map_some]
  · rw [List.getElem?_eq_none (by simpa using hj), List.getElem?_eq_none (by simpa using hj)]

theorem inOrder_inOrder (e : Endian) (l : List Byte) : inOrder e (inOrder e l) = l := by
  cases e
  · rfl
  · exact List.reverse_reverse l

/-- A stored word is loaded back. -/
theorem readValue_memWrite_word {s t : State} {a v : Word} (hwf : Memory.wf s.mem = true) (hmain : AllMain s a 4)
    (h : memWrite s a 4 v = .ok t) : (readValue t a 4).value = v := by
  have hread := readValue_memWrite (i := 0) hwf hmain h (n := 4) (by decide) (by decide)
  simp only [Nat.zero_add, map_storedByte, BitVec.add_zero] at hread
  rw [hread, ← joinBytes_inOrder (by simp), inOrder_inOrder, joinBytes_splitBytes]

/-- A byte of it. -/
theorem readValue_memWrite_byte {s t : State} {a v x : Word} {i : Nat} (hwf : Memory.wf s.mem = true) (hmain : AllMain s a 4)
    (h : memWrite s a 4 v = .ok t) (hi : i < 4) (hx : x = a + BitVec.ofNat 32 i) :
    (readValue t x 1).value = (storedByte s.config.endian 4 v i).setWidth 32 := by
  rw [hx, readValue_memWrite hwf hmain h (by decide) hi]
  apply BitVec.eq_of_toNat_eq
  cases s.config.endian <;> simp [bytesValue, littleValue]

/-- Two bytes of it, in the order of a little-endian store. -/
theorem readValue_memWrite_half_little {s t : State} {a v x : Word} {i : Nat} (hwf : Memory.wf s.mem = true)
    (hmain : AllMain s a 4) (h : memWrite s a 4 v = .ok t) (he : s.config.endian = .little) (hi : i + 2 ≤ 4)
    (hx : x = a + BitVec.ofNat 32 i) :
    (readValue t x 2).value = (storedByte .little 4 v (i + 1) ++ storedByte .little 4 v i).setWidth 32 := by
  rw [hx, readValue_memWrite hwf hmain h (by decide) hi, he]
  exact ofNat_littleValue_two ..

/-- And of a big-endian one. -/
theorem readValue_memWrite_half_big {s t : State} {a v x : Word} {i : Nat} (hwf : Memory.wf s.mem = true)
    (hmain : AllMain s a 4) (h : memWrite s a 4 v = .ok t) (he : s.config.endian = .big) (hi : i + 2 ≤ 4)
    (hx : x = a + BitVec.ofNat 32 i) :
    (readValue t x 2).value = (storedByte .big 4 v i ++ storedByte .big 4 v (i + 1)).setWidth 32 := by
  rw [hx, readValue_memWrite hwf hmain h (by decide) hi, he]
  exact ofNat_littleValue_two ..

/-- Settles O29: a load from byte `i` on of the stored word reads the bytes the store put there, in the byte order of both. -/
theorem mixedWidthReads : Obligations.MixedWidthReads := by
  intro s t a b3 b2 b1 b0 hwf _ hmain _ hw half
  have start : a = a + BitVec.ofNat 32 0 := (BitVec.add_zero a).symm
  have byte0 := readValue_memWrite_byte hwf hmain hw (i := 0) (by decide) start
  have byte1 := readValue_memWrite_byte hwf hmain hw (x := a + 1) (i := 1) (by decide) rfl
  have byte2 := readValue_memWrite_byte hwf hmain hw (x := a + 2) (i := 2) (by decide) rfl
  have byte3 := readValue_memWrite_byte hwf hmain hw (x := a + 3) (i := 3) (by decide) rfl
  obtain ⟨h0, h1, h2, h3⟩ := byteOf_append_bytes b3 b2 b1 b0
  refine ⟨readValue_memWrite_word hwf hmain hw, fun he => ?_, fun he => ?_⟩
  · have low := readValue_memWrite_half_little hwf hmain hw he (i := 0) (by decide) start
    have high := readValue_memWrite_half_little hwf hmain hw he (x := a + 2) (i := 2) (by decide) rfl
    simp only [byte0, byte1, byte2, byte3, low, high, he, storedByte, h0, h1, h2, h3, half, and_self]
  · have low := readValue_memWrite_half_big hwf hmain hw he (i := 0) (by decide) start
    have high := readValue_memWrite_half_big hwf hmain hw he (x := a + 2) (i := 2) (by decide) rfl
    simp only [byte0, byte1, byte2, byte3, low, high, he, storedByte, h0, h1, h2, h3, half, and_self]

/-! ### Fetches of stored bytes (20_memory.md R63) -/

/-- A byte noted at one of the four addresses of the fetch is a stored one. -/
theorem fetchesStored_of_mem {s : State} {c : Host.Cell} {j : Nat} (hc : c ∈ s.overwritten) (hj : j < 4)
    (h : c.1 = byteAddr s.pc j) : fetchesStored s = true :=
  any_accessAddrs.2 ⟨j, hj, List.any_eq_true.2 ⟨c, hc, beq_iff_eq.2 h⟩⟩

theorem fetch_stored_refused {s : State} (hm : mapAllows s.config.memMap s.pc 4 .fetch = true) (hs : fetchesStored s = true)
    (hw : s.config.codeWritable = false) : fetch s = .storedByte := by simp [fetch, hm, hs, hw]

theorem fetch_stored {s : State} (hm : mapAllows s.config.memMap s.pc 4 .fetch = true) (hs : fetchesStored s = true)
    (hw : s.config.codeWritable = true) :
    fetch s = .word (fetchedWord s.pc (staleByte s)) { s with draws := s.draws + 1 } := by simp [fetch, hm, hs, hw]

/-- The byte such a fetch sees is the one the address holds or one it has held. -/
theorem staleByte_held (s : State) (b : Nat) :
    staleByte s b = Memory.read s.mem b ∨ (b, staleByte s b) ∈ s.overwritten := by
  have hmem : staleByte s b ∈ Memory.read s.mem b :: (s.overwritten.filter fun c => c.1 == b).map Prod.snd := by
    rw [staleByte, List.getD_eq_getElem _ _ (Nat.mod_lt _ (by simp))]
    exact List.getElem_mem _
  refine (List.mem_cons.1 hmem).imp id fun h => ?_
  obtain ⟨c, hc, hv⟩ := List.mem_map.1 h
  obtain ⟨hc, hb⟩ := List.mem_filter.1 hc
  rw [← hv, ← beq_iff_eq.1 hb]
  exact hc

/-- A hart that may take a step stops where the fetch is refused. -/
theorem hartTurn_of_storedByte {s : State} (ht : s.trap = none) (hh : s.config.numHarts = 1)
    (hi : s.config.interrupts = false) (hf : fetch s = .storedByte) : hartTurn s = .refused .storedByteFetched := by
  simp [hartTurn, ready, ht, hh, hi, hf]

/-- It raises IllegalInstruction with a word that decodes to nothing. -/
theorem hartTurn_of_reserved {s t : State} {w : Word} {e : DecodeError} (ht : s.trap = none) (hh : s.config.numHarts = 1)
    (hi : s.config.interrupts = false) (hf : fetch s = .word w t) (hd : decodeWord w = .error e) :
    hartTurn s = .next (t.raise .illegalInstruction w) := by
  have hr : reservedWord t w = t.raise .illegalInstruction w := by
    cases h : t.config.reserved
    simp [reservedWord]
  simp [hartTurn, ready, ht, hh, hi, hf, hd, hr]

/-- Settles O41: the store notes what it replaces, and a fetch of a noted byte is refused or takes a byte that was held there. -/
theorem fetchAfterStore : Obligations.FetchAfterStore := by
  refine ⟨fun s t a n v j hw _ hj hm => ?_, fun s c j hc hj hpc ht ha hh hi hm => ?_⟩
  · obtain ⟨-, -, hnoted⟩ := memWrite_eq_ok hw
    rw [hnoted]
    exact mem_noteOverwritten (List.mem_map_of_mem (mem_storeCells.2 ⟨j, hj, rfl, hm⟩))
  · have hs := fetchesStored_of_mem hc hj hpc
    rw [step_of_agenda_nil ha]
    refine ⟨fun hw => hartTurn_of_storedByte ht hh hi (fetch_stored_refused hm hs hw), fun hw => ?_⟩
    have hf := fetch_stored hm hs hw
    have held (k : Nat) := staleByte_held s (byteAddr s.pc k)
    refine ⟨_, _, _, _, ?_, fun i hd => hartTurn_of_ready (ready_of_fetch ht hh hi hf hd),
      fun e hd => hartTurn_of_reserved ht hh hi hf hd⟩
    simp only [List.forall_mem_cons, List.not_mem_nil, false_implies, implies_true, and_true]
    exact ⟨held 0, held 1, held 2, held 3⟩

/-! ### What the PLIC has seen of the access that comes next (20_memory.md R60) -/

/-- What `inOrder` says, as a proposition. -/
theorem inOrder_iff {e : EarlyAccess} {ahead : List EarlyAccess} {h : List Event} : e.inOrder ahead h = true ↔
    ∀ j, j < h.length → (e.seenAt ≤ j ∧ ¬(j ∈ e.earlier ∧ ∀ f ∈ ahead, f.event ≠ j)) ∨ j ∈ e.waiting →
      fencedBefore h j (if e.store then deviceOutput else deviceInput) = false := by
  simp only [EarlyAccess.inOrder, List.all_eq_true, List.mem_range, ← missed_iff]
  refine forall₂_congr fun j _ => ?_
  cases e.missed ahead j <;> simp

/-- `seen?` looks for an access seen in time. -/
theorem seenInTime_iff {s : State} {store : Bool} {a : Word} {n : Nat} {e : EarlyAccess} : SeenInTime s store a n e ↔
    e ∈ s.ahead ∧ (e.event == s.events.length && e.store == store && e.addr == a && e.width == n &&
      e.inOrder s.ahead s.events) = true := by
  simp only [SeenInTime, Bool.and_eq_true, beq_iff_eq, and_assoc, inOrder_iff]
  refine and_congr_right fun _ => and_congr_right fun _ => and_congr_right fun hs => ?_
  rw [hs]

theorem seenInTime_of_seen? {s : State} {store : Bool} {a : Word} {n : Nat} {e : EarlyAccess}
    (h : s.seen? store a n = some e) : SeenInTime s store a n e := by
  rw [State.seen?] at h
  have hp := List.find?_some h
  exact seenInTime_iff.2 ⟨List.mem_of_find?_eq_some h, hp⟩

theorem seen?_eq_none_iff {s : State} {store : Bool} {a : Word} {n : Nat} :
    s.seen? store a n = none ↔ ¬∃ e, SeenInTime s store a n e := by
  rw [State.seen?, List.find?_eq_none]
  exact ⟨fun h ⟨e, he⟩ => h e (seenInTime_iff.1 he).1 (seenInTime_iff.1 he).2,
    fun h e he hp => h ⟨e, seenInTime_iff.2 ⟨he, hp⟩⟩⟩

/-- Of accesses each seen once, only one is the next. -/
theorem SeenInTime.unique {s : State} {store : Bool} {a : Word} {n : Nat} {e f : EarlyAccess} (h : EarlyOnce s)
    (he : SeenInTime s store a n e) (hf : SeenInTime s store a n f) : e = f := by
  obtain ⟨hmem, hev, -⟩ := he
  obtain ⟨hmem', hev', -⟩ := hf
  exact List.inj_on_of_nodup_map h hmem hmem' (hev.trans hev'.symm)

/-- The PLIC has seen the store that comes next when it has seen in time one of its value. -/
theorem seenStore_iff {s : State} {a : Word} {n : Nat} {v : Word} (h : EarlyOnce s) :
    s.seenStore a n v = true ↔ ∃ e, SeenInTime s true a n e ∧ e.value = lowBytes n v := by
  unfold State.seenStore
  split
  · rename_i e he
    have hseen := seenInTime_of_seen? he
    rw [beq_iff_eq]
    exact ⟨fun hv => ⟨e, hseen, hv⟩, fun ⟨f, hf, hv⟩ => hseen.unique h hf ▸ hv⟩
  · rename_i hnone
    exact ⟨nofun, fun ⟨f, hf, _⟩ => absurd ⟨f, hf⟩ (seen?_eq_none_iff.1 hnone)⟩

theorem toNat_lowBytes (n : Nat) (v : Word) : (lowBytes n v).toNat = v.toNat % 256 ^ n := by
  have hle := Nat.mod_le v.toNat (2 ^ (8 * n))
  rw [lowBytes, BitVec.toNat_ofNat, Nat.mod_eq_of_lt (hle.trans_lt v.isLt), Nat.pow_mul]

/-! ### A load of a PLIC register -/

/-- What a load of a PLIC register leaves but for `rd` and the PLIC. -/
theorem accessRecorded_afterLoad {s : State} {a : Word} {n : Nat} {p : PlicParams} {reg : PlicReg} (rd : Reg)
    (extend : Word → Word) (hn : 0 < n) (hreg : plicAccess s a n = some (p, reg)) :
    AccessRecorded s (s.afterLoad rd a n extend) deviceInput a n (readValue s a n).value := by
  obtain ⟨hkinds, -, hdraws⟩ := accessKinds_plic hn hreg
  refine ⟨rfl, rfl, fun _ => rfl, rfl, rfl, rfl, rfl, hdraws, ?_⟩
  rw [← hkinds]
  rfl

/-- With nothing seen in time the load reads its register as if nothing had been seen at all. -/
theorem plicLoad_forget {s : State} {a : Word} {n : Nat} (reg : PlicReg) (h : s.seen? false a n = none) :
    State.plicLoad { s with ahead := [] } reg a n = { s.plicLoad reg a n with ahead := [] } := by
  have hnil : State.seen? { s with ahead := [] } false a n = none := rfl
  simp only [State.plicLoad, h, hnil]
  rfl

/-- So does the whole load. -/
theorem afterLoad_forget {s : State} {a : Word} {n : Nat} {p : PlicParams} {reg : PlicReg} (rd : Reg)
    (extend : Word → Word) (hreg : plicAccess s a n = some (p, reg)) (h : s.seen? false a n = none) :
    State.afterLoad { s with ahead := [] } rd a n extend = { s.afterLoad rd a n extend with ahead := [] } := by
  have hread : readValue { s with ahead := [] } a n = { readValue s a n with ahead := [] } := by
    rw [readValue_plic hreg, readValue_plic (s := { s with ahead := [] }) hreg, plicLoad_forget reg h]
  simp only [State.afterLoad, hread]
  rfl

/-- A load that the PLIC has seen ahead takes its answer; the answer is used up, and nothing else changes on the way. -/
theorem readValue_of_seen {s : State} {a : Word} {n : Nat} {p : PlicParams} {reg : PlicReg}
    (hreg : plicAccess s a n = some (p, reg)) (h : ∃ e, SeenInTime s false a n e) :
    ∃ e, SeenInTime s false a n e ∧ readValue s a n = ⟨e.value, s.plic, s.posted, s.restAhead⟩ := by
  rw [readValue_plic hreg]
  rcases plicLoad_cases s reg a n with ⟨e, he, hl⟩ | ⟨hnone, -⟩
  · exact ⟨e, seenInTime_of_seen? he, hl⟩
  · exact absurd h (seen?_eq_none_iff.1 hnone)

/-- A load that it has not seen lets no store stay on its way that a FENCE orders before it, and in a history without a FENCE makes
none arrive. -/
theorem readValue_of_not_seen {s : State} {a : Word} {n : Nat} {p : PlicParams} {reg : PlicReg}
    (hreg : plicAccess s a n = some (p, reg)) (h : s.seen? false a n = none) : (readValue s a n).ahead = s.ahead ∧
      (readValue s a n).posted.Sublist s.posted ∧
      (∀ q ∈ (readValue s a n).posted, fencedBefore s.events q.event deviceInput = false) ∧
      ((∀ e ∈ s.events, ∃ k b m w, e = .access k b m w) → (readValue s a n).posted = s.posted) := by
  rw [readValue_plic hreg]
  rcases plicLoad_cases s reg a n with ⟨e, he, -⟩ | ⟨-, hl⟩
  · rw [h] at he; cases he
  · rw [hl]
    exact ⟨rfl, sublist_splitPosted .., fun _ => fencedBefore_splitPosted, fun hacc =>
      congrArg Prod.snd (splitPosted_of_unfenced fun q _ => fencedBefore_of_accesses hacc q.event deviceInput)⟩

/-! ### A store to a PLIC register -/

/-- A store to a PLIC register puts no byte in main memory. -/
theorem storeCells_plic {s : State} {a : Word} {n : Nat} {p : PlicParams} {reg : PlicReg} (v : Word)
    (hreg : plicAccess s a n = some (p, reg)) : storeCells s a n v = [] := by
  refine List.eq_nil_iff_forall_not_mem.2 fun c hc => ?_
  obtain ⟨j, hj, -, hm⟩ := mem_storeCells.1 hc
  rw [isDevice_of_plicAccess hreg _ (mem_accessAddrs.2 ⟨j, hj, rfl⟩)] at hm
  cases hm

/-- What a store to a PLIC register leaves but for the stores on their way. -/
theorem accessRecorded_afterStore {s : State} {a : Word} {n : Nat} {p : PlicParams} {reg : PlicReg} (v : Word) (hn : 0 < n)
    (hreg : plicAccess s a n = some (p, reg)) :
    AccessRecorded s (s.afterStore a n v) deviceOutput a n (lowBytes n v) := by
  obtain ⟨-, hkinds, hdraws⟩ := accessKinds_plic hn hreg
  have hcells := storeCells_plic v hreg
  refine ⟨rfl, rfl, fun b => ?_, ?_, rfl, rfl, rfl, hdraws, ?_⟩
  · simp [State.afterStore, hcells]
  · simp [State.afterStore, hcells, noteOverwritten]
  · simp [State.afterStore, hkinds]

/-! ### The turns of the way to the PLIC -/

/-- Whether something holds of one of the first `k`. -/
theorem any_take_iff {α : Type} {l : List α} {k : Nat} {f : α → Bool} :
    (l.take k).any f = true ↔ ∃ j e, j < k ∧ l[j]? = some e ∧ f e = true := by
  simp only [List.any_eq_true, List.mem_iff_getElem?, List.getElem?_take, Option.ite_none_right_eq_some]
  exact ⟨fun ⟨e, ⟨j, hj, he⟩, hf⟩ => ⟨j, e, hj, he, hf⟩, fun ⟨j, e, hj, he, hf⟩ => ⟨e, ⟨j, hj, he⟩, hf⟩⟩

/-- A store on its way may arrive if no FENCE orders an older one on its way before it. -/
theorem deliverStore_of_unfenced {s : State} {p : PlicParams} {k : Nat} {q : PostedStore} (hp : s.config.plic = some p)
    (hq : s.posted[k]? = some q)
    (h : ∀ j e, j < k → s.posted[j]? = some e → mustPrecede s.events e.event q.event = false) :
    s.deliverStore k = { s with plic := s.plic.receive q, posted := s.posted.eraseIdx k } := by
  have hnone : ¬((s.posted.take k).any fun e => mustPrecede s.events e.event q.event) = true := by
    rw [any_take_iff]
    rintro ⟨j, e, hj, he, hm⟩
    rw [h j e hj he] at hm
    cases hm
  simp only [State.deliverStore, hp, hq, if_neg hnone]

/-- And waits if one does. -/
theorem deliverStore_of_fenced {s : State} {p : PlicParams} {k : Nat} {q : PostedStore} (hp : s.config.plic = some p)
    (hq : s.posted[k]? = some q)
    (h : ∃ j e, j < k ∧ s.posted[j]? = some e ∧ mustPrecede s.events e.event q.event = true) : s.deliverStore k = s := by
  simp only [State.deliverStore, hp, hq, if_pos (any_take_iff.2 h)]

/-- An access to come that the PLIC has not seen yet is seen, with what it had not seen then. -/
theorem seeAhead_of_new {s : State} {event : Nat} (store : Bool) (a : Word) (n : Nat) (v : Word) (pl : Plic)
    (hev : s.events.length ≤ event) (hnew : ∀ e ∈ s.ahead, e.event ≠ event) :
    s.seeAhead event store a n v pl = { s with plic := pl, ahead := s.ahead ++ [
      ⟨event, store, a, n, v, s.events.length, s.ahead.map EarlyAccess.event, s.posted.map PostedStore.event⟩] } := by
  have h : ¬(event < s.events.length ∨ event ∈ s.ahead.map EarlyAccess.event) := by
    rintro (hlt | hmem)
    · omega
    · obtain ⟨e, he, hee⟩ := List.mem_map.1 hmem
      exact hnew e he hee
  rw [State.seeAhead, if_neg h]

/-- So an answer ahead waits for its load. -/
theorem answerAhead_of_new {s : State} {event : Nat} {a : Word} {n : Nat} {p : PlicParams} {reg : PlicReg}
    (hreg : plicAccess s a n = some (p, reg)) (hev : s.events.length ≤ event) (hnew : ∀ e ∈ s.ahead, e.event ≠ event) :
    s.answerAhead event a n = { s with plic := (s.plic.readReg reg).2, ahead := s.ahead ++ [
      ⟨event, false, a, n, lowBytes n (s.plic.readReg reg).1, s.events.length, s.ahead.map EarlyAccess.event,
        s.posted.map PostedStore.event⟩] } := by
  simp only [State.answerAhead, hreg, seeAhead_of_new _ _ _ _ _ hev hnew]

/-- And a store seen ahead waits for its instruction. -/
theorem storeAhead_of_new {s : State} {event : Nat} {a : Word} {n : Nat} {p : PlicParams} {reg : PlicReg} (v : Word)
    (hreg : plicAccess s a n = some (p, reg)) (hev : s.events.length ≤ event) (hnew : ∀ e ∈ s.ahead, e.event ≠ event) :
    s.storeAhead event a n v = { s with plic := s.plic.receive ⟨reg, lowBytes n v, event⟩, ahead := s.ahead ++ [
      ⟨event, true, a, n, lowBytes n v, s.events.length, s.ahead.map EarlyAccess.event,
        s.posted.map PostedStore.event⟩] } := by
  simp only [State.storeAhead, hreg, seeAhead_of_new _ _ _ _ _ hev hnew]

/-- Settles O60: the delivery of a store, the load and the store at a PLIC register, and the turn that sees an access ahead. -/
theorem onlyFencesOrderPlicAccesses : Obligations.OnlyFencesOrderPlicAccesses := by
  refine ⟨?delivery, ?load, ?store, ?ahead⟩
  case delivery =>
    intro s p k q rest hact hp hq
    rw [step_of_agenda_act hact]
    exact ⟨fun h => congrArg _ (deliverStore_of_unfenced (s := { s with agenda := rest }) hp hq h),
      fun h => congrArg _ (deliverStore_of_fenced (s := { s with agenda := rest }) hp hq h)⟩
  case load =>
    intro s rd rs1 imm a n i v p reg ha hi hcheck hreg
    subst ha
    obtain ⟨extend, hext, hexec⟩ := exec_load_of_check hi
    refine ⟨_, _, hexec s hcheck, hext _ ▸ writesReg_of_regs rfl,
      accessRecorded_afterLoad rd extend (width_of_isLoad hi).1 hreg, fun hseen => ?_, fun hseen => ?_⟩
    · obtain ⟨e, he, hr⟩ := readValue_of_seen hreg hseen
      exact ⟨e, he, congrArg Loaded.value hr, congrArg Loaded.plic hr, congrArg Loaded.posted hr, congrArg Loaded.ahead hr⟩
    · have hnone := seen?_eq_none_iff.2 hseen
      obtain ⟨hahead, hsub, hfenced, hacc⟩ := readValue_of_not_seen hreg hnone
      have hforget := (hexec { s with ahead := [] } hcheck).trans (congrArg _ (afterLoad_forget rd extend hreg hnone))
      exact ⟨hahead, hforget, hsub, hfenced, hacc⟩
  case store =>
    intro s rs1 rs2 imm a n i p reg ha hi hcheck hreg honce
    subst ha
    refine ⟨_, ⟨reg, lowBytes n (s.x rs2), s.events.length⟩, exec_store_of_check hi hcheck, fun _ => rfl,
      accessRecorded_afterStore _ (width_of_isStore hi).1 hreg, rfl, rfl, rfl, toNat_lowBytes .., fun hseen => ?_,
      fun hseen => ?_⟩
    · exact afterStore_seen hreg ((seenStore_iff honce).2 hseen)
    · have hs := Bool.eq_false_iff.2 fun h => hseen ((seenStore_iff honce).1 h)
      exact ⟨postedAfterStore_plic hreg hs, aheadAfterStore_of_not_seen hs⟩
  case ahead =>
    intro s event a n v p reg act rest hact ha hreg hev hnew
    rw [step_of_agenda_act ha]
    rcases hact with rfl | rfl
    · have hturn := answerAhead_of_new (s := { s with agenda := rest }) hreg hev hnew
      exact ⟨_, _, congrArg _ hturn, rfl, rfl, rfl, rfl, fun _ => List.mem_map, fun _ => List.mem_map,
        fun _ => ⟨rfl, rfl, toNat_lowBytes ..⟩, nofun⟩
    · have hturn := storeAhead_of_new (s := { s with agenda := rest }) v hreg hev hnew
      exact ⟨_, _, congrArg _ hturn, rfl, rfl, rfl, rfl, fun _ => List.mem_map, fun _ => List.mem_map, nofun,
        fun _ => ⟨rfl, rfl, toNat_lowBytes ..⟩⟩

end Sys2Proof.Machine

/-! The proofs of the statements about 30_encoding.md: decode and encode undo each other, the decoder and the opcode table agree,
the five immediates, the branches with reversed operands, and FENCE words. -/

namespace Sys2Proof

/-! ### Words of their fields (30_encoding.md R72 to R77, R83) -/

section
variable {w : Word} {op : BitVec 7} {f3 : BitVec 3} {f7 : BitVec 7}

theorem encodeR_of_fields (hop : opcodeOf w = op) (h3 : funct3Of w = f3) (h7 : funct7Of w = f7) :
    encodeR f7 (rs2Of w) (rs1Of w) f3 (rdOf w) op = w := by
  subst hop h3 h7
  apply BitVec.eq_of_toNat_eq
  have := w.isLt
  simp only [toNat_encodeR, funct7Of, rs2Of, rs1Of, funct3Of, rdOf, opcodeOf, toNat_field]
  omega

theorem encodeI_of_fields (hop : opcodeOf w = op) (h3 : funct3Of w = f3) :
    encodeI (immIOf w) (rs1Of w) f3 (rdOf w) op = w := by
  subst hop h3
  apply BitVec.eq_of_toNat_eq
  have := w.isLt
  simp only [toNat_encodeI, immIOf, rs1Of, funct3Of, rdOf, opcodeOf, toNat_field]
  omega

theorem encodeS_of_fields (hop : opcodeOf w = op) (h3 : funct3Of w = f3) :
    encodeS (immSOf w) (rs2Of w) (rs1Of w) f3 op = w := by
  subst hop h3
  apply BitVec.eq_of_toNat_eq
  have := w.isLt
  simp only [toNat_encodeS, toNat_immSOf, rs2Of, rs1Of, funct3Of, opcodeOf, toNat_field]
  omega

/-- The pieces of a branch offset (R80), as numbers. -/
theorem pieces_offsetB {a b c d : Nat} (ha : a < 2) (hb : b < 2) (hc : c < 2 ^ 6) (hd : d < 2 ^ 4) :
    let v := a * 2 ^ 12 + b * 2 ^ 11 + c * 2 ^ 5 + d * 2
    v / 2 ^ 12 % 2 = a ∧ v / 2 ^ 11 % 2 = b ∧ v / 2 ^ 5 % 2 ^ 6 = c ∧ v / 2 % 2 ^ 4 = d := by
  refine ⟨?_, ?_, ?_, ?_⟩ <;> omega

theorem encodeB_of_fields (hop : opcodeOf w = op) (h3 : funct3Of w = f3) :
    encodeB (offsetBOf w) (rs2Of w) (rs1Of w) f3 op = w := by
  subst hop h3
  apply BitVec.eq_of_toNat_eq
  have := w.isLt
  obtain ⟨sign, bit11, high, low⟩ := pieces_offsetB (Nat.mod_lt (w.toNat / 2 ^ 31) (by decide))
    (Nat.mod_lt (w.toNat / 2 ^ 7) (by decide)) (Nat.mod_lt (w.toNat / 2 ^ 25) (by decide))
    (Nat.mod_lt (w.toNat / 2 ^ 8) (by decide))
  simp only [toNat_encodeB, toNat_offsetBOf, sign, bit11, high, low, rs2Of, rs1Of, funct3Of, opcodeOf, toNat_field]
  clear sign bit11 high low
  omega

theorem encodeU_of_fields (hop : opcodeOf w = op) : encodeU (immUOf w) (rdOf w) op = w := by
  subst hop
  apply BitVec.eq_of_toNat_eq
  have := w.isLt
  simp only [toNat_encodeU, immUOf, rdOf, opcodeOf, toNat_field]
  omega

/-- The pieces of a JAL offset (R82), as numbers. -/
theorem pieces_offsetJ {a b c d : Nat} (ha : a < 2) (hb : b < 2 ^ 8) (hc : c < 2) (hd : d < 2 ^ 10) :
    let v := a * 2 ^ 20 + b * 2 ^ 12 + c * 2 ^ 11 + d * 2
    v / 2 ^ 20 % 2 = a ∧ v / 2 ^ 12 % 2 ^ 8 = b ∧ v / 2 ^ 11 % 2 = c ∧ v / 2 % 2 ^ 10 = d := by
  refine ⟨?_, ?_, ?_, ?_⟩ <;> omega

theorem encodeJ_of_fields (hop : opcodeOf w = op) : encodeJ (offsetJOf w) (rdOf w) op = w := by
  subst hop
  apply BitVec.eq_of_toNat_eq
  have := w.isLt
  obtain ⟨sign, high, bit11, low⟩ := pieces_offsetJ (Nat.mod_lt (w.toNat / 2 ^ 31) (by decide))
    (Nat.mod_lt (w.toNat / 2 ^ 12) (by decide)) (Nat.mod_lt (w.toNat / 2 ^ 20) (by decide))
    (Nat.mod_lt (w.toNat / 2 ^ 21) (by decide))
  simp only [toNat_encodeJ, toNat_offsetJOf, sign, high, bit11, low, rdOf, opcodeOf, toNat_field]
  clear sign high bit11 low
  omega

theorem encodeFence_of_fields (hop : opcodeOf w = 0b0001111#7) (h3 : funct3Of w = 0b000#3) :
    encodeFence (fmOf w) (predOf w) (succOf w) (rs1Of w) (rdOf w) = w := by
  apply BitVec.eq_of_toNat_eq
  have := w.isLt
  have hop := congrArg BitVec.toNat hop
  have h3 := congrArg BitVec.toNat h3
  simp only [toNat_encodeFence, fmOf, predOf, succOf, rs1Of, rdOf, funct3Of, opcodeOf, toNat_field, BitVec.toNat_ofNat] at *
  omega

end

/-! ### The offsets a word holds are even (30_encoding.md R80, R82) -/

theorem bit0_append_zero {n : Nat} (x : BitVec n) : (!(x ++ 0#1).getLsbD 0) = true := by
  simp [BitVec.getElem_append]

theorem branchOffsetOk_offsetBOf (w : Word) : branchOffsetOk (offsetBOf w) = true :=
  bit0_append_zero (w.extractLsb' 31 1 ++ w.extractLsb' 7 1 ++ w.extractLsb' 25 6 ++ w.extractLsb' 8 4)

theorem jumpOffsetOk_offsetJOf (w : Word) : jumpOffsetOk (offsetJOf w) = true :=
  bit0_append_zero (w.extractLsb' 31 1 ++ w.extractLsb' 12 8 ++ w.extractLsb' 20 1 ++ w.extractLsb' 21 10)

/-! ### The decoder, opcode by opcode (30_encoding.md R85) -/

section
variable {w : Word}

theorem decodeWord_load (h : opcodeOf w = 0b0000011#7) : decodeWord w = decodeLoad w := by simp only [decodeWord, h]

theorem decodeWord_opImm (h : opcodeOf w = 0b0010011#7) : decodeWord w = decodeOpImm w := by simp only [decodeWord, h]

theorem decodeWord_auipc (h : opcodeOf w = 0b0010111#7) : decodeWord w = .ok (.auipc (rdOf w) (immUOf w)) := by
  simp only [decodeWord, h]

theorem decodeWord_store (h : opcodeOf w = 0b0100011#7) : decodeWord w = decodeStore w := by simp only [decodeWord, h]

theorem decodeWord_op (h : opcodeOf w = 0b0110011#7) : decodeWord w = decodeOp w := by simp only [decodeWord, h]

theorem decodeWord_lui (h : opcodeOf w = 0b0110111#7) : decodeWord w = .ok (.lui (rdOf w) (immUOf w)) := by
  simp only [decodeWord, h]

theorem decodeWord_branch (h : opcodeOf w = 0b1100011#7) : decodeWord w = decodeBranch w := by simp only [decodeWord, h]

theorem decodeWord_jal (h : opcodeOf w = 0b1101111#7) : decodeWord w = .ok (.jal (rdOf w) (offsetJOf w)) := by
  simp only [decodeWord, h]

theorem decodeWord_fence (h : opcodeOf w = 0b0001111#7) (h3 : funct3Of w = 0b000#3) :
    decodeWord w = .ok (decodeFence w) := by simp only [decodeWord, h, h3]

theorem decodeWord_jalr (h : opcodeOf w = 0b1100111#7) (h3 : funct3Of w = 0b000#3) :
    decodeWord w = .ok (.jalr (rdOf w) (rs1Of w) (immIOf w)) := by simp only [decodeWord, h, h3]

end

theorem decodeFence_encodeFence (fm pred succ : BitVec 4) (rs1 rd : Reg) : decodeFence (encodeFence fm pred succ rs1 rd) =
    if isTsoFields fm pred succ then .fenceTso rs1 rd else .fence fm pred succ rs1 rd := by
  simp [decodeFence]

/-- The decoder undoes the encoder: one case per major opcode. -/
theorem decodeWord_encode {i : Instr} (h : i.wellFormed = true) : decodeWord (encode i) = .ok i := by
  cases i with
  | lui => simp [encode, decodeWord_lui]
  | auipc => simp [encode, decodeWord_auipc]
  | jal => simp [encode, decodeWord_jal, offsetJOf_encodeJ _ _ _ h]
  | jalr => simp [encode, decodeWord_jalr]
  | beq | bne | blt | bge | bltu | bgeu =>
    simp [encode, decodeWord_branch, decodeBranch, offsetBOf_encodeB _ _ _ _ _ h]
  | lb | lh | lw | lbu | lhu => simp [encode, decodeWord_load, decodeLoad]
  | sb | sh | sw => simp [encode, decodeWord_store, decodeStore]
  | addi | slti | sltiu | xori | ori | andi | slli | srli | srai => simp [encode, decodeWord_opImm, decodeOpImm]
  | add | sub | sll | slt | sltu | xor | srl | sra | or | and => simp [encode, decodeWord_op, decodeOp]
  | fence fm pred succ =>
    have htso : isTsoFields fm pred succ = false := by simpa [Instr.wellFormed] using h
    simp [encode, decodeWord_fence, decodeFence_encodeFence, htso]
  | fenceTso => simp [encode, decodeWord_fence, decodeFence_encodeFence, isTsoFields]
  | ecall => decide
  | ebreak => decide

/-- Settles O1: the bytes of the word make the word, and the word decodes. -/
theorem encodedInstructionDecodes : Obligations.EncodedInstructionDecodes :=
  fun _ h => decode_wordBytes_ok (decodeWord_encode h) []

/-! ### Every accepted word re-encodes -/

/-- The word is the encoding of this well-formed instruction. -/
def Encodes (i : Instr) (w : Word) : Prop := i.wellFormed = true ∧ encode i = w

section
variable {w : Word} {i : Instr}

theorem encodes_of_decodeLoad (hop : opcodeOf w = 0b0000011#7) (h : decodeLoad w = .ok i) : Encodes i w := by
  unfold decodeLoad at h
  split at h <;> cases h <;> exact ⟨rfl, encodeI_of_fields hop ‹_›⟩

theorem encodes_of_decodeStore (hop : opcodeOf w = 0b0100011#7) (h : decodeStore w = .ok i) : Encodes i w := by
  unfold decodeStore at h
  split at h <;> cases h <;> exact ⟨rfl, encodeS_of_fields hop ‹_›⟩

theorem encodes_of_decodeBranch (hop : opcodeOf w = 0b1100011#7) (h : decodeBranch w = .ok i) : Encodes i w := by
  unfold decodeBranch at h
  split at h <;> cases h <;> exact ⟨branchOffsetOk_offsetBOf w, encodeB_of_fields hop ‹_›⟩

theorem encodes_of_decodeOp (hop : opcodeOf w = 0b0110011#7) (h : decodeOp w = .ok i) : Encodes i w := by
  unfold decodeOp at h
  split at h <;> cases h <;> exact ⟨rfl, encodeR_of_fields hop ‹_› ‹_›⟩

/-- The one funct3 left when the decoder has tried the seven others. -/
theorem funct3_eq_101 {f : BitVec 3} (h000 : f ≠ 0b000#3) (h010 : f ≠ 0b010#3) (h011 : f ≠ 0b011#3) (h100 : f ≠ 0b100#3)
    (h110 : f ≠ 0b110#3) (h111 : f ≠ 0b111#3) (h001 : f ≠ 0b001#3) : f = 0b101#3 := by
  bv_omega

theorem encodes_of_decodeOpImm (hop : opcodeOf w = 0b0010011#7) (h : decodeOpImm w = .ok i) : Encodes i w := by
  unfold decodeOpImm at h
  split at h
  case h_7 h001 =>
    split at h <;> cases h
    exact ⟨rfl, encodeR_of_fields hop h001 ‹_›⟩
  case h_8 h000 h010 h011 h100 h110 h111 h001 =>
    have h101 := funct3_eq_101 h000 h010 h011 h100 h110 h111 h001
    split at h <;> cases h <;> exact ⟨rfl, encodeR_of_fields hop h101 ‹_›⟩
  all_goals cases h; exact ⟨rfl, encodeI_of_fields hop ‹_›⟩

end

theorem encodes_of_decodeSystem {w : Word} {i : Instr} (h : decodeSystem w = .ok i) : Encodes i w := by
  unfold decodeSystem at h
  split at h
  case isTrue hw => cases h; exact ⟨rfl, hw ▸ rfl⟩
  case isFalse =>
    split at h
    case isTrue hw => cases h; exact ⟨rfl, hw ▸ rfl⟩
    case isFalse => cases h

theorem isTsoFields_iff {fm pred succ : BitVec 4} : isTsoFields fm pred succ = true ↔
    fm = 0b1000 ∧ pred = 0b0011 ∧ succ = 0b0011 := by
  simp [isTsoFields, and_assoc]

theorem encodes_decodeFence {w : Word} (hop : opcodeOf w = 0b0001111#7) (h3 : funct3Of w = 0b000#3) :
    Encodes (decodeFence w) w := by
  have hw := encodeFence_of_fields hop h3
  unfold decodeFence
  split
  case isTrue htso =>
    obtain ⟨hfm, hpred, hsucc⟩ := isTsoFields_iff.1 htso
    exact ⟨rfl, by rwa [hfm, hpred, hsucc] at hw⟩
  case isFalse htso => exact ⟨by simpa [Instr.wellFormed] using htso, hw⟩

/-- The encoder undoes the decoder, major opcode by major opcode. The cases stand in the order of the decoder's:
LOAD, MISC-MEM, OP-IMM, AUIPC, STORE, OP, LUI, BRANCH, JALR, JAL, SYSTEM, and the opcodes of no instruction. -/
theorem encodes_of_decodeWord {w : Word} {i : Instr} (h : decodeWord w = .ok i) : Encodes i w := by
  unfold decodeWord at h
  split at h
  case h_1 hop => exact encodes_of_decodeLoad hop h
  case h_2 hop =>
    split at h <;> cases h
    exact encodes_decodeFence hop ‹_›
  case h_3 hop => exact encodes_of_decodeOpImm hop h
  case h_4 hop => cases h; exact ⟨rfl, encodeU_of_fields hop⟩
  case h_5 hop => exact encodes_of_decodeStore hop h
  case h_6 hop => exact encodes_of_decodeOp hop h
  case h_7 hop => cases h; exact ⟨rfl, encodeU_of_fields hop⟩
  case h_8 hop => exact encodes_of_decodeBranch hop h
  case h_9 hop =>
    split at h <;> cases h
    exact ⟨rfl, encodeI_of_fields hop ‹_›⟩
  case h_10 hop => cases h; exact ⟨jumpOffsetOk_offsetJOf w, encodeJ_of_fields hop⟩
  case h_11 => exact encodes_of_decodeSystem h
  case h_12 => split at h <;> cases h

/-- Settles O2, by `encodes_of_decodeWord`. -/
theorem decodedWordReencodes : Obligations.DecodedWordReencodes := fun _ _ h => encodes_of_decodeWord h

/-! ### The opcode table (30_encoding.md R84, R85) -/

/-- A field that lies inside a row's mask is the row's in every word of the row. -/
theorem field_of_matchesWord {row : TableRow} {w : Word} {k n : Nat} (h : row.matchesWord w = true)
    (hmask : row.mask.extractLsb' k n = BitVec.allOnes n) : w.extractLsb' k n = row.value.extractLsb' k n := by
  rw [← eq_of_beq h, BitVec.extractLsb'_and, hmask, BitVec.and_allOnes]

/-- The decoder looks at funct3 of such words. -/
def looksAtFunct3 (v : Word) : Bool :=
  !(opcodeOf v == 0b0110111#7 || opcodeOf v == 0b0010111#7 || opcodeOf v == 0b1101111#7)

/-- The decoder looks at funct7 of such words: OP, and the shifts of OP-IMM. -/
def looksAtFunct7 (v : Word) : Bool :=
  opcodeOf v == 0b0110011#7 || opcodeOf v == 0b0010011#7 && (funct3Of v == 0b001#3 || funct3Of v == 0b101#3)

/-- `w` has of `v` all that tells the decoder whether `v` is an instruction. -/
structure AgreesWhereDecoded (w v : Word) : Prop where
  opcode : opcodeOf w = opcodeOf v
  funct3 : looksAtFunct3 v = true → funct3Of w = funct3Of v
  funct7 : looksAtFunct7 v = true → funct7Of w = funct7Of v
  system : opcodeOf v = 0b1110011#7 → w = v

section
variable {w v : Word}

theorem isOk_decodeLoad_congr (h3 : funct3Of w = funct3Of v) : (decodeLoad w).isOk = (decodeLoad v).isOk := by
  unfold decodeLoad; rw [h3]; split <;> rfl

theorem isOk_decodeStore_congr (h3 : funct3Of w = funct3Of v) : (decodeStore w).isOk = (decodeStore v).isOk := by
  unfold decodeStore; rw [h3]; split <;> rfl

theorem isOk_decodeBranch_congr (h3 : funct3Of w = funct3Of v) : (decodeBranch w).isOk = (decodeBranch v).isOk := by
  unfold decodeBranch; rw [h3]; split <;> rfl

theorem isOk_decodeOp_congr (h3 : funct3Of w = funct3Of v) (h7 : funct7Of w = funct7Of v) :
    (decodeOp w).isOk = (decodeOp v).isOk := by
  unfold decodeOp; rw [h3, h7]; split <;> rfl

theorem isOk_decodeOpImm_congr (h3 : funct3Of w = funct3Of v)
    (h7 : funct3Of v = 0b001#3 ∨ funct3Of v = 0b101#3 → funct7Of w = funct7Of v) :
    (decodeOpImm w).isOk = (decodeOpImm v).isOk := by
  unfold decodeOpImm
  rw [h3]
  split
  case h_7 h001 => rw [h7 (.inl h001)]; split <;> rfl
  case h_8 h000 h010 h011 h100 h110 h111 h001 =>
    rw [h7 (.inr (funct3_eq_101 h000 h010 h011 h100 h110 h111 h001))]; split <;> rfl
  all_goals rfl

/-- The decoder looks at nothing else. The cases stand in the order of the decoder's:
LOAD, MISC-MEM, OP-IMM, AUIPC, STORE, OP, LUI, BRANCH, JALR, JAL, SYSTEM, and the opcodes of no instruction. -/
theorem isOk_decodeWord_congr (h : AgreesWhereDecoded w v) : (decodeWord w).isOk = (decodeWord v).isOk := by
  obtain ⟨hop, h3, h7, hsys⟩ := h
  simp only [looksAtFunct3, looksAtFunct7] at h3 h7
  unfold decodeWord
  rw [hop]
  split
  case h_1 hv => exact isOk_decodeLoad_congr (h3 (by simp [hv]))
  case h_2 hv => rw [h3 (by simp [hv])]; split <;> rfl
  case h_3 hv => exact isOk_decodeOpImm_congr (h3 (by simp [hv])) fun hf => h7 (by simpa [hv] using hf)
  case h_5 hv => exact isOk_decodeStore_congr (h3 (by simp [hv]))
  case h_6 hv => exact isOk_decodeOp_congr (h3 (by simp [hv])) (h7 (by simp [hv]))
  case h_8 hv => exact isOk_decodeBranch_congr (h3 (by simp [hv]))
  case h_9 hv => rw [h3 (by simp [hv])]; split <;> rfl
  case h_11 hv => rw [hsys hv]
  all_goals rfl

end

/-- Every row's mask covers what the decoder looks at in the row's words. -/
theorem agrees_of_matchesWord {row : TableRow} {w : Word} (hrow : row ∈ opcodeTable) (h : row.matchesWord w = true) :
    AgreesWhereDecoded w row.value where
  opcode := field_of_matchesWord h
    ((by decide : ∀ row ∈ opcodeTable, opcodeOf row.mask = BitVec.allOnes 7) row hrow)
  funct3 hv := field_of_matchesWord h
    ((by decide : ∀ row ∈ opcodeTable, looksAtFunct3 row.value = true → funct3Of row.mask = BitVec.allOnes 3) row hrow hv)
  funct7 hv := field_of_matchesWord h
    ((by decide : ∀ row ∈ opcodeTable, looksAtFunct7 row.value = true → funct7Of row.mask = BitVec.allOnes 7) row hrow hv)
  system hv := by
    have hmask := (by decide : ∀ row ∈ opcodeTable, opcodeOf row.value = 0b1110011#7 → row.mask = BitVec.allOnes 32)
      row hrow hv
    rw [← eq_of_beq h, hmask, BitVec.and_allOnes]

/-- A word of a row is an instruction, as the row's value is. -/
theorem decodes_of_matchesWord {row : TableRow} {w : Word} (hrow : row ∈ opcodeTable) (h : row.matchesWord w = true) :
    ∃ i, decodeWord w = .ok i := by
  have hv : (decodeWord row.value).isOk = true :=
    (by decide : ∀ row ∈ opcodeTable, (decodeWord row.value).isOk = true) row hrow
  rw [← isOk_decodeWord_congr (agrees_of_matchesWord hrow h)] at hv
  cases hd : decodeWord w with
  | ok i => exact ⟨i, rfl⟩
  | error e => rw [hd] at hv; cases hv

def fenceTsoRow : TableRow := ⟨"FENCE.TSO", 0xFFF0707F, 0x8330000F⟩

def fenceRow : TableRow := ⟨"FENCE", 0x0000707F, 0x0000000F⟩

/-- Two rows that share a word agree where both masks have a bit. -/
theorem values_agree_of_matchesWord {r q : TableRow} {w : Word} (hr : r.matchesWord w = true) (hq : q.matchesWord w = true) :
    r.value &&& q.mask = q.value &&& r.mask := by
  rw [← eq_of_beq hr, ← eq_of_beq hq, BitVec.and_assoc, BitVec.and_assoc, BitVec.and_comm r.mask]

/-- Of two rows that share a word the earlier is FENCE.TSO's, the later FENCE's. -/
theorem opcodeTable_overlap : opcodeTable.Pairwise fun r q =>
    r.value &&& q.mask = q.value &&& r.mask → r = fenceTsoRow ∧ q = fenceRow := by decide

theorem eq_or_related_of_pairwise {α : Type} {R : α → α → Prop} {l : List α} (h : l.Pairwise R) :
    ∀ ⦃x⦄, x ∈ l → ∀ ⦃y⦄, y ∈ l → x = y ∨ R x y ∨ R y x :=
  List.Pairwise.forall_of_forall_of_flip (fun _ _ => .inl rfl) (h.imp fun hxy => .inr (.inl hxy))
    (h.imp fun hyx => .inr (.inr hyx))

/-- Every instruction's word belongs to the row with its mnemonic. -/
theorem encode_matches_row (i : Instr) : Laws.EncodeMatchesRow.Statement i := by
  cases i with
  | lui => exact Laws.EncodeMatchesRow.lui ..
  | auipc => exact Laws.EncodeMatchesRow.auipc ..
  | jal => exact Laws.EncodeMatchesRow.jal ..
  | jalr => exact Laws.EncodeMatchesRow.jalr ..
  | beq => exact Laws.EncodeMatchesRow.beq ..
  | bne => exact Laws.EncodeMatchesRow.bne ..
  | blt => exact Laws.EncodeMatchesRow.blt ..
  | bge => exact Laws.EncodeMatchesRow.bge ..
  | bltu => exact Laws.EncodeMatchesRow.bltu ..
  | bgeu => exact Laws.EncodeMatchesRow.bgeu ..
  | lb => exact Laws.EncodeMatchesRow.lb ..
  | lh => exact Laws.EncodeMatchesRow.lh ..
  | lw => exact Laws.EncodeMatchesRow.lw ..
  | lbu => exact Laws.EncodeMatchesRow.lbu ..
  | lhu => exact Laws.EncodeMatchesRow.lhu ..
  | sb => exact Laws.EncodeMatchesRow.sb ..
  | sh => exact Laws.EncodeMatchesRow.sh ..
  | sw => exact Laws.EncodeMatchesRow.sw ..
  | addi => exact Laws.EncodeMatchesRow.addi ..
  | slti => exact Laws.EncodeMatchesRow.slti ..
  | sltiu => exact Laws.EncodeMatchesRow.sltiu ..
  | xori => exact Laws.EncodeMatchesRow.xori ..
  | ori => exact Laws.EncodeMatchesRow.ori ..
  | andi => exact Laws.EncodeMatchesRow.andi ..
  | slli => exact Laws.EncodeMatchesRow.slli ..
  | srli => exact Laws.EncodeMatchesRow.srli ..
  | srai => exact Laws.EncodeMatchesRow.srai ..
  | add => exact Laws.EncodeMatchesRow.add ..
  | sub => exact Laws.EncodeMatchesRow.sub ..
  | sll => exact Laws.EncodeMatchesRow.sll ..
  | slt => exact Laws.EncodeMatchesRow.slt ..
  | sltu => exact Laws.EncodeMatchesRow.sltu ..
  | xor => exact Laws.EncodeMatchesRow.xor ..
  | srl => exact Laws.EncodeMatchesRow.srl ..
  | sra => exact Laws.EncodeMatchesRow.sra ..
  | or => exact Laws.EncodeMatchesRow.or ..
  | and => exact Laws.EncodeMatchesRow.and ..
  | fence => exact Laws.EncodeMatchesRow.fence ..
  | ecall => exact Laws.EncodeMatchesRow.ecall
  | ebreak => exact Laws.EncodeMatchesRow.ebreak
  | fenceTso => exact Laws.EncodeMatchesRow.fenceTso ..

/-- A FENCE.TSO word is the encoding of no instruction called FENCE (R84). -/
theorem mnemonic_ne_fence {w : Word} {i : Instr} (hi : Encodes i w) (hw : fenceTsoRow.matchesWord w = true) :
    i.mnemonic ≠ "FENCE" := by
  obtain ⟨hwf, rfl⟩ := hi
  cases i with
  | fence fm pred succ rs1 rd =>
    have hfm := (fmOf_encodeFence ..).symm.trans (field_of_matchesWord hw rfl)
    have hpred := (predOf_encodeFence ..).symm.trans (field_of_matchesWord hw rfl)
    have hsucc := (succOf_encodeFence ..).symm.trans (field_of_matchesWord hw rfl)
    subst hfm hpred hsucc
    cases hwf
  | _ => simp [Instr.mnemonic]

/-- The first row a decoded word matches names its instruction: FENCE.TSO's row stands before FENCE's. -/
theorem find?_row_of_encodes {w : Word} {i : Instr} (hi : Encodes i w) :
    ∃ row, opcodeTable.find? (fun r => r.matchesWord w) = some row ∧ row.mnemonic = i.mnemonic := by
  obtain ⟨named, hmem, hname, hnamed⟩ := encode_matches_row i
  rw [hi.2] at hnamed
  have hsome : (opcodeTable.find? fun r => r.matchesWord w).isSome = true := List.find?_isSome.2 ⟨named, hmem, hnamed⟩
  obtain ⟨row, hfind⟩ := Option.isSome_iff_exists.1 hsome
  refine ⟨row, hfind, ?_⟩
  obtain ⟨hrow, before, after, htable, hbefore⟩ := List.find?_eq_some_iff_append.1 hfind
  have hpairs := htable ▸ opcodeTable_overlap
  rw [htable, List.mem_append, List.mem_cons] at hmem
  rcases hmem with hmem | rfl | hmem
  · have hnot := hbefore named hmem
    rw [hnamed] at hnot
    cases hnot
  · exact hname
  · obtain ⟨rfl, rfl⟩ := (List.pairwise_cons.1 (List.pairwise_append.1 hpairs).2.1).1 named hmem
      (values_agree_of_matchesWord hrow hnamed)
    exact absurd hname.symm (mnemonic_ne_fence hi hrow)

/-- Settles O3: the decoded instruction's row is found first, a row's mask covers what the decoder looks at, and no rows but those
of FENCE.TSO and FENCE overlap. -/
theorem decoderFollowsOpcodeTable : Obligations.DecoderFollowsOpcodeTable := by
  refine ⟨fun w i h => find?_row_of_encodes (encodes_of_decodeWord h), fun w row => decodes_of_matchesWord, fun w hno => ?_,
    fun w r hr q hq hrw hqw => ?_⟩
  · cases hd : decodeWord w with
    | error e => exact ⟨e, rfl⟩
    | ok i =>
      obtain ⟨row, hmem, -, hrow⟩ := encode_matches_row i
      rw [(encodes_of_decodeWord hd).2, hno row hmem] at hrow
      cases hrow
  · rcases eq_or_related_of_pairwise opcodeTable_overlap hr hq with h | h | h
    · exact .inl h
    · obtain ⟨rfl, rfl⟩ := h (values_agree_of_matchesWord hrw hqw)
      exact .inr (.inl ⟨rfl, rfl⟩)
    · obtain ⟨rfl, rfl⟩ := h (values_agree_of_matchesWord hqw hrw)
      exact .inr (.inr ⟨rfl, rfl⟩)

end Sys2Proof

namespace Sys2Proof.Machine

/-! ### Immediates (30_encoding.md R78 to R82) -/

/-- A sign bit repeated, as a number. -/
theorem toNat_replicate_bit (k : Nat) (b : BitVec 1) : (BitVec.replicate k b).toNat = b.toNat * (2 ^ k - 1) := by
  induction k with
  | zero => simp
  | succ k ih =>
    have hpos := Nat.two_pow_pos k
    rw [BitVec.replicate_succ, BitVec.toNat_cast, toNat_append_add, ih, Nat.one_mul, ← Nat.mul_add, Nat.pow_succ]
    congr 1
    omega

/-- A sign extension as a number: the value, and the sign bit repeated above it. -/
theorem toNat_signExtend_word {n : Nat} (hn : 0 < n) (hle : n ≤ 32) (x : BitVec n) :
    (x.signExtend 32).toNat = x.toNat / 2 ^ (n - 1) * (2 ^ 32 - 2 ^ n) + x.toNat := by
  have hx := x.isLt
  have hlt : x.toNat < 2 ^ 32 := Nat.lt_of_lt_of_le hx (Nat.pow_le_pow_right (by decide) hle)
  have hpow : 2 ^ n = 2 * 2 ^ (n - 1) := by rw [← Nat.pow_succ', Nat.succ_eq_add_one, Nat.sub_add_cancel hn]
  rw [BitVec.toNat_signExtend, BitVec.toNat_setWidth, Nat.mod_eq_of_lt hlt, BitVec.msb_eq_decide, Nat.add_comm]
  by_cases hsign : 2 ^ (n - 1) ≤ x.toNat
  · have hone : x.toNat / 2 ^ (n - 1) = 1 := Nat.div_eq_of_lt_le (by omega) (by omega)
    simp [hsign, hone]
  · simp [hsign, Nat.div_eq_of_lt (Nat.lt_of_not_le hsign)]

theorem toInt_signExtend_range {n : Nat} (hle : n ≤ 32) (x : BitVec n) :
    -2 ^ (n - 1) ≤ (x.signExtend 32).toInt ∧ (x.signExtend 32).toInt < 2 ^ (n - 1) := by
  rw [BitVec.toInt_signExtend_of_le hle]
  exact ⟨BitVec.le_toInt x, BitVec.toInt_lt⟩

/-- A sign extension of an even offset is even. -/
theorem toNat_signExtend_even {n : Nat} {x : BitVec n} (hn : 0 < n) (h : (!x.getLsbD 0) = true) :
    (x.signExtend 32).toNat % 2 = 0 :=
  even_of_bit0 (by rw [BitVec.getLsbD_signExtend]; simpa [hn] using h)

theorem toInt_le_of_even {v : Word} {m : Int} (heven : v.toNat % 2 = 0) (h : v.toInt < 2 * m) : v.toInt ≤ 2 * m - 2 := by
  rw [BitVec.toInt_eq_toNat_cond] at *
  split at * <;> omega

/-- A field of `m + n` bits is its upper `n` bits above its lower `m`. -/
theorem field_split (w k m n : Nat) :
    w / 2 ^ k % 2 ^ (m + n) = w / 2 ^ (k + m) % 2 ^ n * 2 ^ m + w / 2 ^ k % 2 ^ m := by
  rw [Nat.pow_add, Nat.mod_mul, Nat.div_div_eq_div_mul, ← Nat.pow_add, Nat.mul_comm, Nat.add_comm]

theorem immI_immIOf (w : Word) : immI (immIOf w) =
    BitVec.replicate 21 (w.extractLsb' 31 1) ++ w.extractLsb' 25 6 ++ w.extractLsb' 21 4 ++ w.extractLsb' 20 1 := by
  have := w.isLt
  apply BitVec.eq_of_toNat_eq
  refine Eq.trans ?_ (toNat_append_add (BitVec.replicate 21 (w.extractLsb' 31 1) ++ w.extractLsb' 25 6 ++ w.extractLsb' 21 4)
    (w.extractLsb' 20 1)).symm
  have sign : (immIOf w).toNat / 2 ^ 11 = w.toNat / 2 ^ 31 % 2 := by rw [immIOf, toNat_field]; omega
  rw [immI, toNat_signExtend_word (by decide) (by decide), sign, immIOf]
  simp only [toNat_append_add, toNat_replicate_bit, toNat_field]
  omega

theorem immS_immSOf (w : Word) : immS (immSOf w) =
    BitVec.replicate 21 (w.extractLsb' 31 1) ++ w.extractLsb' 25 6 ++ w.extractLsb' 8 4 ++ w.extractLsb' 7 1 := by
  apply BitVec.eq_of_toNat_eq
  refine Eq.trans ?_ (toNat_append_add (BitVec.replicate 21 (w.extractLsb' 31 1) ++ w.extractLsb' 25 6 ++ w.extractLsb' 8 4)
    (w.extractLsb' 7 1)).symm
  have high : w.toNat / 2 ^ 25 % 2 ^ 7 = w.toNat / 2 ^ 31 % 2 ^ 1 * 2 ^ 6 + w.toNat / 2 ^ 25 % 2 ^ 6 :=
    field_split w.toNat 25 6 1
  have low : w.toNat / 2 ^ 7 % 2 ^ 5 = w.toNat / 2 ^ 8 % 2 ^ 4 * 2 ^ 1 + w.toNat / 2 ^ 7 % 2 ^ 1 :=
    field_split w.toNat 7 1 4
  have sign : (immSOf w).toNat / 2 ^ 11 = w.toNat / 2 ^ 31 % 2 := by rw [toNat_immSOf]; omega
  rw [immS, toNat_signExtend_word (by decide) (by decide), sign, toNat_immSOf]
  simp only [toNat_append_add, toNat_replicate_bit, toNat_field]
  omega

theorem immB_offsetBOf (w : Word) : immB (offsetBOf w) =
    BitVec.replicate 20 (w.extractLsb' 31 1) ++ w.extractLsb' 7 1 ++ w.extractLsb' 25 6 ++ w.extractLsb' 8 4 ++ 0#1 := by
  have := w.isLt
  apply BitVec.eq_of_toNat_eq
  refine Eq.trans ?_ (toNat_append_add (BitVec.replicate 20 (w.extractLsb' 31 1) ++ w.extractLsb' 7 1 ++ w.extractLsb' 25 6 ++
    w.extractLsb' 8 4) 0#1).symm
  have sign : (offsetBOf w).toNat / 2 ^ 12 = w.toNat / 2 ^ 31 % 2 := by rw [toNat_offsetBOf]; omega
  rw [immB, toNat_signExtend_word (by decide) (by decide), sign, toNat_offsetBOf]
  simp only [toNat_append_add, toNat_replicate_bit, toNat_field, BitVec.toNat_ofNat]
  omega

theorem immJ_offsetJOf (w : Word) : immJ (offsetJOf w) = BitVec.replicate 12 (w.extractLsb' 31 1) ++ w.extractLsb' 12 8 ++
    w.extractLsb' 20 1 ++ w.extractLsb' 25 6 ++ w.extractLsb' 21 4 ++ 0#1 := by
  apply BitVec.eq_of_toNat_eq
  refine Eq.trans ?_ (toNat_append_add (BitVec.replicate 12 (w.extractLsb' 31 1) ++ w.extractLsb' 12 8 ++ w.extractLsb' 20 1 ++
    w.extractLsb' 25 6 ++ w.extractLsb' 21 4) 0#1).symm
  have middle : w.toNat / 2 ^ 21 % 2 ^ 10 = w.toNat / 2 ^ 25 % 2 ^ 6 * 2 ^ 4 + w.toNat / 2 ^ 21 % 2 ^ 4 :=
    field_split w.toNat 21 4 6
  have sign : (offsetJOf w).toNat / 2 ^ 20 = w.toNat / 2 ^ 31 % 2 := by rw [toNat_offsetJOf]; omega
  rw [immJ, toNat_signExtend_word (by decide) (by decide), sign, toNat_offsetJOf]
  simp only [toNat_append_add, toNat_replicate_bit, toNat_field, BitVec.toNat_ofNat]
  omega

/-- Settles O4: the ranges are those of the fields' widths, one less at the top for an even offset. -/
theorem immediatesAssembleFromWord : Obligations.ImmediatesAssembleFromWord := by
  intro w
  obtain ⟨lowI, highI⟩ := toInt_signExtend_range (by decide) (immIOf w)
  obtain ⟨lowS, highS⟩ := toInt_signExtend_range (by decide) (immSOf w)
  obtain ⟨lowB, highB⟩ := toInt_signExtend_range (by decide) (offsetBOf w)
  obtain ⟨lowJ, highJ⟩ := toInt_signExtend_range (by decide) (offsetJOf w)
  have evenB := toNat_signExtend_even (by decide) (branchOffsetOk_offsetBOf w)
  have evenJ := toNat_signExtend_even (by decide) (jumpOffsetOk_offsetJOf w)
  exact ⟨⟨immI_immIOf w, lowI, Int.le_of_lt_add_one highI⟩, ⟨immS_immSOf w, lowS, Int.le_of_lt_add_one highS⟩,
    ⟨immB_offsetBOf w, lowB, toInt_le_of_even (m := 2048) evenB highB, evenB⟩, rfl,
    ⟨immJ_offsetJOf w, lowJ, toInt_le_of_even (m := 524288) evenJ highJ, evenJ⟩⟩

/-! ### The synthesized branches (30_encoding.md R102) -/

/-- A word plus a sign-extended one is the sum of their signed values modulo 2^32. -/
theorem add_signExtend {n : Nat} (a : Word) (x : BitVec n) : a + x.signExtend 32 = BitVec.ofInt 32 (a.toInt + x.toInt) := by
  rw [BitVec.signExtend, BitVec.ofInt_add, BitVec.ofInt_toInt]

/-- A branch with an aligned target goes to it if taken, to pc + 4 if not. -/
theorem goesTo_of_branch {i : Instr} {s : State} {taken : Bool} {off : BitVec 13} {target : Word} {c : Prop} [Decidable c]
    (hexec : exec i s = .next (s.branch taken (s.pc + immB off))) (htarget : target = BitVec.ofInt 32 (s.pc.toInt + off.toInt))
    (haligned : target.toNat % 4 = 0) (hc : taken = true ↔ c) : GoesTo i s (if c then target else s.pc + 4) := by
  rw [immB, add_signExtend, ← htarget] at hexec
  apply goesTo_of_exec
  rw [hexec]
  rcases branch_cases s taken target with ⟨ht, -, e⟩ | ⟨-, hmis, -⟩ | ⟨ht, e⟩
  · rw [e, if_pos (hc.1 ht)]
  · exact absurd haligned hmis
  · rw [e, if_neg fun h => by simp [hc.2 h] at ht]; rfl

theorem lessSigned_iff {a b : Word} : lessSigned a b = true ↔ a.toInt < b.toInt := BitVec.slt_iff_toInt_lt

theorem lessUnsigned_iff {a b : Word} : lessUnsigned a b = true ↔ a.toNat < b.toNat := BitVec.ult_iff_lt

theorem not_lessSigned_iff {a b : Word} : (!lessSigned a b) = true ↔ b.toInt ≤ a.toInt := by
  rw [Bool.not_eq_true', ← Bool.not_eq_true, lessSigned_iff, Int.not_lt]

theorem not_lessUnsigned_iff {a b : Word} : (!lessUnsigned a b) = true ↔ b.toNat ≤ a.toNat := by
  rw [Bool.not_eq_true', ← Bool.not_eq_true, lessUnsigned_iff, Nat.not_lt]

/-- Settles O20: each is a branch on its reversed operands. -/
theorem synthesizedBranches : Obligations.SynthesizedBranches := by
  intro s rs rt off target htarget haligned
  exact ⟨goesTo_of_branch rfl htarget haligned lessSigned_iff, goesTo_of_branch rfl htarget haligned lessUnsigned_iff,
    goesTo_of_branch rfl htarget haligned not_lessSigned_iff, goesTo_of_branch rfl htarget haligned not_lessUnsigned_iff⟩

/-! ### FENCE words (30_encoding.md R83 (b), R84) -/

theorem decodeWord_of_isFenceWord {w : Word} {fm pred succ : BitVec 4} {rs1 rd : Reg} (h : IsFenceWord w fm pred succ rs1 rd) :
    decodeWord w = .ok (if isTsoFields fm pred succ then .fenceTso rs1 rd else .fence fm pred succ rs1 rd) := by
  obtain ⟨hop, h3, rfl, rfl, rfl, rfl, rfl⟩ := h
  exact decodeWord_fence hop h3

/-- A FENCE's meaning: the pc advanced, the fields in the history, all else as before. -/
theorem exec_fence_frame {i : Instr} {s : State} {fm pred succ : BitVec 4}
    (h : exec i s = .next (s.record (.fence fm pred succ)).advance) :
    ∃ t, exec i s = .next t ∧ SameRegs s t ∧ t.pc = s.pc + 4 ∧ t.trap = s.trap ∧ SameMemory s t ∧ SamePlatform s t ∧
      t.overwritten = s.overwritten ∧ t.draws = s.draws ∧ t.events = s.events ++ [.fence fm pred succ] :=
  ⟨_, h, fun _ => rfl, rfl, rfl, fun _ => rfl, ⟨rfl, rfl, rfl, rfl, rfl, rfl⟩, rfl, rfl, rfl⟩

/-- Settles O32: the decoder reads the fields of the word, and both meanings are one record of a FENCE. -/
theorem fencesAdvanceAndAreRecorded : Obligations.FencesAdvanceAndAreRecorded := by
  refine ⟨fun w fm pred succ rs1 rd h => ?_, fun w hop h3 => ⟨_, _, _, _, _, hop, h3, rfl, rfl, rfl, rfl, rfl⟩, ?_⟩
  · rw [decodeWord_of_isFenceWord h]
    simp only [isTsoFields_iff]
  · rintro s fm pred succ rs1 rd i (rfl | ⟨rfl, rfl, rfl, rfl⟩)
    · exact exec_fence_frame rfl
    · exact exec_fence_frame rfl

end Sys2Proof.Machine

/-! The proofs of the statements about 40_integer_computational.md: the words of the computational instructions, their values as
arithmetic on the operands' numbers, and what the 21 have in common. -/

namespace Sys2Proof.Machine

/-! ### Words by format decode (30_encoding.md R72, R73, R76) -/

section
variable {w : Word} {op : BitVec 7} {f3 : BitVec 3} {f7 : BitVec 7} {rd rs1 rs2 : Reg} {i : Instr}

theorem decodeWord_of_isIWord {imm : BitVec 12} (h : IsIWord w op f3 rd rs1 imm) (hwf : i.wellFormed = true)
    (hi : encode i = encodeI imm rs1 f3 rd op) : decodeWord w = .ok i := by
  obtain ⟨hop, h3, rfl, rfl, rfl⟩ := h
  have hw : encode i = w := hi.trans (encodeI_of_fields hop h3)
  exact hw ▸ decodeWord_encode hwf

theorem decodeWord_of_isRWord (h : IsRWord w op f3 f7 rd rs1 rs2) (hwf : i.wellFormed = true)
    (hi : encode i = encodeR f7 rs2 rs1 f3 rd op) : decodeWord w = .ok i := by
  obtain ⟨hop, h3, h7, rfl, rfl, rfl⟩ := h
  have hw : encode i = w := hi.trans (encodeR_of_fields hop h3 h7)
  exact hw ▸ decodeWord_encode hwf

theorem decodeWord_of_isUWord {imm : BitVec 20} (h : IsUWord w op rd imm) (hwf : i.wellFormed = true)
    (hi : encode i = encodeU imm rd op) : decodeWord w = .ok i := by
  obtain ⟨hop, rfl, rfl⟩ := h
  have hw : encode i = w := hi.trans (encodeU_of_fields hop)
  exact hw ▸ decodeWord_encode hwf

end

/-- Settles O5: the decoder evaluates on each word. -/
theorem specWordsDecode : Obligations.SpecWordsDecode := by
  unfold Obligations.SpecWordsDecode
  decide

/-- An instruction computes what its meaning writes, in any other form of the value. -/
theorem computesTo_of_exec_of_eq {i : Instr} {s : State} {rd : Reg} {u v : Word} (h : exec i s = .next (s.writeAndAdvance rd u))
    (huv : u = v) : ComputesTo i s rd v := huv ▸ computesTo_of_exec h

/-! ### Sums and differences (40_integer_computational.md R111, R125, R126) -/

theorem add_eq_ofInt (a b : Word) : a + b = BitVec.ofInt 32 (a.toInt + b.toInt) := by
  rw [BitVec.ofInt_add, BitVec.ofInt_toInt, BitVec.ofInt_toInt]

theorem sub_eq_ofInt (a b : Word) : a - b = BitVec.ofInt 32 (a.toInt - b.toInt) :=
  BitVec.eq_of_toInt_eq (by rw [BitVec.toInt_sub, BitVec.toInt_ofInt])

/-- Settles O7: addition and subtraction of words are those of their signed numbers, narrowed. -/
theorem addAndSubtract : Obligations.AddAndSubtract := by
  refine ⟨fun _ _ _ _ h => decodeWord_of_isIWord h rfl rfl, fun _ _ _ _ h => decodeWord_of_isRWord h rfl rfl,
    fun _ _ _ _ h => decodeWord_of_isRWord h rfl rfl, fun s rd rs1 rs2 imm => ⟨?addi, ?add, ?sub⟩⟩
  case addi => exact computesTo_of_exec_of_eq rfl (add_signExtend ..)
  case add => exact computesTo_of_exec_of_eq rfl (add_eq_ofInt ..)
  case sub => exact computesTo_of_exec_of_eq rfl (sub_eq_ofInt ..)

/-! ### Comparisons (R112, R113, R128, R129) -/

theorem setIf_eq_ite {c : Bool} {p : Prop} [Decidable p] (h : c = true ↔ p) : setIf c = if p then 1 else 0 :=
  if_congr h rfl rfl

theorem toInt_immI (imm : BitVec 12) : (immI imm).toInt = imm.toInt := BitVec.toInt_signExtend_of_le (by decide)

/-- Settles O8: a comparison of words is that of their numbers, and an immediate keeps its number when it is sign-extended. -/
theorem setLessThan : Obligations.SetLessThan := by
  refine ⟨fun _ _ _ _ h => decodeWord_of_isIWord h rfl rfl, fun _ _ _ _ h => decodeWord_of_isIWord h rfl rfl,
    fun _ _ _ _ h => decodeWord_of_isRWord h rfl rfl, fun _ _ _ _ h => decodeWord_of_isRWord h rfl rfl,
    fun s rd rs1 rs2 imm => ⟨?slti, ?sltiu, ?slt, ?sltu⟩⟩
  case slti => exact computesTo_of_exec_of_eq rfl (setIf_eq_ite (toInt_immI imm ▸ lessSigned_iff))
  case sltiu => exact computesTo_of_exec_of_eq rfl (setIf_eq_ite lessUnsigned_iff)
  case slt => exact computesTo_of_exec_of_eq rfl (setIf_eq_ite lessSigned_iff)
  case sltu => exact computesTo_of_exec_of_eq rfl (setIf_eq_ite lessUnsigned_iff)

/-! ### Bitwise operations (R114 to R116, R130, R133, R134) -/

/-- The immediate's bit 11 stands for every bit from 11 up (30_encoding.md R78). -/
theorem getLsbD_immI (imm : BitVec 12) {k : Nat} (hk : k < 32) : (immI imm).getLsbD k = imm.getLsbD (min k 11) := by
  rw [immI, BitVec.getLsbD_signExtend, BitVec.msb_eq_getLsbD_last]
  by_cases hlow : k < 12
  · simp [hk, hlow, show min k 11 = k by omega]
  · simp [hk, hlow, show min k 11 = 11 by omega]

/-- Settles O9: each operation acts bit by bit, and `getLsbD_immI` gives the immediate's bits. -/
theorem logicWithImmediate : Obligations.LogicWithImmediate := by
  refine ⟨fun _ _ _ _ h => decodeWord_of_isIWord h rfl rfl, fun _ _ _ _ h => decodeWord_of_isIWord h rfl rfl,
    fun _ _ _ _ h => decodeWord_of_isIWord h rfl rfl, fun s rd rs1 imm => ⟨_, _, _, computesTo_of_exec rfl,
      computesTo_of_exec rfl, computesTo_of_exec rfl, fun k hk => ?_⟩⟩
  rw [BitVec.getLsbD_xor, BitVec.getLsbD_or, BitVec.getLsbD_and, getLsbD_immI imm hk]
  exact ⟨rfl, rfl, rfl⟩

/-- Settles O10: each operation acts bit by bit. -/
theorem logicWithRegister : Obligations.LogicWithRegister :=
  ⟨fun _ _ _ _ h => decodeWord_of_isRWord h rfl rfl, fun _ _ _ _ h => decodeWord_of_isRWord h rfl rfl,
    fun _ _ _ _ h => decodeWord_of_isRWord h rfl rfl, fun _ _ _ _ => ⟨_, _, _, computesTo_of_exec rfl,
      computesTo_of_exec rfl, computesTo_of_exec rfl,
      fun _ _ => ⟨BitVec.getLsbD_xor, BitVec.getLsbD_or, BitVec.getLsbD_and⟩⟩⟩

/-! ### Shifts (R117 to R119, R127, R131, R132) -/

theorem shiftLeft_eq_ofNat (a : Word) (n : Nat) : a <<< n = BitVec.ofNat 32 (a.toNat * 2 ^ n) :=
  BitVec.eq_of_toNat_eq (by rw [BitVec.toNat_shiftLeft, BitVec.toNat_ofNat, Nat.shiftLeft_eq])

theorem ushiftRight_eq_ofNat (a : Word) (n : Nat) : a >>> n = BitVec.ofNat 32 (a.toNat / 2 ^ n) := by
  rw [← Nat.shiftRight_eq_div_pow, ← BitVec.toNat_ushiftRight, BitVec.ofNat_toNat, BitVec.setWidth_eq]

theorem sshiftRight_eq_ofInt (a : Word) (n : Nat) : a.sshiftRight n = BitVec.ofInt 32 (a.toInt / 2 ^ n) := by
  have hdiv : a.toInt / 2 ^ n = (a.sshiftRight n).toInt := by
    rw [BitVec.toInt_sshiftRight, Int.shiftRight_eq_div_pow, Int.natCast_pow]; rfl
  rw [hdiv, BitVec.ofInt_toInt]

theorem shiftAmount_eq_mod (v : Word) : shiftAmount v = v.toNat % 32 := by rw [shiftAmount, toNat_field]; simp

/-- Settles O11: a left shift multiplies, a right shift divides. -/
theorem shiftByConstant : Obligations.ShiftByConstant := by
  refine ⟨fun _ _ _ _ h => decodeWord_of_isRWord h rfl rfl, fun _ _ _ _ h => decodeWord_of_isRWord h rfl rfl,
    fun _ _ _ _ h => decodeWord_of_isRWord h rfl rfl, fun s rd rs1 shamt => ⟨?slli, ?srli, ?srai⟩⟩
  case slli => exact computesTo_of_exec_of_eq rfl (shiftLeft_eq_ofNat ..)
  case srli => exact computesTo_of_exec_of_eq rfl (ushiftRight_eq_ofNat ..)
  case srai => exact computesTo_of_exec_of_eq rfl (sshiftRight_eq_ofInt ..)

/-- Settles O12: the same shifts, by the low five bits of `x[rs2]`. -/
theorem shiftByRegister : Obligations.ShiftByRegister := by
  refine ⟨fun _ _ _ _ h => decodeWord_of_isRWord h rfl rfl, fun _ _ _ _ h => decodeWord_of_isRWord h rfl rfl,
    fun _ _ _ _ h => decodeWord_of_isRWord h rfl rfl, fun s rd rs1 rs2 => ?_⟩
  rw [← shiftAmount_eq_mod]
  exact ⟨computesTo_of_exec_of_eq rfl (shiftLeft_eq_ofNat ..), computesTo_of_exec_of_eq rfl (ushiftRight_eq_ofNat ..),
    computesTo_of_exec_of_eq rfl (sshiftRight_eq_ofInt ..)⟩

/-! ### Upper immediates (R120, R121; 30_encoding.md R103) -/

theorem toNat_immU (imm : BitVec 20) : (immU imm).toNat = imm.toNat * 4096 := by
  rw [immU, toNat_append_add]
  simp

theorem immU_eq_ofNat (imm : BitVec 20) : immU imm = BitVec.ofNat 32 (imm.toNat * 4096) := by
  rw [← toNat_immU, BitVec.ofNat_toNat, BitVec.setWidth_eq]

/-- Settles O13: the value of the U-immediate is its field times 2^12. -/
theorem upperImmediate : Obligations.UpperImmediate := by
  refine ⟨fun _ _ _ h => decodeWord_of_isUWord h rfl rfl, fun _ _ _ h => decodeWord_of_isUWord h rfl rfl,
    fun s rd imm => ⟨computesTo_of_exec_of_eq rfl (immU_eq_ofNat imm), computesTo_of_exec_of_eq rfl ?_⟩⟩
  rw [BitVec.ofNat_add, BitVec.ofNat_toNat, BitVec.setWidth_eq, immU_eq_ofNat]

/-- The constant's bit 11, the sign bit of its lower part, as a number. -/
theorem toNat_bit11 (v : Word) : (if v.getLsbD 11 = true then 1 else 0) = v.toNat / 2048 % 2 := by
  simp only [← BitVec.testBit_toNat, Nat.testBit_eq_decide_div_mod_eq, decide_eq_true_iff]
  split <;> omega

theorem toNat_hi (v : Word) : (Pseudo.hi v).toNat = (v.toNat / 4096 + v.toNat / 2048 % 2) % 1048576 := by
  rw [Pseudo.hi, toNat_field, BitVec.toNat_add, BitVec.toNat_ofNat]
  omega

theorem toNat_immI_lo (v : Word) :
    (immI (Pseudo.lo v)).toNat = v.toNat / 2048 % 2 * (2 ^ 32 - 4096) + v.toNat % 4096 := by
  rw [immI, toNat_signExtend_word (by decide) (by decide), Pseudo.lo, toNat_field]
  omega

/-- Settles O14: a lower part with its sign bit set takes 4096 off, which the upper part's extra 1 puts back. -/
theorem upperAndLowerPartsBuildConstant : Obligations.UpperAndLowerPartsBuildConstant := by
  intro v
  refine ⟨BitVec.eq_of_toNat_eq ?_, rfl, ?_⟩
  · have hv := v.isLt
    rw [BitVec.toNat_add, toNat_immU, toNat_hi, toNat_immI_lo]
    rcases Nat.mod_two_eq_zero_or_one (v.toNat / 2048) with hbit | hbit <;> rw [hbit] <;> omega
  · rw [toNat_hi, toNat_bit11]

/-! ### What the 21 have in common (R110, R124; 45_hints.md R211) -/

/-- Settles O15: a value that names the source registers and the pc only is the same in two states that agree on them. -/
theorem computationalDependsOnSourcesOnly : Obligations.ComputationalDependsOnSourcesOnly := by
  intro i s s' hi hsources hpc
  cases i with
  | lui => exact ⟨_, _, rfl, computesTo_of_exec rfl, computesTo_of_exec rfl⟩
  | auipc => exact ⟨_, _, rfl, computesTo_of_exec rfl, computesTo_of_exec (hpc ▸ rfl)⟩
  | addi rd rs1 | slti rd rs1 | sltiu rd rs1 | xori rd rs1 | ori rd rs1 | andi rd rs1 | slli rd rs1 | srli rd rs1
  | srai rd rs1 =>
    have h1 : s'.x rs1 = s.x rs1 := hsources rs1 (.head _)
    exact ⟨_, _, rfl, computesTo_of_exec rfl, computesTo_of_exec (by rw [← h1]; rfl)⟩
  | add rd rs1 rs2 | sub rd rs1 rs2 | sll rd rs1 rs2 | slt rd rs1 rs2 | sltu rd rs1 rs2 | xor rd rs1 rs2 | srl rd rs1 rs2
  | sra rd rs1 rs2 | or rd rs1 rs2 | and rd rs1 rs2 =>
    have h1 : s'.x rs1 = s.x rs1 := hsources rs1 (.head _)
    have h2 : s'.x rs2 = s.x rs2 := hsources rs2 (.tail _ (.head _))
    exact ⟨_, _, rfl, computesTo_of_exec rfl, computesTo_of_exec (by rw [← h1, ← h2]; rfl)⟩
  | jal | jalr | beq | bne | blt | bge | bltu | bgeu | lb | lh | lw | lbu | lhu | sb | sh | sw | fence | ecall | ebreak
  | fenceTso => cases hi

end Sys2Proof.Machine

/-! The proofs of the statements about 41_control_transfer.md: JAL, JALR and the six conditional branches, each a jump or branch to
the target the rules name. -/

namespace Sys2Proof.Machine

/-! ### Words by format decode (30_encoding.md R75, R77) -/

section
variable {w : Word} {op : BitVec 7} {rd rs1 rs2 : Reg} {i : Instr}

/-- A B-type word holds an even offset, the one condition on a branch. -/
theorem decodeWord_of_isBWord {f3 : BitVec 3} {off : BitVec 13} (h : IsBWord w op f3 rs1 rs2 off)
    (hwf : i.wellFormed = branchOffsetOk off) (hi : encode i = encodeB off rs2 rs1 f3 op) : decodeWord w = .ok i := by
  obtain ⟨hop, h3, rfl, rfl, rfl⟩ := h
  have hw : encode i = w := hi.trans (encodeB_of_fields hop h3)
  exact hw ▸ decodeWord_encode (hwf.trans (branchOffsetOk_offsetBOf w))

/-- A J-type word holds an even offset, the one condition on a JAL. -/
theorem decodeWord_of_isJWord {offset : BitVec 21} (h : IsJWord w op rd offset)
    (hwf : i.wellFormed = jumpOffsetOk offset) (hi : encode i = encodeJ offset rd op) : decodeWord w = .ok i := by
  obtain ⟨hop, rfl, rfl⟩ := h
  have hw : encode i = w := hi.trans (encodeJ_of_fields hop)
  exact hw ▸ decodeWord_encode (hwf.trans (jumpOffsetOk_offsetJOf w))

end

/-! ### Jumps that link (41_control_transfer.md R151 to R153) -/

/-- The jump completes: `rd` gets pc + 4, the pc the target, and nothing else changes. -/
def LinksAndGoesTo (i : Instr) (s : State) (rd : Reg) (target : Word) : Prop :=
  ∃ t, exec i s = .next t ∧ WritesReg s t rd (s.pc + 4) ∧ t.pc = target ∧ t.trap = s.trap ∧
    SameMemory s t ∧ SamePlatform s t ∧ SameRecords s t

theorem linksAndGoesTo_of_exec {i : Instr} {s : State} {rd : Reg} {target : Word}
    (h : exec i s = .next ((s.setX rd (s.pc + 4)).goto target)) : LinksAndGoesTo i s rd target :=
  ⟨_, h, writesReg_of_regs rfl, rfl, rfl, fun _ => rfl, ⟨rfl, rfl, rfl, rfl, rfl, rfl⟩, ⟨rfl, rfl, rfl⟩⟩

/-- A jump links and goes to an aligned target and raises at any other. -/
theorem linksOrTraps_of_exec {i : Instr} {s : State} {rd : Reg} {u target : Word}
    (h : exec i s = .next (s.jumpAndLink rd u)) (hu : u = target) :
    (target.toNat % 4 = 0 → LinksAndGoesTo i s rd target) ∧
    (target.toNat % 4 ≠ 0 → TrapsWith i s .instructionAddressMisaligned target) := by
  subst hu
  rcases jumpAndLink_cases s rd u with ⟨haligned, hjump⟩ | ⟨hmisaligned, hjump⟩
  · exact ⟨fun _ => linksAndGoesTo_of_exec (h.trans (congrArg _ hjump)), fun hne => absurd haligned hne⟩
  · exact ⟨fun heq => absurd heq hmisaligned, fun _ => h.trans (congrArg _ hjump)⟩

/-- Settles O17: JAL is a jump that links, to the pc plus the sign-extended offset. -/
theorem jumpAndLink : Obligations.JumpAndLink :=
  ⟨fun _ _ _ h => decodeWord_of_isJWord h rfl rfl,
    fun s _ offset _ htarget => linksOrTraps_of_exec rfl ((add_signExtend s.pc offset).trans htarget.symm)⟩

/-- Clearing bit 0 is rounding down to an even number. -/
theorem clear_bit0_eq_ofNat (v : Word) : v &&& 0xFFFFFFFE#32 = BitVec.ofNat 32 (v.toNat / 2 * 2) := by
  have hmask : 0xFFFFFFFE#32 = BitVec.allOnes 32 <<< 1 := by decide
  calc v &&& 0xFFFFFFFE#32
    _ = v >>> 1 <<< 1 := by rw [hmask, BitVec.shiftLeft_ushiftRight]
    _ = BitVec.ofNat 32 ((v >>> 1).toNat * 2) := shiftLeft_eq_ofNat (v >>> 1) 1
    _ = BitVec.ofNat 32 (v.toNat / 2 * 2) := by rw [BitVec.toNat_ushiftRight, Nat.shiftRight_eq_div_pow, Nat.pow_one]

/-- Settles O18: JALR is a jump that links, to the sum rounded down to an even number; the sum is of the old `x[rs1]`, whatever
`rd` is. -/
theorem jumpAndLinkRegister : Obligations.JumpAndLinkRegister := by
  refine ⟨fun _ _ _ _ h => decodeWord_of_isIWord h rfl rfl, fun s rd rs1 imm sum target hsum htarget => ?_⟩
  have hjalr : jalrTarget (s.x rs1) (immI imm) = target := by
    rw [jalrTarget, immI, add_signExtend, ← hsum, clear_bit0_eq_ofNat, htarget]
  exact linksOrTraps_of_exec rfl hjalr

/-! ### Conditional branches (41_control_transfer.md R155 to R161) -/

/-- A branch whose condition is `taken`: only when taken does it look at the target, and raise at a misaligned one. -/
theorem goesOrTraps_of_branch {i : Instr} {s : State} {c : Bool} {off : BitVec 13} {target : Word} {taken : Prop}
    (h : exec i s = .next (s.branch c (s.pc + immB off))) (htarget : target = BitVec.ofInt 32 (s.pc.toInt + off.toInt))
    (hc : c = true ↔ taken) :
    (taken → target.toNat % 4 = 0 → GoesTo i s target) ∧
    (taken → target.toNat % 4 ≠ 0 → TrapsWith i s .instructionAddressMisaligned target) ∧
    (¬taken → GoesTo i s (s.pc + 4)) := by
  rw [immB, add_signExtend, ← htarget] at h
  rw [← hc]
  rcases branch_cases s c target with ⟨htaken, haligned, hbranch⟩ | ⟨htaken, hmisaligned, hbranch⟩ | ⟨hnot, hbranch⟩ <;>
    rw [hbranch] at h
  · exact ⟨fun _ _ => goesTo_of_exec h, fun _ hne => absurd haligned hne, fun hn => absurd htaken hn⟩
  · exact ⟨fun _ heq => absurd heq hmisaligned, fun _ _ => h, fun hn => absurd htaken hn⟩
  · have hn : ¬c = true := by rw [hnot]; decide
    exact ⟨fun ht => absurd ht hn, fun ht => absurd ht hn, fun _ => goesTo_of_exec h⟩

theorem beq_iff_toNat_eq {a b : Word} : (a == b) = true ↔ a.toNat = b.toNat := beq_iff_eq.trans BitVec.toNat_inj.symm

theorem bne_iff_toNat_ne {a b : Word} : (a != b) = true ↔ a.toNat ≠ b.toNat :=
  bne_iff_ne.trans (not_congr BitVec.toNat_inj.symm)

/-- Settles O19: each branch is `State.branch` on its comparison, which is that of the registers' numbers. -/
theorem conditionalBranches : Obligations.ConditionalBranches := by
  refine ⟨fun _ _ _ _ h => decodeWord_of_isBWord h rfl rfl, fun _ _ _ _ h => decodeWord_of_isBWord h rfl rfl,
    fun _ _ _ _ h => decodeWord_of_isBWord h rfl rfl, fun _ _ _ _ h => decodeWord_of_isBWord h rfl rfl,
    fun _ _ _ _ h => decodeWord_of_isBWord h rfl rfl, fun _ _ _ _ h => decodeWord_of_isBWord h rfl rfl,
    fun s rs1 rs2 off i taken target hi htarget => ?_⟩
  rcases hi with ⟨rfl, hc⟩ | ⟨rfl, hc⟩ | ⟨rfl, hc⟩ | ⟨rfl, hc⟩ | ⟨rfl, hc⟩ | ⟨rfl, hc⟩
  · exact goesOrTraps_of_branch rfl htarget (beq_iff_toNat_eq.trans hc.symm)
  · exact goesOrTraps_of_branch rfl htarget (bne_iff_toNat_ne.trans hc.symm)
  · exact goesOrTraps_of_branch rfl htarget (lessSigned_iff.trans hc.symm)
  · exact goesOrTraps_of_branch rfl htarget (not_lessSigned_iff.trans hc.symm)
  · exact goesOrTraps_of_branch rfl htarget (lessUnsigned_iff.trans hc.symm)
  · exact goesOrTraps_of_branch rfl htarget (not_lessUnsigned_iff.trans hc.symm)

end Sys2Proof.Machine

/-! The proofs of the statements about 42_load_store.md: the words of the loads and stores, what each leaves where its check raises,
and what it moves where it reaches memory or a device. -/

namespace Sys2Proof.Machine

/-! ### Words by format decode (30_encoding.md R73, R74) -/

theorem decodeWord_of_isSWord {w : Word} {op : BitVec 7} {f3 : BitVec 3} {rs1 rs2 : Reg} {imm : BitVec 12} {i : Instr}
    (h : IsSWord w op f3 rs1 rs2 imm) (hwf : i.wellFormed = true) (hi : encode i = encodeS imm rs2 rs1 f3 op) :
    decodeWord w = .ok i := by
  obtain ⟨hop, h3, rfl, rfl, rfl⟩ := h
  have hw : encode i = w := hi.trans (encodeS_of_fields hop h3)
  exact hw ▸ decodeWord_encode hwf

/-- Settles O24: a load's word is the I-type word of its fields, a store's the S-type word. -/
theorem loadStoreWordsDecode : Obligations.LoadStoreWordsDecode :=
  ⟨fun _ _ _ _ h => decodeWord_of_isIWord h rfl rfl, fun _ _ _ _ h => decodeWord_of_isIWord h rfl rfl,
    fun _ _ _ _ h => decodeWord_of_isIWord h rfl rfl, fun _ _ _ _ h => decodeWord_of_isIWord h rfl rfl,
    fun _ _ _ _ h => decodeWord_of_isIWord h rfl rfl, fun _ _ _ _ h => decodeWord_of_isSWord h rfl rfl,
    fun _ _ _ _ h => decodeWord_of_isSWord h rfl rfl, fun _ _ _ _ h => decodeWord_of_isSWord h rfl rfl⟩

/-! ### An access whose check raises (42_load_store.md R171, R181, R182) -/

section
variable {s : State} {i : Instr} {rd rs1 rs2 : Reg} {imm : BitVec 12} {n : Nat} {c : Cause}

theorem trapsWith_of_isLoad {v : Nat → Word} (h : IsLoad i rd rs1 imm n v)
    (hcheck : checkAccess s (BitVec.ofInt 32 ((s.x rs1).toInt + imm.toInt)) n .load = some c) :
    TrapsWith i s c (BitVec.ofInt 32 ((s.x rs1).toInt + imm.toInt)) := by
  obtain ⟨extend, -, hexec⟩ := exec_of_isLoad h
  rw [TrapsWith, hexec, State.load, memRead_error hcheck]
  rfl

theorem trapsWith_of_isStore (h : IsStore i rs1 rs2 imm n)
    (hcheck : checkAccess s (BitVec.ofInt 32 ((s.x rs1).toInt + imm.toInt)) n .store = some c) :
    TrapsWith i s c (BitVec.ofInt 32 ((s.x rs1).toInt + imm.toInt)) := by
  rw [TrapsWith, exec_of_isStore h, State.store, memWrite_error hcheck]
  rfl

end

/-- Settles O22: each of the eight is a load or store of its width, which raises what its check answers. -/
theorem faultingAccessTraps : Obligations.FaultingAccessTraps := by
  intro s rd rs1 rs2 imm a c ha
  subst ha
  refine ⟨fun h => ⟨?lb, ?lbu⟩, fun h => ⟨?lh, ?lhu⟩, fun h => ?lw, fun h => ?sb, fun h => ?sh, fun h => ?sw⟩
  case lb => exact trapsWith_of_isLoad (.inl ⟨rfl, rfl, rfl⟩) h
  case lbu => exact trapsWith_of_isLoad (.inr (.inl ⟨rfl, rfl, rfl⟩)) h
  case lh => exact trapsWith_of_isLoad (.inr (.inr (.inl ⟨rfl, rfl, rfl⟩))) h
  case lhu => exact trapsWith_of_isLoad (.inr (.inr (.inr (.inl ⟨rfl, rfl, rfl⟩)))) h
  case lw => exact trapsWith_of_isLoad (.inr (.inr (.inr (.inr ⟨rfl, rfl, rfl⟩)))) h
  case sb => exact trapsWith_of_isStore (.inl ⟨rfl, rfl⟩) h
  case sh => exact trapsWith_of_isStore (.inr (.inl ⟨rfl, rfl⟩)) h
  case sw => exact trapsWith_of_isStore (.inr (.inr ⟨rfl, rfl⟩)) h

/-! ### The kinds of an access (43_memory_ordering.md R191) -/

theorem any_not_isDevice_iff {s : State} {a : Word} {n : Nat} :
    ((accessAddrs a n).any fun b => !isDevice s.config.memMap b) = true ↔
      ∃ j, j < n ∧ isDevice s.config.memMap (byteAddr a j) = false := by
  simp only [any_accessAddrs, Bool.not_eq_true']

/-! ### Loads that reach memory or a device (42_load_store.md R172 to R176) -/

theorem bytesValue_lt (e : Endian) (l : List Byte) : bytesValue e l < 256 ^ l.length := by
  cases e with
  | little => exact littleValue_lt l
  | big => exact List.length_reverse ▸ littleValue_lt l.reverse

/-- The number that up to four bytes stand for is that of the word they make. -/
theorem toNat_ofNat_bytesValue_mod {n : Nat} (e : Endian) (f : Nat → Byte) (hn : n ≤ 4) :
    (BitVec.ofNat 32 (bytesValue e ((List.range n).map f))).toNat % 256 ^ n = bytesValue e ((List.range n).map f) := by
  have hlt : bytesValue e ((List.range n).map f) < 256 ^ n := by simpa using bytesValue_lt e ((List.range n).map f)
  have hpow : 256 ^ n ≤ 256 ^ 4 := Nat.pow_le_pow_right (by decide) hn
  rw [BitVec.toNat_ofNat, Nat.mod_eq_of_lt (b := 2 ^ 32) (by omega), Nat.mod_eq_of_lt hlt]

/-- A load that reaches no PLIC register leaves the platform as it was. -/
theorem samePlatform_afterLoad {s : State} {a : Word} {n : Nat} (rd : Reg) (extend : Word → Word) (hn : n ≤ 4)
    (hplic : plicAccess s a n = none) : SamePlatform s (s.afterLoad rd a n extend) := by
  have hread := readValue_memory hplic hn
  exact ⟨rfl, congrArg Loaded.plic hread, congrArg Loaded.posted hread, congrArg Loaded.ahead hread, rfl, rfl⟩

/-- Settles O25: a load completes as `State.afterLoad`, and what it reads and its kinds are said byte by byte. -/
theorem loadsGiveTheBytes : Obligations.LoadsGiveTheBytes := by
  intro s rd rs1 imm a n i v ha hi hreach m
  obtain ⟨hcheck, hplic⟩ := hreach
  have hload : IsLoad i rd rs1 imm n v := hi
  obtain ⟨-, hn⟩ := width_of_isLoad hload
  obtain ⟨extend, hext, hexec⟩ := exec_load_of_check hload
  have hrun : exec i s = .next (s.afterLoad rd a n extend) := ha ▸ hexec s (ha ▸ hcheck)
  have hvalue : (readValue s a n).value = BitVec.ofNat 32 m := readValue_bytes hn hplic fun _ _ => rfl
  have hrd : extend (readValue s a n).value = v m := by rw [hext, hvalue, toNat_ofNat_bytesValue_mod _ _ hn]
  exact ⟨_, hrun, hrd ▸ writesReg_of_regs rfl, rfl, rfl, fun _ => rfl, samePlatform_afterLoad rd extend hn hplic, rfl,
    accessKinds s a n .load, by rw [← hvalue]; rfl, any_accessAddrs, any_not_isDevice_iff, rfl, rfl⟩

/-! ### Stores that reach memory or a device (42_load_store.md R177 to R179) -/

/-- A store that reaches no PLIC register leaves the platform as it was. -/
theorem samePlatform_afterStore {s : State} {a : Word} {n : Nat} (v : Word) (hplic : plicAccess s a n = none) :
    SamePlatform s (s.afterStore a n v) :=
  ⟨rfl, rfl, postedAfterStore_memory v hplic, aheadAfterStore_memory v hplic, rfl, rfl⟩

/-- A store puts nothing at an address that is none of its own or a device's. -/
theorem read_afterStore_of_not_stored {s : State} {a : Word} {n b : Nat} (v : Word)
    (h : (∀ j, j < n → b ≠ byteAddr a j) ∨ isDevice s.config.memMap b = true) :
    Memory.read (s.afterStore a n v).mem b = Memory.read s.mem b := by
  refine Memory.read_writeAll_of_forall_ne _ _ fun c hc hcb => ?_
  obtain ⟨j, hj, rfl, hmain⟩ := mem_storeCells.1 hc
  rcases h with hother | hdevice
  · exact hother j hj hcb.symm
  · rw [← hcb, hmain] at hdevice
    cases hdevice

theorem lowBytes_eq_ofNat (n : Nat) (v : Word) : lowBytes n v = BitVec.ofNat 32 (v.toNat % 256 ^ n) := by
  rw [lowBytes, Nat.pow_mul]

/-- Settles O26: a store completes as `State.afterStore`, and the bytes it puts, those it leaves and its kinds are said byte by
byte. -/
theorem storesPutTheBytes : Obligations.StoresPutTheBytes := by
  intro s rs1 rs2 imm a n i ha hi hreach hwf
  obtain ⟨hcheck, hplic⟩ := hreach
  have hstore : IsStore i rs1 rs2 imm n := hi
  obtain ⟨-, hn⟩ := width_of_isStore hstore
  have hrun : exec i s = .next (s.afterStore a n (s.x rs2)) := ha ▸ exec_store_of_check hstore (ha ▸ hcheck)
  rw [← lowBytes_eq_ofNat]
  exact ⟨_, hrun, fun _ => rfl, rfl, rfl, samePlatform_afterStore (s.x rs2) hplic,
    fun _ hj hmain => (read_memWrite hwf (by omega) (memWrite_ok hcheck) hj hmain :),
    fun _ hb => read_afterStore_of_not_stored (s.x rs2) hb, wf_store_mem a n (s.x rs2) hwf,
    accessKinds s a n .store, rfl, any_accessAddrs, any_not_isDevice_iff, rfl, rfl⟩

end Sys2Proof.Machine

/-! The proofs of the statements about 43_memory_ordering.md: which kinds a FENCE with given fields orders, and what a FENCE between
two accesses obliges the memory system to. -/

namespace Sys2Proof.Machine

/-! ### What the fields of a FENCE order (43_memory_ordering.md R192 to R194) -/

/-- An operation is of a kind in the field if the bit of one of its kinds is set. -/
theorem meets_kindsOf (bits : BitVec 4) (a : KindSet) : (kindsOf bits).meets a =
    ((bits.getLsbD 3 && a.i) || (bits.getLsbD 2 && a.o) || (bits.getLsbD 1 && a.r) || (bits.getLsbD 0 && a.w)) := rfl

theorem meets_kindsOf_zero (a : KindSet) : (kindsOf 0).meets a = false := by simp [meets_kindsOf]

theorem fenceOrders_tso (a b : KindSet) :
    fenceOrders 0b1000 0b0011 0b0011 a b = (a.r && (b.r || b.w) || a.w && b.w) := rfl

/-- All settings but that of FENCE.TSO order by `pred` and `succ` alone (R192, R194). -/
theorem fenceOrders_of_not_tso {fm pred succ : BitVec 4} (h : ¬(fm = 0b1000 ∧ pred = 0b0011 ∧ succ = 0b0011)) (a b : KindSet) :
    fenceOrders fm pred succ a b = ((kindsOf pred).meets a && (kindsOf succ).meets b) :=
  if_neg (mt isTsoFields_iff.1 h)

theorem fenceOrders_normal (pred succ : BitVec 4) (a b : KindSet) :
    fenceOrders 0 pred succ a b = ((kindsOf pred).meets a && (kindsOf succ).meets b) :=
  fenceOrders_of_not_tso (fun h => absurd h.1 (by decide)) a b

/-- FENCE RW,RW orders accesses of main memory, whichever they are. -/
theorem fenceOrders_rw_rw (a b : KindSet) :
    fenceOrders 0 0b0011 0b0011 a b = ((a.r || a.w) && (b.r || b.w)) := by
  rw [fenceOrders_normal, meets_kindsOf, meets_kindsOf]
  simp

/-- What FENCE.TSO orders, FENCE RW,RW orders too (R193). -/
theorem fenceOrders_rw_rw_of_tso {a b : KindSet} (h : fenceOrders 0b1000 0b0011 0b0011 a b = true) :
    fenceOrders 0 0b0011 0b0011 a b = true := by
  simp only [fenceOrders_tso, fenceOrders_rw_rw, Bool.or_eq_true, Bool.and_eq_true] at h ⊢
  rcases h with ⟨hread, hany⟩ | ⟨hwrite, hwrite'⟩
  · exact ⟨.inl hread, hany⟩
  · exact ⟨.inr hwrite, .inr hwrite'⟩

/-- A FENCE with an empty field orders nothing: no such setting is FENCE.TSO (45_hints.md R212). -/
theorem fenceOrders_of_empty {fm pred succ : BitVec 4} (h : pred = 0 ∨ succ = 0) (a b : KindSet) :
    fenceOrders fm pred succ a b = false := by
  rcases h with rfl | rfl
  · rw [fenceOrders_of_not_tso (fun h => absurd h.2.1 (by decide)), meets_kindsOf_zero, Bool.false_and]
  · rw [fenceOrders_of_not_tso (fun h => absurd h.2.2 (by decide)), meets_kindsOf_zero, Bool.and_false]

/-- Settles O33: FENCE.TSO has its own order, and every other setting that of its two sets. -/
theorem fenceModes : Obligations.FenceModes := by
  intro fm pred succ a b
  refine ⟨?normal, ?tso, fenceOrders_rw_rw_of_tso, ?reserved, fun h => fenceOrders_of_empty h a b⟩
  case normal => rw [fenceOrders_normal, Bool.and_eq_true, meets_kindsOf, meets_kindsOf]
  case tso => simp only [fenceOrders_tso, Bool.or_eq_true, Bool.and_eq_true]
  case reserved => exact fun h => (fenceOrders_of_not_tso h a b).trans (fenceOrders_normal pred succ a b).symm

/-! ### FENCEs between two accesses of the history (43_memory_ordering.md R190) -/

theorem fencedBefore_iff {h : List Event} {i : Nat} {b : KindSet} : fencedBefore h i b = true ↔
    ∃ k, i < k ∧ ∃ a addr n v fm pred succ, h[i]? = some (.access a addr n v) ∧ h[k]? = some (.fence fm pred succ) ∧
      fenceOrders fm pred succ a b = true := by
  simp only [fencedBefore, List.any_eq_true, List.mem_range, Bool.and_eq_true, decide_eq_true_eq]
  constructor
  · rintro ⟨k, -, hik, horders⟩
    split at horders
    next a addr n v fm pred succ hi hk => exact ⟨k, hik, a, addr, n, v, fm, pred, succ, hi, hk, horders⟩
    next => cases horders
  · rintro ⟨k, hik, a, addr, n, v, fm, pred, succ, hi, hk, horders⟩
    obtain ⟨hlt, -⟩ := List.getElem?_eq_some_iff.1 hk
    exact ⟨k, hlt, hik, by simpa only [hi, hk] using horders⟩

/-- An access is ordered before what comes next by the FENCEs that follow it, and by no other event. -/
theorem fencedBefore_append_access {before later : List Event} {a b : KindSet} {addr : Word} {n : Nat} {v : Word} :
    fencedBefore (before ++ .access a addr n v :: later) before.length b = true ↔
      ∃ fm pred succ, .fence fm pred succ ∈ later ∧ fenceOrders fm pred succ a b = true := by
  have haccess : (before ++ .access a addr n v :: later)[before.length]? = some (.access a addr n v) := by simp
  have hlater (m : Nat) : (before ++ .access a addr n v :: later)[before.length + 1 + m]? = later[m]? := by
    rw [List.getElem?_append_right (by omega), show before.length + 1 + m - before.length = m + 1 by omega,
      List.getElem?_cons_succ]
  rw [fencedBefore_iff]
  constructor
  · rintro ⟨k, hk, a', addr', n', v', fm, pred, succ, hi, hfence, horders⟩
    obtain ⟨m, rfl⟩ := Nat.exists_eq_add_of_le (Nat.succ_le_of_lt hk)
    obtain ⟨rfl, -⟩ := Event.access.inj (Option.some.inj (haccess.symm.trans hi))
    exact ⟨fm, pred, succ, List.mem_of_getElem? ((hlater m).symm.trans hfence), horders⟩
  · rintro ⟨fm, pred, succ, hmem, horders⟩
    obtain ⟨m, hm⟩ := List.mem_iff_getElem?.1 hmem
    exact ⟨before.length + 1 + m, by omega, a, addr, n, v, fm, pred, succ, haccess, (hlater m).trans hm, horders⟩

/-- What must precede an access is what the events before it order before its kinds. -/
theorem mustPrecede_append_access (h after : List Event) (i : Nat) (b : KindSet) (addr : Word) (n : Nat) (v : Word) :
    mustPrecede (h ++ .access b addr n v :: after) i h.length = fencedBefore h i b := by
  simp [mustPrecede]

/-- Of two accesses the history obliges the earlier to precede the later by the FENCEs between them, whatever comes before and
after (R190). -/
theorem mustPrecede_between {before between after : List Event} {a b : KindSet} {addrA addrB : Word} {na nb : Nat} {va vb : Word} :
    mustPrecede (before ++ .access a addrA na va :: (between ++ .access b addrB nb vb :: after)) before.length
        (before.length + 1 + between.length) = true ↔
      ∃ fm pred succ, .fence fm pred succ ∈ between ∧ fenceOrders fm pred succ a b = true := by
  have hlist : before ++ .access a addrA na va :: (between ++ .access b addrB nb vb :: after) =
      (before ++ .access a addrA na va :: between) ++ .access b addrB nb vb :: after := by simp
  have hlength : before.length + 1 + between.length = (before ++ .access a addrA na va :: between).length := by
    simp only [List.length_append, List.length_cons]
    omega
  rw [hlist, hlength, mustPrecede_append_access, fencedBefore_append_access]

/-- The only FENCE among accesses is the one that stands there. -/
theorem fence_mem_of_accesses {l1 l2 : List Event} (h : ∀ e ∈ l1 ++ l2, ∃ k a n v, e = .access k a n v)
    {fm pred succ fm' pred' succ' : BitVec 4} : .fence fm' pred' succ' ∈ l1 ++ .fence fm pred succ :: l2 ↔
      fm' = fm ∧ pred' = pred ∧ succ' = succ := by
  have hno : Event.fence fm' pred' succ' ∉ l1 ++ l2 := by
    intro hmem
    obtain ⟨k, a, n, v, heq⟩ := h _ hmem
    cases heq
  rw [List.mem_append, not_or] at hno
  simp [hno.1, hno.2]

/-- Settles O34: of the two accesses only the FENCE between them can order the one before the other. -/
theorem fenceObligationOverHistory : Obligations.FenceObligationOverHistory := by
  refine ⟨?_, fun h i j ha => mustPrecede_of_accesses ha i j⟩
  intro before middle1 middle2 after ka kb addrA addrB na nb va vb fm pred succ hmiddle
  have hlist : before ++ [.access ka addrA na va] ++ middle1 ++ [.fence fm pred succ] ++ middle2 ++
      [.access kb addrB nb vb] ++ after =
        before ++ .access ka addrA na va :: ((middle1 ++ .fence fm pred succ :: middle2) ++ .access kb addrB nb vb :: after) := by
    simp
  have hindex : before.length + 1 + middle1.length + 1 + middle2.length =
      before.length + 1 + (middle1 ++ .fence fm pred succ :: middle2).length := by
    simp only [List.length_append, List.length_cons]
    omega
  rw [hlist, hindex, Bool.eq_iff_iff, mustPrecede_between]
  constructor
  · rintro ⟨fm', pred', succ', hmem, horders⟩
    obtain ⟨rfl, rfl, rfl⟩ := (fence_mem_of_accesses hmiddle).1 hmem
    exact horders
  · exact fun horders => ⟨fm, pred, succ, by simp, horders⟩

end Sys2Proof.Machine

/-! The proof of the statement about 44_system.md: the words of ECALL and EBREAK, and the exceptions they raise. -/

namespace Sys2Proof.Machine

/-- A well-formed instruction has one word, the encoder's: O1 and O2 together. -/
theorem decodeWord_eq_ok_iff_eq_encode {w : Word} {i : Instr} (h : i.wellFormed = true) :
    decodeWord w = .ok i ↔ w = encode i := by
  constructor
  · intro hdecode
    obtain ⟨-, hword⟩ := encodes_of_decodeWord hdecode
    exact hword.symm
  · rintro rfl
    exact decodeWord_encode h

theorem encode_ecall : encode .ecall = 0x00000073#32 := by decide

theorem encode_ebreak : encode .ebreak = 0x00100073#32 := by decide

/-- A fatal ECALL raises EnvironmentCall (44_system.md R201, 60_exceptions.md R229). -/
theorem exec_ecall_fatal {s : State} (h : s.config.trapMode = .fatal) :
    exec .ecall s = .next (s.raise .environmentCall 0) := by
  simp only [exec, execEcall, h]

/-- EBREAK raises Breakpoint at its own address, whatever TRAP_MODE is (44_system.md R202, 60_exceptions.md R224). -/
theorem exec_ebreak (s : State) : exec .ebreak s = .next (s.raise .breakpoint s.pc) := rfl

/-- Settles O35: the words are the encoder's, and all that both instructions do is raise. -/
theorem environmentCallAndBreakpointTrap : Obligations.EnvironmentCallAndBreakpointTrap := by
  refine ⟨fun w => ⟨?ecallWord, ?ebreakWord⟩, fun s => ⟨?ecallTraps, ?ebreakTraps⟩⟩
  case ecallWord => rw [decodeWord_eq_ok_iff_eq_encode rfl, encode_ecall]
  case ebreakWord => rw [decodeWord_eq_ok_iff_eq_encode rfl, encode_ebreak]
  case ecallTraps => exact exec_ecall_fatal
  case ebreakTraps => exact exec_ebreak s

end Sys2Proof.Machine

/-! The proof of the statement about 45_hints.md: a HINT or the NOP has no effect but that of completing. -/

namespace Sys2Proof.Machine

/-- A HINT that is no FENCE is an integer computational instruction with `rd = x0` (45_hints.md R211), as the NOP is; a FENCE that is
one has `fm = 0` and an empty field (R212). -/
theorem isHint_or_nop_iff {i : Instr} : isHint i = true ∨ i = nop ↔
    (isComputational i = true ∧ destination i = some 0) ∨
      ∃ pred succ rs1 rd, i = .fence 0 pred succ rs1 rd ∧ (pred = 0 ∨ succ = 0) := by
  by_cases hnop : i = nop
  · subst hnop
    exact iff_of_true (.inr rfl) (.inl ⟨by decide, rfl⟩)
  cases i with
  | fence fm pred succ rs1 rd => simp [isHint, nop, isComputational, computationalMnemonics, Instr.mnemonic]
  | _ => simp [isHint, hnop]

/-- A write to x0 is no change (10_state.md R22). -/
theorem sameRegs_of_writesReg_x0 {s t : State} {v : Word} (h : WritesReg s t 0 v) : SameRegs s t := by
  obtain ⟨-, hothers⟩ := h
  intro r
  by_cases hr : r = 0
  · subst hr
    exact t.x_zero.trans s.x_zero.symm
  · exact hothers r hr

/-- What an instruction computes into x0 is lost, and the pc advances. -/
theorem ComputesTo.goesTo_of_x0 {i : Instr} {s : State} {v : Word} (h : ComputesTo i s 0 v) : GoesTo i s (s.pc + 4) := by
  obtain ⟨t, hrun, hwrites, hframe⟩ := h
  exact ⟨t, hrun, sameRegs_of_writesReg_x0 hwrites, hframe⟩

/-- Settles O16: a computational HINT or the NOP writes only x0, and a FENCE HINT adds to the history a FENCE with an empty field, which
orders nothing. -/
theorem hintsChangeOnlyPc : Obligations.HintsChangeOnlyPc := by
  intro i s hi
  rcases isHint_or_nop_iff.1 hi with ⟨hcomp, hdest⟩ | ⟨pred, succ, rs1, rd, rfl, hempty⟩
  · obtain ⟨rd, v, hrd, hcomputes, -⟩ := computationalDependsOnSourcesOnly i s s hcomp (fun _ _ => rfl) rfl
    obtain rfl : rd = 0 := Option.some.inj (hrd.symm.trans hdest)
    obtain ⟨t, hrun, hregs, hpc, htrap, hmem, hplatform, hover, hevents, hdraws⟩ := hcomputes.goesTo_of_x0
    exact ⟨t, hrun, hregs, hpc, htrap, hmem, hplatform, hover, hdraws, .inl hevents⟩
  · obtain ⟨t, hrun, hregs, hpc, htrap, hmem, hplatform, hover, hdraws, hevents⟩ :=
      exec_fence_frame (i := .fence 0 pred succ rs1 rd) (s := s) rfl
    exact ⟨t, hrun, hregs, hpc, htrap, hmem, hplatform, hover, hdraws,
      .inr ⟨0, pred, succ, hevents, fenceOrders_of_empty hempty⟩⟩

end Sys2Proof.Machine

/-! The proofs of the statements about 60_exceptions.md but for its section 60.8: a serviced ECALL, what raises and what a trap
leaves, a halted hart, and the local pending bits. -/

namespace Sys2Proof.Machine

/-! ### A serviced ECALL (60_exceptions.md R236) -/

theorem exec_ecall_service {s : State} (h : s.config.trapMode = .service) :
    exec .ecall s = .next (s.serve (Config.ecallService s.draws s.regs s.mem s.pc)) := by
  simp only [exec, execEcall, h]

theorem serve_of_halt {s : State} {reply : ServiceReply} (h : reply.halt = true) :
    s.serve reply = s.raise .environmentCall 0 := by
  rw [State.serve, if_pos h]

theorem serve_of_resume {s : State} {reply : ServiceReply} (h : reply.halt = false) :
    s.serve reply = s.afterService reply := by
  rw [State.serve, if_neg (Bool.eq_false_iff.1 h), State.afterService]

/-- Settles O36: the reply halts the hart, or is written to the registers and, cell by cell, to main memory. -/
theorem servicedEcall : Obligations.ServicedEcall := by
  intro s hm hwf
  refine ⟨exec_ecall_service hm, fun reply => ⟨serve_of_halt, fun hresume => ?_⟩⟩
  refine ⟨_, serve_of_resume hresume, State.x_zero _, fun k hk => readRegs_ofNat_succ reply.regs k hk, rfl, rfl,
    ⟨rfl, rfl, rfl, rfl, rfl, rfl⟩, rfl, wf_service_mem reply hwf,
    fun b hb => Memory.read_writeAll_mainCells_of_not_main s.mem hb, fun hn c hc hmain hlt => ?_⟩
  exact Memory.read_writeAll_mainCells_of_mem hwf hn (mem_mainCells.2 ⟨hc, hmain, hlt⟩)

/-! ### Precise traps (60_exceptions.md R220, R233) -/

/-- The only effect that halts a running hart is raising, which changes nothing but the record. -/
theorem ExecEffect.eq_raise_of_trap {i : Instr} {s t : State} {rec : TrapRecord} (h : ExecEffect i s t) (hs : s.trap = none)
    (ht : t.trap = some rec) : t = s.raise rec.cause rec.tval ∧ rec.epc = s.pc := by
  have running {u : State} (hu : u.trap = s.trap) (hrec : u.trap = some rec) : False := by
    rw [hu, hs] at hrec
    cases hrec
  cases h with
  | own h =>
    cases h with
    | raises c tval => cases ht; exact ⟨rfl, rfl⟩
    | computes | jumps | goes | advances | fences => exact (running rfl ht).elim
  | loads | stores | resumes => exact (running rfl ht).elim

/-- A check that answers an exception answers one of the two of its kind, and for single bytes the access fault. -/
theorem cause_of_checkAccess {s : State} {a : Word} {n : Nat} {k : Access} {c : Cause} (h : checkAccess s a n k = some c) :
    c = accessFaultCause k ∨ (c = misalignedCause k ∧ n ≠ 1) := by
  rcases checkAccess_cases s a n k with e | e | ⟨e, ha⟩ <;> rw [e] at h <;> cases h
  · exact .inl rfl
  · refine .inr ⟨rfl, ?_⟩
    rintro rfl
    exact ha (Nat.mod_one _)

theorem cause_of_load_traps {s : State} {rd : Reg} {a : Word} {n : Nat} {extend : Word → Word} {rec : TrapRecord}
    (hs : s.trap = none) (h : (s.load rd a n extend).trap = some rec) :
    rec.cause = .loadAccessFault ∨ (rec.cause = .loadAddressMisaligned ∧ n ≠ 1) := by
  rcases load_cases s rd a n extend with ⟨c, hcheck, e⟩ | ⟨-, e⟩ <;> rw [e] at h
  · cases h
    exact cause_of_checkAccess hcheck
  · exact absurd h (by simp [hs])

theorem cause_of_store_traps {s : State} {a : Word} {n : Nat} {v : Word} {rec : TrapRecord} (hs : s.trap = none)
    (h : (s.store a n v).trap = some rec) :
    rec.cause = .storeAccessFault ∨ (rec.cause = .storeAddressMisaligned ∧ n ≠ 1) := by
  rcases store_cases s a n v with ⟨c, hcheck, e⟩ | ⟨-, e⟩ <;> rw [e] at h
  · cases h
    exact cause_of_checkAccess hcheck
  · exact absurd h (by simp [hs])

/-- An instruction raises only what 60_exceptions.md R220 lists for it. -/
theorem cause_mem_canRaise {i : Instr} {s t : State} {rec : TrapRecord} (hs : s.trap = none) (h : exec i s = .next t)
    (ht : t.trap = some rec) : rec.cause ∈ canRaise i := by
  cases i with
  | lui | auipc | addi | slti | sltiu | xori | ori | andi | slli | srli | srai | add | sub | sll | slt | sltu | xor | srl | sra
  | or | and | fence | fenceTso => cases h; exact absurd ht (by simp [hs])
  | jal | jalr => cases h; exact List.mem_singleton.2 (cause_of_jumpAndLink_traps hs ht)
  | beq | bne | blt | bge | bltu | bgeu => cases h; exact List.mem_singleton.2 (cause_of_branch_traps hs ht)
  | ecall => exact List.mem_singleton.2 (cause_of_ecall_traps hs h ht)
  | ebreak => cases h; cases ht; exact List.mem_singleton.2 rfl
  | lb | lbu =>
    cases h
    exact List.mem_singleton.2 ((cause_of_load_traps hs ht).resolve_right fun hmis => hmis.2 rfl)
  | sb =>
    cases h
    exact List.mem_singleton.2 ((cause_of_store_traps hs ht).resolve_right fun hmis => hmis.2 rfl)
  | lh | lhu | lw =>
    cases h
    exact List.mem_pair.2 ((cause_of_load_traps hs ht).symm.imp_left And.left)
  | sh | sw =>
    cases h
    exact List.mem_pair.2 ((cause_of_store_traps hs ht).symm.imp_left And.left)

/-- Settles O38: the effect is that of raising, and the cause is one of the instruction's. -/
theorem trapsArePrecise : Obligations.TrapsArePrecise := by
  intro i s t rec hs h ht
  obtain ⟨hraise, hepc⟩ := (execEffect_of_next h).eq_raise_of_trap hs ht
  refine ⟨?_, hepc, cause_mem_canRaise hs h ht⟩
  rw [hraise, State.raise, ← hepc]

/-! ### Traps before an instruction runs (60_exceptions.md R222, R223) -/

theorem hartTurn_of_accessFault {s : State} (ht : s.trap = none) (hh : s.config.numHarts = 1)
    (hi : s.config.interrupts = false) (hm : mapAllows s.config.memMap s.pc 4 .fetch = false) :
    hartTurn s = .next (s.raise .instructionAccessFault s.pc) := by
  simp [hartTurn, ready, ht, hh, hi, fetch, hm]

/-- The word fetched is the one whose bytes stand at the four addresses. -/
theorem fetchedWord_eq {pc w : Word} {f : Nat → Byte} (h : ∀ j, j < 4 → f (byteAddr pc j) = w.extractLsb' (8 * j) 8) :
    fetchedWord pc f = w := by
  rw [fetchedWord, h 0 (by decide), h 1 (by decide), h 2 (by decide), h 3 (by decide)]
  exact wordOfBytes_extract w

/-- Settles O40: the hart's turn at a fetch that the map refuses, and at a word of no instruction. -/
theorem fetchAndDecodeTraps : Obligations.FetchAndDecodeTraps := by
  intro s ha ht hh hi
  rw [step_of_agenda_nil ha]
  refine ⟨hartTurn_of_accessFault ht hh hi, fun w e hm hs hbytes hd => ?_⟩
  have hf := fetch_clean hm hs
  rw [fetchedWord_eq hbytes] at hf
  exact hartTurn_of_reserved ht hh hi hf hd

/-! ### A halted hart and the other agents (60_exceptions.md R232, 00_scope.md R13) -/

theorem hartTurn_of_halted {s : State} {rec : TrapRecord} (h : s.trap = some rec) : hartTurn s = .fault (.halted rec) := by
  simp [hartTurn, ready, h]

/-- Another agent's turn touches memory, what is noted of it, the draw counter, the PLIC, the way to it and the pending bits only. -/
theorem agentTurn_leaves {a : AgentAction} {s t : State} (h : agentTurn a s = .next t) :
    t.regs = s.regs ∧ t.events = s.events ∧ t.agenda = s.agenda ∧
      ((∀ cells, a ≠ .memoryWrite cells) → t.mem = s.mem ∧ t.overwritten = s.overwritten) := by
  rcases agentTurn_cases h with ⟨src, b, -, rfl⟩ | ⟨cells, ha, rfl⟩ | ⟨k, -, rfl⟩ | ⟨event, b, n, -, rfl⟩ |
    ⟨event, b, n, v, -, rfl⟩ | ⟨-, rfl⟩ | ⟨p, q, -, -, rfl⟩
  · exact ⟨rfl, rfl, rfl, fun _ => ⟨rfl, rfl⟩⟩
  · exact ⟨rfl, rfl, rfl, fun hne => absurd ha (hne cells)⟩
  · rcases deliverStore_cases s k with e | ⟨_, _, -, -, e⟩ <;> rw [e] <;> exact ⟨rfl, rfl, rfl, fun _ => ⟨rfl, rfl⟩⟩
  · rcases answerAhead_cases s event b n with e | ⟨_, _, _, -, -, -, -, e⟩ <;> rw [e] <;> exact ⟨rfl, rfl, rfl, fun _ => ⟨rfl, rfl⟩⟩
  · rcases storeAhead_cases s event b n v with e | ⟨_, _, _, -, -, -, -, e⟩ <;> rw [e] <;> exact ⟨rfl, rfl, rfl, fun _ => ⟨rfl, rfl⟩⟩
  · exact ⟨rfl, rfl, rfl, fun _ => ⟨rfl, rfl⟩⟩
  · exact ⟨rfl, rfl, rfl, fun _ => ⟨rfl, rfl⟩⟩

/-- Settles O43: the hart's turn looks at the record first, and the frame of another agent's turn says the rest. -/
theorem haltedHartTakesNoStep : Obligations.HaltedHartTakesNoStep := by
  refine ⟨fun s rec ht => ⟨fun ha => ?_, fun rest ha => ?_⟩, fun s t a rest ha h => ?_⟩
  · rw [step_of_agenda_nil ha, hartTurn_of_halted ht]
  · rw [step_of_agenda_hart ha, hartTurn_of_halted (s := { s with agenda := rest }) ht]
  · rw [step_of_agenda_act ha] at h
    obtain ⟨hpc, htrap, hconf⟩ := agentTurn_frame h
    obtain ⟨hregs, hevents, hagenda, hmem⟩ := agentTurn_leaves h
    refine ⟨sameRegs_of_regs hregs, hpc, htrap, hevents, hconf, hagenda, fun hne => ?_⟩
    obtain ⟨hmem, hover⟩ := hmem hne
    exact ⟨fun b => by rw [hmem], hover⟩

/-! ### The local pending bits (60_exceptions.md R241, 10_state.md R34) -/

theorem mem_setPending {pending : List LocalSource} {src q : LocalSource} {asserted : Bool} :
    q ∈ setPending pending src asserted ↔ (q = src ∧ asserted = true) ∨ (q ≠ src ∧ q ∈ pending) := by
  cases asserted with
  | false => simp [setPending, and_comm]
  | true =>
    by_cases hq : q = src
    · subst hq
      by_cases hc : q ∈ pending <;> simp [setPending, hc]
    · by_cases hc : src ∈ pending <;> simp [setPending, hc, hq]

section
variable (s : State) (bits : List LocalSource)

/-- A load does not look at the pending bits. -/
theorem load_localPending (rd : Reg) (a : Word) (n : Nat) (extend : Word → Word) :
    State.load { s with localPending := bits } rd a n extend = { s.load rd a n extend with localPending := bits } := by
  have hcheck : checkAccess { s with localPending := bits } a n .load = checkAccess s a n .load := rfl
  cases h : checkAccess s a n .load with
  | none =>
    simp only [State.load, memRead_ok h, memRead_ok (hcheck.trans h)]
    rfl
  | some c =>
    simp only [State.load, memRead_error h, memRead_error (hcheck.trans h)]
    rfl

theorem store_localPending (a : Word) (n : Nat) (v : Word) :
    State.store { s with localPending := bits } a n v = { s.store a n v with localPending := bits } := by
  have hcheck : checkAccess { s with localPending := bits } a n .store = checkAccess s a n .store := rfl
  cases h : checkAccess s a n .store with
  | none =>
    simp only [State.store, memWrite_ok h, memWrite_ok (hcheck.trans h)]
    rfl
  | some c =>
    simp only [State.store, memWrite_error h, memWrite_error (hcheck.trans h)]
    rfl

theorem jumpAndLink_localPending (rd : Reg) (t : Word) :
    State.jumpAndLink { s with localPending := bits } rd t = { s.jumpAndLink rd t with localPending := bits } := by
  unfold State.jumpAndLink
  split <;> rfl

theorem branch_localPending (taken : Bool) (t : Word) :
    State.branch { s with localPending := bits } taken t = { s.branch taken t with localPending := bits } := by
  unfold State.branch
  split
  · split <;> rfl
  · rfl

theorem serve_localPending (reply : ServiceReply) :
    State.serve { s with localPending := bits } reply = { s.serve reply with localPending := bits } := by
  cases h : reply.halt with
  | true => rw [serve_of_halt h, serve_of_halt h]; rfl
  | false => rw [serve_of_resume h, serve_of_resume h]; rfl

end

/-- An instruction does the same whatever the pending bits are. -/
theorem exec_localPending {i : Instr} {s t : State} (bits : List LocalSource) (h : exec i s = .next t) :
    exec i { s with localPending := bits } = .next { t with localPending := bits } := by
  cases i with
  | lui | auipc | addi | slti | sltiu | xori | ori | andi | slli | srli | srai | add | sub | sll | slt | sltu | xor | srl | sra
  | or | and | fence | fenceTso | ebreak => cases h; rfl
  | jal | jalr => cases h; exact congrArg _ (jumpAndLink_localPending s bits _ _)
  | beq | bne | blt | bge | bltu | bgeu => cases h; exact congrArg _ (branch_localPending s bits _ _)
  | lb | lh | lw | lbu | lhu => cases h; exact congrArg _ (load_localPending s bits _ _ _ _)
  | sb | sh | sw => cases h; exact congrArg _ (store_localPending s bits _ _ _)
  | ecall =>
    cases hm : s.config.trapMode with
    | fatal =>
      rw [exec_ecall_fatal hm] at h
      cases h
      exact exec_ecall_fatal hm
    | service =>
      rw [exec_ecall_service hm] at h
      cases h
      exact (exec_ecall_service (s := { s with localPending := bits }) hm).trans (congrArg _ (serve_localPending s bits _))

/-- No instruction changes a pending bit. -/
theorem ExecEffect.localPending_eq {i : Instr} {s t : State} (h : ExecEffect i s t) : t.localPending = s.localPending := by
  cases h with
  | own h =>
    obtain ⟨⟨-, -, -, -, hlocal, -⟩, -⟩ := h.frame
    exact hlocal
  | loads | stores | resumes => rfl

/-- Settles O58: the turn sets or clears one bit, and the instructions neither read nor change any. -/
theorem localPendingFollowsCondition : Obligations.LocalPendingFollowsCondition := by
  refine ⟨fun s src asserted rest ha => ?_, fun i s t bits h =>
    ⟨(execEffect_of_next h).localPending_eq, exec_localPending bits h⟩⟩
  refine ⟨_, step_of_agenda_act ha, ?_, fun q hq => ?_, fun _ => rfl, rfl, fun _ => rfl⟩
  · simp [mem_setPending]
  · simp [mem_setPending, hq]

end Sys2Proof.Machine

/-! The proofs of the statements about section 60.8 of 60_exceptions.md: the PLIC's functions, its registers, its gateways and its
messages, the turns that act on them, and the hart's loads and stores at its registers. -/

namespace Sys2Proof.Machine

/-! ### One source, one target -/

section
variable {pl : Plic} {t k : Nat} {tt : PlicTarget} {ss : PlicSource}

theorem Plic.modifySource_succ (hss : pl.sources[k]? = some ss) (f : PlicSource → PlicSource) :
    pl.modifySource (k + 1) f = { pl with sources := pl.sources.set k (f ss) } := by
  obtain ⟨hlt, rfl⟩ := List.getElem?_eq_some_iff.1 hss
  rw [Plic.modifySource, List.modify_eq_set_get f hlt, List.get_eq_getElem]

theorem Plic.modifyTarget_of_getElem? (htt : pl.targets[t]? = some tt) (f : PlicTarget → PlicTarget) :
    pl.modifyTarget t f = { pl with targets := pl.targets.set t (f tt) } := by
  obtain ⟨hlt, rfl⟩ := List.getElem?_eq_some_iff.1 htt
  rw [Plic.modifyTarget, List.modify_eq_set_get f hlt, List.get_eq_getElem]

theorem Plic.modifyTarget_of_length_le (h : pl.targets.length ≤ t) (f : PlicTarget → PlicTarget) :
    pl.modifyTarget t f = pl := by
  rw [Plic.modifyTarget, List.modify_eq_self h]

theorem Plic.active_succ (htt : pl.targets[t]? = some tt) (hss : pl.sources[k]? = some ss) :
    pl.active t (k + 1) = (ss.ip && tt.ie.getD k false) := by
  simp only [Plic.active, htt, Plic.source?, hss, PlicTarget.enabled]

theorem Plic.prioOf_succ (hss : pl.sources[k]? = some ss) : pl.prioOf (k + 1) = ss.prio.toNat := by
  simp only [Plic.prioOf, Plic.source?, hss]

theorem Plic.thrOf_eq (htt : pl.targets[t]? = some tt) : pl.thrOf t = tt.thr.toNat := by
  simp only [Plic.thrOf, htt]

/-- The IDs are those that name a source. -/
theorem Plic.mem_ids_iff_source {s : Nat} : s ∈ pl.ids ↔ ∃ k ss, s = k + 1 ∧ pl.sources[k]? = some ss := by
  rw [Plic.mem_ids]
  constructor
  · rintro ⟨hpos, hle⟩
    exact ⟨s - 1, _, by omega, List.getElem?_eq_getElem (by omega)⟩
  · rintro ⟨k, ss, rfl, hss⟩
    obtain ⟨hlt, -⟩ := List.getElem?_eq_some_iff.1 hss
    omega

end

/-! ### EIP (60_exceptions.md R257, R258) -/

theorem Plic.eip_iff {pl : Plic} {t : Nat} {tt : PlicTarget} (htt : pl.targets[t]? = some tt) : pl.eip t = true ↔
    ∃ k ss, pl.sources[k]? = some ss ∧ ss.ip = true ∧ tt.ie.getD k false = true ∧ tt.thr.toNat < ss.prio.toNat := by
  simp only [Plic.eip, List.any_eq_true, Plic.mem_ids_iff_source, Bool.and_eq_true, decide_eq_true_eq, Plic.thrOf_eq htt]
  constructor
  · rintro ⟨s, ⟨k, ss, rfl, hss⟩, hactive, hlt⟩
    rw [Plic.active_succ htt hss, Bool.and_eq_true] at hactive
    rw [Plic.prioOf_succ hss] at hlt
    exact ⟨k, ss, hss, hactive.1, hactive.2, hlt⟩
  · rintro ⟨k, ss, hss, hip, hie, hlt⟩
    refine ⟨k + 1, ⟨k, ss, rfl, hss⟩, ?_, ?_⟩
    · rw [Plic.active_succ htt hss, hip, hie, Bool.and_self]
    · rwa [Plic.prioOf_succ hss]

/-- Settles O49: `eip` asks for such a source, and no threshold is below priority 0. -/
theorem eipIsCombinational : Obligations.EipIsCombinational := by
  intro pl t tt htt
  refine ⟨Plic.eip_iff htt, fun hzero => Bool.eq_false_iff.2 fun heip => ?_⟩
  obtain ⟨k, ss, hss, hip, -, hlt⟩ := (Plic.eip_iff htt).1 heip
  rw [hzero ss (List.mem_of_getElem? hss) hip] at hlt
  exact Nat.not_lt_zero _ hlt

/-! ### Claims (60_exceptions.md R253, R265) -/

theorem Plic.beats_iff {pl : Plic} {a b : Nat} : pl.beats a b = true ↔
    pl.prioOf b < pl.prioOf a ∨ (pl.prioOf a = pl.prioOf b ∧ a < b) := by
  simp only [Plic.beats, Bool.or_eq_true, Bool.and_eq_true, decide_eq_true_eq, beq_iff_eq]

theorem Plic.beats_trans {pl : Plic} {a b c : Nat} (hab : pl.beats a b = true) (hbc : pl.beats b c = true) :
    pl.beats a c = true := by
  rw [Plic.beats_iff] at *
  omega

/-- Of two sources one beats the other. -/
theorem Plic.beats_total {pl : Plic} {a b : Nat} (hne : a ≠ b) : pl.beats a b = true ∨ pl.beats b a = true := by
  simp only [Plic.beats_iff]
  omega

/-- The best of a list beats all others in it. -/
theorem Plic.beats_of_best {pl : Plic} : ∀ {l : List Nat} {s q : Nat}, pl.best l = some s → q ∈ l → q ≠ s →
    pl.beats s q = true
  | [], _, _, _, hq, _ => absurd hq List.not_mem_nil
  | head :: rest, s, q, h, hq, hne => by
    unfold Plic.best at h
    split at h
    next hnone =>
      cases h
      rw [Plic.best_eq_none] at hnone
      exact absurd (List.mem_singleton.1 (hnone ▸ hq)) hne
    next r hr =>
      split at h
      next hbeats =>
        cases h
        have hq' := (List.mem_cons.1 hq).resolve_left hne
        by_cases hqr : q = r
        · exact hqr ▸ hbeats
        · exact Plic.beats_trans hbeats (Plic.beats_of_best hr hq' hqr)
      next hbeats =>
        cases h
        rcases List.mem_cons.1 hq with rfl | hq'
        · exact (Plic.beats_total hne).resolve_left hbeats
        · exact Plic.beats_of_best hr hq' hne

/-- What a claim considers: the pending enabled sources of a priority other than 0. -/
theorem Plic.mem_candidates_iff {pl : Plic} {t s : Nat} {tt : PlicTarget} (htt : pl.targets[t]? = some tt) :
    s ∈ pl.candidates t ↔ ∃ k ss, s = k + 1 ∧ pl.sources[k]? = some ss ∧ ss.ip = true ∧ tt.ie.getD k false = true ∧
      ss.prio ≠ 0 := by
  have hprio (ss : PlicSource) : ss.prio.toNat ≠ 0 ↔ ss.prio ≠ 0 := by simp [← BitVec.toNat_inj]
  rw [Plic.mem_candidates, Plic.mem_ids_iff_source]
  constructor
  · rintro ⟨⟨k, ss, rfl, hss⟩, hactive, hne⟩
    rw [Plic.active_succ htt hss, Bool.and_eq_true] at hactive
    rw [Plic.prioOf_succ hss, hprio] at hne
    exact ⟨k, ss, rfl, hss, hactive.1, hactive.2, hne⟩
  · rintro ⟨k, ss, rfl, hss, hip, hie, hne⟩
    refine ⟨⟨k, ss, rfl, hss⟩, ?_, ?_⟩
    · rw [Plic.active_succ htt hss, hip, hie, Bool.and_self]
    · rwa [Plic.prioOf_succ hss, hprio]

/-- Settles O50: a claim answers the best of its candidates, which beats the others. -/
theorem claimAnswersTheBestSource : Obligations.ClaimAnswersTheBestSource := by
  intro pl t tt htt candidate
  have hcandidate {s : Nat} : s ∈ pl.candidates t ↔ ∃ k ss, s = k + 1 ∧ candidate k ss := Plic.mem_candidates_iff htt
  rcases pl.claim_cases t with ⟨hnil, hclaim⟩ | ⟨s, hs, hbest, hclaim⟩
  · refine ⟨fun _ => hclaim, fun ⟨k, ss, hc⟩ => ?_⟩
    have hmem := hcandidate.2 ⟨k, ss, rfl, hc⟩
    rw [hnil] at hmem
    cases hmem
  · obtain ⟨k, ss, rfl, hc⟩ := hcandidate.1 hs
    refine ⟨fun hnone => absurd hc (hnone k ss), fun _ => ⟨k, ss, hc, congrArg Prod.fst hclaim, ?_, ?_⟩⟩
    · intro k' ss' hc' hne
      have hbeats := Plic.beats_of_best hbest (hcandidate.2 ⟨k', ss', rfl, hc'⟩) (by omega)
      rw [Plic.beats_iff, Plic.prioOf_succ hc.1, Plic.prioOf_succ hc'.1] at hbeats
      exact hbeats.imp_right fun ⟨heq, hlt⟩ => ⟨(BitVec.eq_of_toNat_eq heq).symm, by omega⟩
    · rw [hclaim, Plic.modifySource_succ hc.1]

/-! ### The turns of the PLIC and of the agents that talk to it (60_exceptions.md R268) -/

/-- Settles O54: the rules for one source and one target, action by action. -/
theorem plicActionsKeepLegal : Obligations.PlicActionsKeepLegal := fun _ _ _ _ _ hlegal hact => hlegal.plicAct hact

/-- An action of the PLIC or of an agent that sends it a message: what `plicAct` gives a meaning. -/
def AgentAction.isPlics : AgentAction → Bool
  | .memoryWrite _ | .localLevel _ _ | .deliverStore _ | .answerAhead _ _ _ | .storeAhead _ _ _ _ => false
  | .sourceLevel _ _ | .sourceEdge _ | .acceptRequest _ | .writeRegister | .processClaim | .deliverCompletion
  | .notifyTarget _ | .sendClaim _ | .busWrite _ _ | .takeResponse _ => true

section
variable {s : State} {p : PlicParams} {a : AgentAction} {rest : List Turn}

/-- Its turn leaves the PLIC as `plicAct` says and draws if it is a register write. -/
theorem step_of_plicAct_ok {q : Plic} (ha : s.agenda = .act a :: rest) (hi : a.isPlics = true) (hp : s.config.plic = some p)
    (hq : plicAct p s.draws s.plic a = .ok q) :
    step s = .next { s with agenda := rest, plic := q, draws := s.draws + drawsOf a } := by
  rw [step_of_agenda_act ha]
  cases a with
  | memoryWrite | localLevel | deliverStore | answerAhead | storeAhead => cases hi
  | _ => simp only [agentTurn, hp, hq]

/-- Or is refused as `plicAct` is. -/
theorem step_of_plicAct_error {e : Refusal} (ha : s.agenda = .act a :: rest) (hi : a.isPlics = true)
    (hp : s.config.plic = some p) (hq : plicAct p s.draws s.plic a = .error e) : step s = .refused e := by
  rw [step_of_agenda_act ha]
  cases a with
  | memoryWrite | localLevel | deliverStore | answerAhead | storeAhead => cases hi
  | _ => simp only [agentTurn, hp, hq]

theorem drawsOf_of_ne (h : a ≠ .writeRegister) : drawsOf a = 0 := if_neg h

/-- The turn of any action but a register write draws nothing. -/
theorem step_of_plicAct {q : Plic} (ha : s.agenda = .act a :: rest) (hi : a.isPlics = true) (hp : s.config.plic = some p)
    (hne : a ≠ .writeRegister) (hq : plicAct p s.draws s.plic a = .ok q) :
    step s = .next { s with agenda := rest, plic := q } := by
  rw [step_of_plicAct_ok ha hi hp hq, drawsOf_of_ne hne, Nat.add_zero]

/-- With no PLIC no access reaches a register. -/
theorem plicAccess_of_absent (hp : s.config.plic = none) (b : Word) (n : Nat) : plicAccess s b n = none := by
  rw [plicAccess, hp]

/-- With no PLIC only other agents' stores and the local sources do something. -/
theorem step_of_absent (ha : s.agenda = .act a :: rest) (hp : s.config.plic = none) (hmem : ∀ cells, a ≠ .memoryWrite cells)
    (hlocal : ∀ src b, a ≠ .localLevel src b) : step s = .next { s with agenda := rest } := by
  have hreg (b : Word) (n : Nat) : plicAccess { s with agenda := rest } b n = none := plicAccess_of_absent hp b n
  rw [step_of_agenda_act ha]
  cases a with
  | memoryWrite cells => exact absurd rfl (hmem cells)
  | localLevel src b => exact absurd rfl (hlocal src b)
  | deliverStore => simp only [agentTurn, State.deliverStore, hp]
  | answerAhead => simp only [agentTurn, State.answerAhead, hreg]
  | storeAhead => simp only [agentTurn, State.storeAhead, hreg]
  | _ => simp only [agentTurn, hp]

end

/-! ### Notifications (60_exceptions.md R244, R258) -/

theorem State.externalPending_iff {s : State} {p : PlicParams} {m : Mode} (hp : s.config.plic = some p) :
    s.externalPending m = true ↔ ∃ (k : Nat) (tp : TargetParams) (tt : PlicTarget), p.targets[k]? = some tp ∧
      s.plic.targets[k]? = some tt ∧ tp.context = some m ∧ tt.seen = true := by
  simp only [State.externalPending, hp, List.any_eq_true, List.mem_range]
  constructor
  · rintro ⟨k, -, hk⟩
    split at hk
    next tp tt htp htt =>
      rw [Bool.and_eq_true, beq_iff_eq] at hk
      exact ⟨k, tp, tt, htp, htt, hk⟩
    next => cases hk
  · rintro ⟨k, tp, tt, htp, htt, hcontext, hseen⟩
    obtain ⟨hlt, -⟩ := List.getElem?_eq_some_iff.1 htp
    exact ⟨k, hlt, by simp [htp, htt, hcontext, hseen]⟩

/-- Settles O55: the turn writes the present EIP to one target, and the pending bits read it there. -/
theorem notificationDeliversEip : Obligations.NotificationDeliversEip := by
  refine ⟨fun s p t rest tt hp htt ha => ?_, fun s p m hp => State.externalPending_iff hp⟩
  refine step_of_plicAct ha rfl hp nofun ?_
  rw [plicAct, Plic.notify, Plic.modifyTarget_of_getElem? htt]

/-! ### Messages to the PLIC (60_exceptions.md R263, R266) -/

theorem Plic.writeReg_claimComplete (pl : Plic) (t : Nat) (v : Word) :
    pl.writeReg (.claimComplete t) v = { pl with completions := pl.completions ++ [(t, v.toNat)] } := rfl

theorem Plic.writeReg_pending (pl : Plic) (first count : Nat) (v : Word) : pl.writeReg (.pending first count) v = pl := rfl

/-- A message to a priority, enable or threshold register is a write request. -/
theorem Plic.writeReg_request (pl : Plic) {reg : PlicReg} (v : Word) (h : (∃ k, reg = .priority k) ∨
    (∃ t first count, reg = .enable t first count) ∨ (∃ t, reg = .threshold t)) :
    pl.writeReg reg v = { pl with writes := pl.writes ++ [⟨reg, v⟩] } := by
  rcases h with ⟨k, rfl⟩ | ⟨t, first, count, rfl⟩ | ⟨t, rfl⟩ <;> rfl

/-! ### What a register reads (60_exceptions.md R254 to R256) -/

theorem getLsbD_packBits : ∀ (l : List Bool) {b : Nat}, b < 32 → (packBits l).getLsbD b = l.getD b false
  | [], b, _ => by simp [packBits]
  | bit :: rest, 0, _ => by cases bit <;> simp [packBits]
  | bit :: rest, b + 1, hb => by
    have ih := getLsbD_packBits rest (b := b) (by omega)
    rw [packBits, BitVec.getLsbD_or, BitVec.getLsbD_shiftLeft, List.getD_cons_succ, ← ih]
    cases bit <;> simp [hb]

/-- A window of bits, bit 0 first, reads 0 above. -/
theorem getLsbD_packBits_range {f : Nat → Bool} {count b : Nat} (hb : b < 32) :
    (packBits ((List.range count).map f)).getLsbD b = (decide (b < count) && f b) := by
  rw [getLsbD_packBits _ hb]
  by_cases h : b < count <;> simp [h]

section
variable {pl : Plic} {t k first count b : Nat} {tt : PlicTarget} {ss : PlicSource}

theorem Plic.readReg_priority (hss : pl.sources[k]? = some ss) : (pl.readReg (.priority (k + 1))).1 = ss.prio := by
  simp only [Plic.readReg, Plic.prioOf_succ hss, BitVec.ofNat_toNat, BitVec.setWidth_eq]

theorem Plic.readReg_threshold (htt : pl.targets[t]? = some tt) : (pl.readReg (.threshold t)).1 = tt.thr := by
  simp only [Plic.readReg, Plic.thrOf_eq htt, BitVec.ofNat_toNat, BitVec.setWidth_eq]

theorem Plic.readReg_enable (htt : pl.targets[t]? = some tt) (hb : b < 32) :
    (pl.readReg (.enable t first count)).1.getLsbD b = (decide (b < count) && tt.enabled (first + b)) := by
  simp only [Plic.readReg, htt, getLsbD_packBits_range hb]

theorem Plic.readReg_pending (hb : b < 32) : (pl.readReg (.pending first count)).1.getLsbD b = true ↔
    b < count ∧ ∃ ss, pl.source? (first + b) = some ss ∧ ss.ip = true := by
  simp only [Plic.readReg, getLsbD_packBits_range hb, Bool.and_eq_true, decide_eq_true_eq]
  cases pl.source? (first + b) <;> simp

end

/-! ### Register writes (60_exceptions.md R263) -/

/-- A list holds what it is set to. -/
theorem getElem?_set_of_getElem? {α : Type} {l : List α} {k : Nat} {x : α} (h : l[k]? = some x) (y : α) :
    (l.set k y)[k]? = some y :=
  List.getElem?_set_self (List.getElem?_eq_some_iff.1 h).1

section
variable {p : PlicParams} {pl : Plic} {draw t k first count : Nat} {v : Word} {rest : List PlicWrite} {sp : SourceParams}
  {ss : PlicSource} {tp : TargetParams} {tt : PlicTarget}

theorem Plic.writeRegister_priority (hsp : p.sources[k]? = some sp) (hss : pl.sources[k]? = some ss) :
    Plic.writeRegister p draw { pl with writes := ⟨.priority (k + 1), v⟩ :: rest } = { pl with
      writes := rest, sources := pl.sources.set k { ss with prio := WarlMask.legalise sp.prio v } } := by
  simp only [Plic.writeRegister, Plic.applyWrite, sourceParams?, hsp]
  exact Plic.modifySource_succ (pl := { pl with writes := rest }) hss _

/-- What a priority register reads after it is written. -/
theorem Plic.readReg_writeRegister_priority (hsp : p.sources[k]? = some sp) (hss : pl.sources[k]? = some ss) :
    ((Plic.writeRegister p draw { pl with writes := ⟨.priority (k + 1), v⟩ :: rest }).readReg (.priority (k + 1))).1 =
      WarlMask.legalise sp.prio v := by
  rw [Plic.writeRegister_priority hsp hss, Plic.readReg_priority (getElem?_set_of_getElem? hss _)]

theorem Plic.writeRegister_enable (htp : p.targets[t]? = some tp) (htt : pl.targets[t]? = some tt) :
    Plic.writeRegister p draw { pl with writes := ⟨.enable t first count, v⟩ :: rest } = { pl with
      writes := rest, targets := pl.targets.set t { tt with ie := writeEnables tp first count v tt.ie } } := by
  simp only [Plic.writeRegister, Plic.applyWrite, htp]
  exact Plic.modifyTarget_of_getElem? (pl := { pl with writes := rest }) htt _

theorem Plic.writeRegister_threshold (htp : p.targets[t]? = some tp) (htt : pl.targets[t]? = some tt) :
    Plic.writeRegister p draw { pl with writes := ⟨.threshold t, v⟩ :: rest } = { pl with
      writes := rest, targets := pl.targets.set t { tt with thr := legalThreshold tp.thr draw t v } } := by
  simp only [Plic.writeRegister, Plic.applyWrite, htp]
  exact Plic.modifyTarget_of_getElem? (pl := { pl with writes := rest }) htt _

end

/-! #### Priorities -/

theorem WarlMask.getLsbD_legalise (m : WarlMask) (v : Word) {b : Nat} (hb : b < 32) : (WarlMask.legalise m v).getLsbD b =
    if m.ones.getLsbD b then true else if m.zeros.getLsbD b then false else v.getLsbD b := by
  simp only [WarlMask.legalise, BitVec.getLsbD_or, BitVec.getLsbD_and, BitVec.getLsbD_not, hb]
  cases m.ones.getLsbD b <;> cases m.zeros.getLsbD b <;> simp

/-- Writing all zeros finds the bits hardwired to 1. -/
theorem WarlMask.legalise_zero (m : WarlMask) : WarlMask.legalise m 0 = m.ones := by
  simp [WarlMask.legalise]

/-- Writing all ones finds the bits hardwired to 0, when no bit is hardwired to both. -/
theorem WarlMask.legalise_allOnes {m : WarlMask} (h : WarlMask.wf m = true) : WarlMask.legalise m 0xFFFFFFFF#32 = ~~~m.zeros := by
  rw [WarlMask.wf, beq_iff_eq] at h
  apply BitVec.eq_of_getLsbD_eq
  intro b hb
  have hbit : (m.ones.getLsbD b && m.zeros.getLsbD b) = false := by rw [← BitVec.getLsbD_and, h]; exact BitVec.getLsbD_zero
  have hone : (0xFFFFFFFF#32).getLsbD b = true := (BitVec.getLsbD_allOnes (v := 32)).trans (decide_eq_true hb)
  rw [WarlMask.getLsbD_legalise m _ hb, BitVec.getLsbD_not, hone]
  cases hones : m.ones.getLsbD b <;> cases hzeros : m.zeros.getLsbD b <;> simp_all

/-! #### Enables -/

theorem length_writeEnables (tp : TargetParams) (first count : Nat) (v : Word) (ie : List Bool) :
    (writeEnables tp first count v ie).length = ie.length := List.length_mapIdx

theorem getD_writeEnables {tp : TargetParams} {first count k : Nat} {v : Word} {ie : List Bool} (hk : k < ie.length) :
    (writeEnables tp first count v ie).getD k false =
      if first ≤ k + 1 ∧ k + 1 < first + count then
        (tp.ieOnes.contains (k + 1) || (v.getLsbD (k + 1 - first) && !tp.ieZeros.contains (k + 1)))
      else ie.getD k false := by
  simp [writeEnables, legalEnable, hk]

/-- What an enable register reads after it is written. -/
theorem PlicTarget.enabled_writeEnables {tp : TargetParams} {tt : PlicTarget} {first count b : Nat} {v : Word} :
    (decide (b < count) && PlicTarget.enabled { tt with ie := writeEnables tp first count v tt.ie } (first + b)) =
      if b < count ∧ 1 ≤ first + b ∧ first + b ≤ tt.ie.length then
        (tp.ieOnes.contains (first + b) || (v.getLsbD b && !tp.ieZeros.contains (first + b)))
      else false := by
  by_cases hb : b < count
  case neg => simp [hb]
  rw [decide_eq_true hb, Bool.true_and]
  rcases hid : first + b with _ | k
  · rw [if_neg (by omega)]
    rfl
  · rw [PlicTarget.enabled]
    by_cases hk : k < tt.ie.length
    · rw [getD_writeEnables hk, if_pos (by omega), if_pos (by omega), show k + 1 - first = b by omega]
    · rw [if_neg (by omega), List.getD_eq_default _ _ (by rw [length_writeEnables]; omega)]

/-! #### Thresholds -/

theorem inRanges_iff {ranges : List ValueRange} {v : Word} : inRanges ranges v = true ↔
    ∃ r ∈ ranges, r.low.toNat ≤ v.toNat ∧ v.toNat ≤ r.high.toNat := by
  simp only [inRanges, List.any_eq_true, Bool.and_eq_true, decide_eq_true_eq]

/-- Settles O51: the two turns are `plicAct`'s, and each kind of register has its rule of what a write stores and a load reads. -/
theorem priorityRegistersAreWarl : Obligations.PriorityRegistersAreWarl := by
  refine ⟨fun s p rest hp => ⟨fun ha => ?writeTurn, fun reg v ha => ?busTurn⟩, fun p pl draw v rest =>
    ⟨fun hnil => ?noRequest, fun k sp ss hsp hss hwf => ?priority, fun t first count tp tt htp htt => ?enable,
      fun t tp tt htp htt hlegal => ?threshold, fun first count t => ⟨rfl, rfl⟩⟩⟩
  case writeTurn => exact step_of_plicAct_ok ha rfl hp rfl
  case busTurn =>
    refine ⟨_, step_of_plicAct ha rfl hp nofun rfl, ?_, fun hreg => Plic.writeReg_request _ v hreg, ?_⟩
    · rintro t rfl
      exact Plic.writeReg_claimComplete ..
    · rintro first count rfl
      exact Plic.writeReg_pending ..
  case noRequest => rw [Plic.writeRegister, hnil]
  case priority =>
    simp only [Plic.readReg_writeRegister_priority hsp hss]
    exact ⟨Plic.writeRegister_priority hsp hss, fun b hb => WarlMask.getLsbD_legalise sp.prio v hb, WarlMask.legalise_zero _,
      WarlMask.legalise_allOnes hwf, WarlMask.legalise_legalise sp.prio v⟩
  case enable =>
    have hwrite := Plic.writeRegister_enable (pl := pl) (draw := draw) (first := first) (count := count) (v := v)
      (rest := rest) htp htt
    refine ⟨_, hwrite, length_writeEnables .., fun k hk => getD_writeEnables hk, fun b hb => ?_⟩
    rw [hwrite, Plic.readReg_enable (getElem?_set_of_getElem? htt _) hb]
    exact PlicTarget.enabled_writeEnables
  case threshold =>
    have hwrite := Plic.writeRegister_threshold (pl := pl) (draw := draw) (v := v) (rest := rest) htp htt
    obtain ⟨r, hr, hle⟩ := hlegal
    have hlow : inRanges tp.thr r.low = true := inRanges_iff.2 ⟨r, hr, Nat.le_refl _, hle⟩
    refine ⟨_, hwrite, ?_, inRanges_iff.1 (inRanges_legalThreshold hlow draw t v),
      fun hv => legalThreshold_of_inRanges (inRanges_iff.2 hv) draw t⟩
    rw [hwrite, Plic.readReg_threshold (getElem?_set_of_getElem? htt _)]

/-! ### One gateway (60_exceptions.md R259 to R261, R264) -/

section
variable {ss : PlicSource} {g : Gateway}

theorem PlicSource.wants_iff :
    ss.wants g = true ↔ (g = .level ∧ ss.level = true) ∨ (g = .edgeCounting ∧ 0 < ss.cnt) := by
  cases g <;> simp [PlicSource.wants]

/-- A gateway's wants are the line's and the counter's. -/
theorem PlicSource.wants_congr {ss' : PlicSource} (hlevel : ss'.level = ss.level) (hcnt : ss'.cnt = ss.cnt) :
    ss'.wants g = ss.wants g := by
  cases g <;> simp [PlicSource.wants, hlevel, hcnt]

theorem PlicSource.settle_of_idle (hw : ss.wants g = true) (hb : ss.busy = false) : ss.settle g = ss.forward := by
  simp [PlicSource.settle, hw, hb]

theorem PlicSource.settle_of_busy (hb : ss.busy = true) : ss.settle g = ss := by
  simp [PlicSource.settle, hb]

theorem PlicSource.settle_of_not_wants (hw : ss.wants g = false) : ss.settle g = ss := by
  simp [PlicSource.settle, hw]

theorem PlicSource.edge_ignoring_of_idle (hb : ss.busy = false) : ss.edge .edgeIgnoring = ss.forward := by
  simp [PlicSource.edge, hb]

theorem PlicSource.edge_ignoring_of_busy (hb : ss.busy = true) : ss.edge .edgeIgnoring = ss := by
  simp [PlicSource.edge, hb]

/-- The core accepts a waiting request while IP is clear. -/
theorem PlicSource.accept_of_waiting (hreq : 0 < ss.requests) (hip : ss.ip = false) : ss.accept g =
    { ss with ip := true, requests := ss.requests - 1, cnt := if g = .edgeCounting then ss.cnt - 1 else ss.cnt } :=
  if_pos ⟨hreq, hip⟩

/-- While IP is set a request waits. -/
theorem PlicSource.accept_of_pending (hip : ss.ip = true) : ss.accept g = ss :=
  if_neg fun h => absurd (hip.symm.trans h.2) (by decide)

/-- A released gateway is idle, or forwards at once what it has to forward. -/
theorem PlicSource.release_cases (ss : PlicSource) (g : Gateway) :
    (ss.wants g = true ∧
      ss.release g = { ss with busy := true, requests := ss.requests + 1, claimedBy := none }) ∨
    (ss.wants g = false ∧ ss.release g = { ss with busy := false, claimedBy := none }) := by
  have hwants : PlicSource.wants { ss with busy := false, claimedBy := none } g = ss.wants g :=
    PlicSource.wants_congr rfl rfl
  cases hw : ss.wants g with
  | true => exact .inl ⟨rfl, PlicSource.settle_of_idle (hwants.trans hw) rfl⟩
  | false => exact .inr ⟨rfl, PlicSource.settle_of_not_wants (hwants.trans hw)⟩

end

section
variable {p : PlicParams} {pl : Plic} {k id : Nat} {sp : SourceParams} {ss : PlicSource}

/-- A gateway operation on a source changes that source only. -/
theorem Plic.atGateway_succ (hsp : p.sources[k]? = some sp) (hss : pl.sources[k]? = some ss)
    (f : PlicSource → Gateway → PlicSource) :
    pl.atGateway p (k + 1) f = { pl with sources := pl.sources.set k (f ss sp.gateway) } := by
  simp only [Plic.atGateway, sourceParams?, hsp]
  exact Plic.modifySource_succ hss _

/-- An ID above those of a list of sources, or 0, names none of them. -/
theorem sourceParams?_eq_none (h : id = 0 ∨ p.sources.length < id) : sourceParams? p id = none := by
  cases id with
  | zero => rfl
  | succ k => exact List.getElem?_eq_none (by omega)

theorem Plic.source?_eq_none (h : id = 0 ∨ pl.sources.length < id) : pl.source? id = none := by
  cases id with
  | zero => rfl
  | succ k => exact List.getElem?_eq_none (by omega)

theorem Plic.atGateway_of_no_source (h : id = 0 ∨ p.sources.length < id) (f : PlicSource → Gateway → PlicSource) :
    pl.atGateway p id f = pl := by
  rw [Plic.atGateway, sourceParams?_eq_none h]

end

/-! ### Completions (60_exceptions.md R266) -/

section
variable {p : PlicParams} {pl : Plic} {t k id : Nat} {tt : PlicTarget} {sp : SourceParams} {ss : PlicSource}

/-- A completion is refused only as unspecified. -/
theorem Plic.complete_error {e : Refusal} (h : pl.complete p t id = .error e) : e = .completionUnspecified := by
  unfold Plic.complete at h
  split at h
  · split at h
    · cases h
    · split at h <;> cases h
      rfl
  · cases h
    rfl

theorem Plic.complete_of_disabled (htt : pl.targets[t]? = some tt) (hss : pl.sources[k]? = some ss)
    (hie : tt.ie.getD k false = false) : pl.complete p t (k + 1) = .ok pl := by
  simp only [Plic.complete, htt, Plic.source?, hss, PlicTarget.enabled, hie, Bool.not_false, if_true]

theorem Plic.complete_of_not_claimed (htt : pl.targets[t]? = some tt) (hss : pl.sources[k]? = some ss)
    (hie : tt.ie.getD k false = true) (hclaim : ss.claimedBy ≠ some t) :
    pl.complete p t (k + 1) = .error .completionUnspecified := by
  have henabled : tt.enabled (k + 1) = true := hie
  simp [Plic.complete, htt, Plic.source?, hss, henabled, hclaim]

theorem Plic.complete_of_claimed (htt : pl.targets[t]? = some tt) (hsp : p.sources[k]? = some sp)
    (hss : pl.sources[k]? = some ss) (hie : tt.ie.getD k false = true) (hclaim : ss.claimedBy = some t) :
    pl.complete p t (k + 1) = .ok { pl with sources := pl.sources.set k (ss.release sp.gateway) } := by
  have henabled : tt.enabled (k + 1) = true := hie
  rw [← Plic.atGateway_succ hsp hss]
  simp [Plic.complete, htt, Plic.source?, hss, henabled, hclaim]

theorem Plic.complete_of_no_source (h : id = 0 ∨ pl.sources.length < id) :
    pl.complete p t id = .error .completionUnspecified := by
  rw [Plic.complete, Plic.source?_eq_none h]
  cases pl.targets[t]? <;> rfl

end

/-- The turn of a completion message is the completion it carries. -/
theorem plicAct_deliverCompletion {p : PlicParams} {pl : Plic} {t id : Nat} {later : List (Nat × Nat)} (draw : Nat)
    (h : pl.completions = (t, id) :: later) :
    plicAct p draw pl .deliverCompletion = Plic.complete p { pl with completions := later } t id := by
  simp only [plicAct, Plic.deliverCompletion, h]

theorem plicAct_deliverCompletion_nil {p : PlicParams} {pl : Plic} (draw : Nat) (h : pl.completions = []) :
    plicAct p draw pl .deliverCompletion = .ok pl := by
  simp only [plicAct, Plic.deliverCompletion, h]

/-- Settles O52: the turn delivers the oldest message, and a completion is ignored, releases the gateway or is refused. -/
theorem completionReleasesTheGateway : Obligations.CompletionReleasesTheGateway := by
  refine ⟨fun s p rest hp ha => ⟨fun hnil => ?noMessage, fun t id later hcons =>
      ⟨fun q hq => ?taken, fun e he => ?refused⟩⟩,
    fun p pl t k tt sp ss htt hsp hss => ⟨Plic.complete_of_disabled htt hss, Plic.complete_of_not_claimed htt hss,
      fun hie hclaim => ?released, fun id => Plic.complete_of_no_source⟩⟩
  case noMessage => exact step_of_plicAct ha rfl hp nofun (plicAct_deliverCompletion_nil s.draws hnil)
  case taken => exact step_of_plicAct ha rfl hp nofun ((plicAct_deliverCompletion s.draws hcons).trans hq)
  case refused =>
    obtain rfl := Plic.complete_error he
    exact ⟨rfl, step_of_plicAct_error ha rfl hp ((plicAct_deliverCompletion s.draws hcons).trans he)⟩
  case released =>
    refine ⟨_, ss.release sp.gateway, Plic.complete_of_claimed htt hsp hss hie hclaim, rfl, ?_⟩
    rw [← PlicSource.wants_iff]
    rcases ss.release_cases sp.gateway with ⟨hw, e⟩ | ⟨hw, e⟩ <;> rw [e, hw]
    · exact ⟨rfl, rfl, rfl, fun _ => ⟨rfl, rfl⟩, fun h => absurd rfl h⟩
    · exact ⟨rfl, rfl, rfl, nofun, fun _ => ⟨rfl, rfl⟩⟩

/-! ### Claim messages (60_exceptions.md R265, R267) -/

section
variable (pl : Plic) (claims : List Nat)

/-- The claims that wait do not count for which source is the best. -/
theorem Plic.best_withClaims : ∀ l : List Nat, Plic.best { pl with claims := claims } l = pl.best l
  | [] => rfl
  | s :: rest => by
    simp only [Plic.best, Plic.best_withClaims rest]
    rfl

/-- Nor do they for what a claim does, and it leaves them alone. -/
theorem Plic.claim_withClaims (t : Nat) : Plic.claim { pl with claims := claims } t =
    ((pl.claim t).1, { (pl.claim t).2 with claims := claims }) := by
  have hcandidates : Plic.candidates { pl with claims := claims } t = pl.candidates t := rfl
  simp only [Plic.claim, Plic.best_withClaims, hcandidates]
  cases pl.best (pl.candidates t) with
  | none => rfl
  | some s => cases s <;> rfl

theorem Plic.respond_withClaims (t : Nat) :
    Plic.respond { pl with claims := claims } t = { pl.respond t with claims := claims } := by
  simp only [Plic.respond, Plic.claim_withClaims]
  rfl

theorem Plic.targets_claim (t : Nat) : (pl.claim t).2.targets = pl.targets := by
  rcases pl.claim_cases t with ⟨-, e⟩ | ⟨s, -, -, e⟩ <;> simp [e]

end

section
variable {pl : Plic} {t : Nat} {rest : List Nat}

/-- The oldest claim message is answered and gone. -/
theorem Plic.processClaim_of_cons (h : pl.claims = t :: rest) :
    pl.processClaim = { pl.respond t with claims := rest } := by
  rw [← Plic.respond_withClaims, Plic.processClaim, h]

theorem Plic.processClaim_of_nil (h : pl.claims = []) : pl.processClaim = pl := by
  rw [Plic.processClaim, h]

/-- The answer is a target's response. -/
theorem Plic.respond_of_getElem? {tt : PlicTarget} (htt : pl.targets[t]? = some tt) : pl.respond t =
    { (pl.claim t).2 with targets := pl.targets.set t { tt with responses := tt.responses ++ [(pl.claim t).1] } } := by
  rw [Plic.respond, Plic.modifyTarget_of_getElem? ((Plic.targets_claim pl t).symm ▸ htt), Plic.targets_claim]

end

/-! ### The life of a request -/

/-- The two actions of a source and the core's on its request, by the operation each is on the source's gateway. -/
inductive GatewayAction (id : Nat) : AgentAction → (PlicSource → Gateway → PlicSource) → Prop
  | level (asserted : Bool) : GatewayAction id (.sourceLevel id asserted) fun ss g => ss.setLevel g asserted
  | edge : GatewayAction id (.sourceEdge id) PlicSource.edge
  | accept : GatewayAction id (.acceptRequest id) PlicSource.accept

section
variable {s : State} {p : PlicParams} {rest : List Turn} {a : AgentAction} {id : Nat}
  {f : PlicSource → Gateway → PlicSource}

theorem step_of_gatewayAction (ha : s.agenda = .act a :: rest) (hp : s.config.plic = some p) (h : GatewayAction id a f) :
    step s = .next { s with agenda := rest, plic := s.plic.atGateway p id f } := by
  cases h <;> exact step_of_plicAct ha rfl hp nofun rfl

/-- The turn changes the source it names. -/
theorem step_of_gatewayAction_succ {k : Nat} {sp : SourceParams} {ss : PlicSource} (ha : s.agenda = .act a :: rest)
    (hp : s.config.plic = some p) (h : GatewayAction (k + 1) a f) (hsp : p.sources[k]? = some sp)
    (hss : s.plic.sources[k]? = some ss) : step s = .next { s with
      agenda := rest, plic := { s.plic with sources := s.plic.sources.set k (f ss sp.gateway) } } := by
  rw [step_of_gatewayAction ha hp h, Plic.atGateway_succ hsp hss]

/-- And does nothing if it names none. -/
theorem step_of_gatewayAction_of_no_source (ha : s.agenda = .act a :: rest) (hp : s.config.plic = some p)
    (h : GatewayAction id a f) (hid : id = 0 ∨ p.sources.length < id) : step s = .next { s with agenda := rest } := by
  rw [step_of_gatewayAction ha hp h, Plic.atGateway_of_no_source hid]

end

/-- An idle ignoring gateway forwards one edge, and loses those that come until its request is complete. -/
theorem PlicSource.life_edgeIgnoring {ss : PlicSource} (hbusy : ss.busy = false) (hreq : ss.requests = 0) (hip : ss.ip = false) :
    (ss.edge .edgeIgnoring).busy = true ∧ (ss.edge .edgeIgnoring).requests = 1 ∧
    (ss.edge .edgeIgnoring).edge .edgeIgnoring = ss.edge .edgeIgnoring ∧
    ((ss.edge .edgeIgnoring).accept .edgeIgnoring).ip = true ∧
    ((ss.edge .edgeIgnoring).accept .edgeIgnoring).requests = 0 ∧
    ((ss.edge .edgeIgnoring).accept .edgeIgnoring).busy = true ∧
    ((ss.edge .edgeIgnoring).accept .edgeIgnoring).edge .edgeIgnoring = (ss.edge .edgeIgnoring).accept .edgeIgnoring := by
  have haccept : ss.forward.accept .edgeIgnoring = { ss.forward with ip := true, requests := ss.requests } :=
    PlicSource.accept_of_waiting (Nat.succ_pos _) hip
  rw [PlicSource.edge_ignoring_of_idle hbusy, haccept, PlicSource.requests_forward, hreq]
  exact ⟨rfl, rfl, PlicSource.edge_ignoring_of_busy rfl, rfl, rfl, rfl, PlicSource.edge_ignoring_of_busy rfl⟩

/-- An idle level gateway forwards the assertion of its line. -/
theorem PlicSource.setLevel_level_true {ss : PlicSource} (hbusy : ss.busy = false) :
    ss.setLevel .level true = { ss with level := true, busy := true, requests := ss.requests + 1 } :=
  PlicSource.settle_of_idle rfl hbusy

theorem PlicSource.setLevel_level_false (ss : PlicSource) : ss.setLevel .level false = { ss with level := false } :=
  PlicSource.settle_of_not_wants rfl

/-- A busy one follows its line and forwards nothing. -/
theorem PlicSource.setLevel_level_of_busy {ss : PlicSource} (hbusy : ss.busy = true) (asserted : Bool) :
    ss.setLevel .level asserted = { ss with level := asserted } :=
  PlicSource.settle_of_busy hbusy

/-- An idle counting gateway counts an edge and forwards it. -/
theorem PlicSource.edge_counting_of_idle {ss : PlicSource} (hbusy : ss.busy = false) :
    ss.edge .edgeCounting = { ss with cnt := ss.cnt + 1, busy := true, requests := ss.requests + 1 } :=
  PlicSource.settle_of_idle (decide_eq_true (Nat.succ_pos ss.cnt)) hbusy

theorem PlicSource.edge_counting_of_busy {ss : PlicSource} (hbusy : ss.busy = true) :
    ss.edge .edgeCounting = { ss with cnt := ss.cnt + 1 } :=
  PlicSource.settle_of_busy hbusy

/-- Settles O53: the turns by `plicAct`, the gateways by their rules, and a claim message by `respond`. -/
theorem ignoringGatewaySendsOneRequest : Obligations.IgnoringGatewaySendsOneRequest := by
  refine ⟨fun s p rest act hp ha => ⟨fun k sp ss hsp hss => ?source, fun id hid hact => ?noSource, ?processClaim,
      Plic.processClaim_of_nil, ?sendClaim, ?takeResponse, ?noTarget⟩,
    fun s rest act hp ha => step_of_absent ha hp, fun ss => PlicSource.life_edgeIgnoring, fun ss asserted hbusy => ?level,
    fun ss => ⟨PlicSource.edge_counting_of_idle, PlicSource.edge_counting_of_busy, fun hreq hip => ?accept,
      fun g => PlicSource.accept_of_pending⟩, fun pl t rest tt hclaims htt => ?response⟩
  case source =>
    refine ⟨?_, ?_, ?_⟩
    · rintro b rfl
      exact step_of_gatewayAction_succ ha hp (.level b) hsp hss
    · rintro rfl
      exact step_of_gatewayAction_succ ha hp .edge hsp hss
    · rintro rfl
      exact step_of_gatewayAction_succ ha hp .accept hsp hss
  case noSource =>
    rcases hact with ⟨b, rfl⟩ | rfl | rfl
    · exact step_of_gatewayAction_of_no_source ha hp (.level b) hid
    · exact step_of_gatewayAction_of_no_source ha hp .edge hid
    · exact step_of_gatewayAction_of_no_source ha hp .accept hid
  case processClaim =>
    rintro rfl
    exact step_of_plicAct ha rfl hp nofun rfl
  case sendClaim =>
    rintro t rfl
    exact step_of_plicAct ha rfl hp nofun rfl
  case takeResponse =>
    rintro t tt rfl htt
    exact step_of_plicAct ha rfl hp nofun (congrArg Except.ok (Plic.modifyTarget_of_getElem? htt _))
  case noTarget =>
    rintro t rfl hle
    exact step_of_plicAct ha rfl hp nofun (congrArg Except.ok (Plic.modifyTarget_of_length_le hle _))
  case level =>
    refine ⟨PlicSource.setLevel_level_true hbusy, ss.setLevel_level_false, ?_⟩
    rw [PlicSource.setLevel_level_true hbusy, PlicSource.setLevel_level_of_busy rfl]
  case accept =>
    exact ⟨PlicSource.accept_of_waiting hreq hip, PlicSource.accept_of_waiting hreq hip,
      PlicSource.accept_of_waiting hreq hip⟩
  case response => rw [Plic.processClaim_of_cons hclaims, Plic.respond_of_getElem? htt]

/-! ### The hart's stores at a PLIC register (60_exceptions.md R263, R266) -/

/-- Settles O57: the store completes as `State.afterStore` and joins those on their way; what it is on arrival is its register's. -/
theorem hartWritesPlicByStore : Obligations.HartWritesPlicByStore := by
  intro s rs1 rs2 imm a n i p reg ha hi hcheck hreg hnew
  subst ha
  have hunseen := seenStore_eq_false (s.x rs2) (n := n) (a := BitVec.ofInt 32 ((s.x rs1).toInt + imm.toInt)) hnew
  have hvalue := toNat_lowBytes n (s.x rs2)
  refine ⟨_, ⟨reg, lowBytes n (s.x rs2), s.events.length⟩, exec_store_of_check hi hcheck, fun _ => rfl,
    accessRecorded_afterStore _ (width_of_isStore hi).1 hreg, rfl, aheadAfterStore_of_not_seen hunseen,
    postedAfterStore_plic hreg hunseen, rfl, rfl, hvalue, fun pl => ⟨?_, Plic.writeReg_request pl _, ?_⟩⟩
  · rintro t rfl
    rw [← hvalue]
    exact Plic.writeReg_claimComplete ..
  · rintro first count rfl
    exact Plic.writeReg_pending ..

/-! ### The hart's loads at a PLIC register (60_exceptions.md R265, 43_memory_ordering.md R190) -/

theorem State.plic_afterLoad (s : State) (rd : Reg) (a : Word) (n : Nat) (extend : Word → Word) :
    (s.afterLoad rd a n extend).plic = (readValue s a n).plic := rfl

theorem State.posted_afterLoad (s : State) (rd : Reg) (a : Word) (n : Nat) (extend : Word → Word) :
    (s.afterLoad rd a n extend).posted = (readValue s a n).posted := rfl

/-- A load that the PLIC has not seen ahead reads the register once the stores before it have arrived. -/
theorem readValue_of_new {s : State} {a : Word} {n : Nat} {p : PlicParams} {reg : PlicReg}
    (hreg : plicAccess s a n = some (p, reg)) (hnew : ∀ e ∈ s.ahead, e.event ≠ s.events.length) :
    (readValue s a n).value = lowBytes n ((s.arriveBefore deviceInput).plic.readReg reg).1 ∧
      (readValue s a n).plic = ((s.arriveBefore deviceInput).plic.readReg reg).2 ∧
      (readValue s a n).posted = (splitPosted s.events deviceInput s.posted).2 ∧ (readValue s a n).ahead = s.ahead := by
  rw [readValue_plic hreg]
  rcases plicLoad_cases s reg a n with ⟨e, he, -⟩ | ⟨-, hl⟩
  · rw [seen?_eq_none false hnew] at he
    cases he
  · rw [hl]
    exact ⟨rfl, rfl, rfl, rfl⟩

theorem Plic.source?_congr {pl ql : Plic} (h : ql.sources = pl.sources) (id : Nat) : ql.source? id = pl.source? id := by
  cases id with
  | zero => rfl
  | succ k => rw [Plic.source?, Plic.source?, h]

/-- A register but for claim/complete is read without a change. -/
theorem Plic.readReg_unchanged {pl : Plic} {reg : PlicReg} (h : ∀ t, reg ≠ .claimComplete t) : (pl.readReg reg).2 = pl := by
  cases reg with
  | claimComplete t => exact absurd rfl (h t)
  | _ => rfl

theorem Plic.drainClaims_of_nil {pl : Plic} (h : pl.claims = []) : pl.drainClaims = pl := by
  rw [Plic.drainClaims, h, List.foldl_nil, ← h]

/-- Claims are processed oldest first, as Process Claim does it. -/
theorem Plic.drainClaims_of_cons {pl : Plic} {t : Nat} {rest : List Nat} (h : pl.claims = t :: rest) :
    pl.drainClaims = pl.processClaim.drainClaims := by
  rw [Plic.processClaim_of_cons h, Plic.drainClaims, Plic.drainClaims, h, List.foldl_cons, Plic.respond_withClaims]

/-- The low bytes of a value's low bytes. -/
theorem toNat_lowBytes_mod (n : Nat) (v : Word) : (lowBytes n v).toNat % 256 ^ n = v.toNat % 256 ^ n := by
  rw [toNat_lowBytes, Nat.mod_mod]

/-- Settles O56: the stores before the load arrive as `splitPosted` parts them, and each kind of register has its rule of what it
reads. -/
theorem hartClaimsByLoad : Obligations.HartClaimsByLoad := by
  intro s rd rs1 imm a n i v p reg ha hi hcheck hreg hnew
  obtain ⟨extend, hext, hexec⟩ := exec_load_of_check hi
  have hrun : exec i s = .next (s.afterLoad rd a n extend) := ha ▸ hexec s (ha ▸ hcheck)
  obtain ⟨hvalue, hplic, hposted, hahead⟩ := readValue_of_new hreg hnew
  obtain ⟨hsources, htargets, hclaims⟩ := foldl_receive (splitPosted s.events deviceInput s.posted).1 s.plic
  refine ⟨_, (splitPosted s.events deviceInput s.posted).1, ((s.arriveBefore deviceInput).plic.readReg reg).1, hrun, ?writes,
    ?recorded, hahead, sublist_splitPosted_fst .., ?_⟩
  case writes =>
    refine writesReg_of_regs ?_
    rw [← toNat_lowBytes_mod, ← hext, ← hvalue]
    rfl
  case recorded =>
    rw [← lowBytes_eq_ofNat, ← hvalue]
    exact accessRecorded_afterLoad rd extend (width_of_isLoad hi).1 hreg
  rw [State.posted_afterLoad, hposted, State.plic_afterLoad, hplic]
  refine ⟨sublist_splitPosted .., perm_splitPosted .., fun q => fencedBefore_splitPosted, fun q => fenced_of_mem_splitPosted,
    fun hord => mustPrecede_splitPosted hord.1, fun hne => Plic.readReg_unchanged hne, ?priority, ?threshold, ?pending, ?enable,
    ?claim⟩
  case priority =>
    rintro k ss rfl hss
    exact Plic.readReg_priority (hsources.symm ▸ hss)
  case threshold =>
    rintro t tt rfl htt
    exact Plic.readReg_threshold (htargets.symm ▸ htt)
  case pending =>
    rintro first count b rfl hb
    have hsource : (s.arriveBefore deviceInput).plic.source? (first + b) = s.plic.source? (first + b) :=
      Plic.source?_congr hsources _
    rw [Plic.readReg_pending hb, hsource]
  case enable =>
    rintro t first count b tt rfl htt hb
    rw [Plic.readReg_enable (htargets.symm ▸ htt) hb, Bool.and_eq_true, decide_eq_true_eq]
  case claim =>
    rintro t rfl
    refine ⟨rfl, rfl, fun hnil => Plic.drainClaims_of_nil (hclaims.trans hnil), fun hne => ?_⟩
    obtain ⟨c, later, hcons⟩ := List.exists_cons_of_ne_nil hne
    exact Plic.drainClaims_of_cons (hclaims.trans hcons)

end Sys2Proof.Machine

/-! The proofs of the statements about 70_reset_and_hazards.md: no instruction blocks, and the state that reset leaves. -/

namespace Sys2Proof.Machine

/-! ### No instruction blocks (70_reset_and_hazards.md R291) -/

/-- Settles O37: each instruction has one of the effects of `exec_effect`, and each effect is a next state. -/
theorem everyInstructionHasNextState : Obligations.EveryInstructionHasNextState := by
  intro i s
  obtain ⟨t, hnext, -⟩ := exec_effect i s
  exact ⟨t, hnext⟩

/-! ### The initial state (70_reset_and_hazards.md R280, R283) -/

section
variable {c : Config} {image : List Host.Cell} {regs : Vector Word 31} {pl : Plic}

theorem pcAligned_boot (hc : Config.wf c = true) : PcAligned (State.boot c image regs pl) := by
  rw [Config.wf, Bool.and_eq_true, Bool.and_eq_true] at hc
  obtain ⟨⟨-, haligned⟩, -⟩ := hc
  exact (isAligned_iff c.resetPc 4).1 haligned

theorem plicInv_boot_of_absent (hp : c.plic = none) : PlicInv (State.boot c image regs Plic.absent) := by
  simp [PlicInv, State.boot, hp]

/-- Of what a reset leaves in the PLIC, the invariant needs the legal values only. -/
theorem plicInv_boot_of_start {p : PlicParams} (hp : c.plic = some p) (hpl : PlicStart p pl) :
    PlicInv (State.boot c image regs pl) := by
  obtain ⟨hlegal, -⟩ := hpl
  simpa [PlicInv, State.boot, hp] using hlegal

/-- The launched hart runs, with no access on its way and nothing pending, so that only the configuration, the memory and the PLIC
bear on the invariant. -/
theorem stateInv_boot (hc : Config.wf c = true) (hplic : PlicInv (State.boot c image regs pl)) :
    StateInv (State.boot c image regs pl) := by
  have htrap : TrapAtPc (State.boot c image regs pl) := fun _ h => nomatch h
  have hposted : PostedInOrder (State.boot c image regs pl) := ⟨List.Pairwise.nil, fun _ h => nomatch h⟩
  exact ⟨hc, Memory.wf_boot c image regs pl, pcAligned_boot hc, htrap, hplic, List.nodup_nil, hposted, List.nodup_nil⟩

/-- A byte of the image that lies in main memory is there at launch, when no two cells name one address. -/
theorem read_boot_of_mem {cell : Host.Cell} (hn : (image.map Prod.fst).Nodup) (hcell : cell ∈ image)
    (hmain : isMain c.memMap cell.1 = true) (hlt : cell.1 < 4294967296) :
    Memory.read (State.boot c image regs pl).mem cell.1 = cell.2 :=
  Memory.read_writeAll_mainCells_of_mem rfl hn (mem_mainCells.2 ⟨hcell, hmain, hlt⟩)

end

/-- Settles O46: the PLIC is absent or in a legal start state, and the registers, the pc and the image are those given. -/
theorem bootIsTheInitialState : Obligations.BootIsTheInitialState := by
  intro c image regs pl hc hpl
  have hplic : PlicInv (State.boot c image regs pl) := by
    cases hp : c.plic with
    | none =>
      rw [hp] at hpl
      subst hpl
      exact plicInv_boot_of_absent hp
    | some p =>
      rw [hp] at hpl
      exact plicInv_boot_of_start hp hpl
  exact ⟨stateInv_boot hc hplic, rfl, State.x_zero _, rfl, rfl, rfl, fun k hk => readRegs_ofNat_succ regs k hk,
    fun hn _ hcell hmain hlt => read_boot_of_mem hn hcell hmain hlt⟩

end Sys2Proof.Machine
